-- ==== Sys2Proof/Word.lean ====
section
/-! DEFINITION. The word types of the block: a byte, the 68-bit host command word (R65), a ROM code of eight bytes
(R76), and a row word of the opcode table in one of its three formats. -/

namespace Sys2Proof

/-- A byte is 8 bits; bit 0 is the least significant (R9). -/
abbrev Byte := BitVec 8

/-- The host command word `CMD[67:0] = op[3:0] ++ arg[63:0]` (R65). -/
abbrev CmdWord := BitVec 68

/-- A ROM code: eight bytes, byte 0 first (R28, R76). -/
abbrev RomCode := Vector Byte 8

/-- A word of the opcode table, in the format of its row. -/
inductive TableWord where
  /-- Format `host_cmd68`: a command the host presents (R65). -/
  | host (w : CmdWord)
  /-- Format `wire_command_byte`: the byte the block writes first after a bus reset (R73). -/
  | wire (b : Byte)
  /-- Format `internal`, rows `WRITE_BIT`: the one-bit operand is the whole word (R69, R130, R131). -/
  | writeBit (bit : BitVec 1)
  /-- Format `internal`, row `READ_BIT`: no operand, no bit (R69, R132). -/
  | readBit
  deriving DecidableEq, Repr

end Sys2Proof
end

