-- ==== Sys2Proof/Config.lean ====
section
/-! DEFINITION. The parameters of the block (R7, R8), the source's values for them, and the free values. -/

namespace Sys2Proof

/-- The parameters of the block: "a model may take them as configuration" (R7). Times are natural numbers of
microseconds. -/
structure Config where
  /-- `T_RSTL`, master reset low time (R7). -/
  tRstl : Nat
  /-- `T_REC`, recovery after a release (R7). -/
  tRec : Nat
  /-- `T_RISE_MAX`, limit of the rise poll (R7, R113). -/
  tRiseMax : Nat
  /-- `T_PRES_MAX`, limit of the presence poll (R7, R114). -/
  tPresMax : Nat
  /-- `T_RSTH`, the reset window after the release (R7, R115). -/
  tRsth : Nat
  /-- `T_POLL`, polling resolution (R7). -/
  tPoll : Nat
  /-- `T_SLOT`, time slot length (R7, R70). -/
  tSlot : Nat
  /-- `T_LOW1`, slot-start low time of a write-1 slot and of a read slot (R7). -/
  tLow1 : Nat
  /-- `T_SAMPLE`, sampling instant of a read slot from slot start (R7). -/
  tSample : Nat
  /-- `HAS_CRITICAL` (R8): without it the `CritEnter` and `CritExit` events are omitted. -/
  hasCritical : Bool
  /-- Does the platform honour `crit` (R239)? Where it does not, and with `HAS_CRITICAL = 0`, "every `Delay(n)` is only a
  lower bound". Log 21. -/
  honoursCrit : Bool
  /-- `GAP`, the time between two primitives of one operation (R8, R136); 0 in the hardware. -/
  gap : Nat
  /-- `LINE_ID_W`, "a natural number of at most 64" (R8). -/
  lineIdW : Fin 65
  /-- `line_valid` as the list of the identifiers the platform accepts (R8, R101). -/
  lineValid : List (BitVec 64)
  deriving DecidableEq, Repr

namespace Config

/-- The two constraints the rules rely on (R7). A configuration that breaks one is refused (R18, U17). -/
def wf (c : Config) : Bool :=
  decide (c.tLow1 < c.tSample) && decide (c.tSample < c.tSlot) &&
    decide (c.tRiseMax + c.tPresMax ≤ c.tRsth)

/-- Free value: `LINE_ID_W` is OPEN (R8, D25). Log 4. -/
opaque lineIdWidth : Fin 65

/-- Free value: `line_valid` is OPEN (R8, D25). Log 4. -/
opaque validLines : List (BitVec 64)

/-- Free value: what the environment answers to the `k`-th `Sample` when the list of answers in State has run out
(R13, U13). Log 3. -/
opaque wireLevel : Nat → Bool

/-- Free value: by how many microseconds the time base is late in the `k`-th `Delay` outside a region the platform
honours, when the list in State has run out (R239, U6). Log 21. -/
opaque timeLost : Nat → Nat

/-- The source's literals (R7), the canonical variant (`HAS_CRITICAL = 1`, R6, R8) on a platform that honours `crit`
(R239), `GAP = 0` (the hardware, R8), and any width and set of line identifiers. -/
def canonical (lineIdW : Fin 65) (lineValid : List (BitVec 64)) : Config where
  tRstl := 480
  tRec := 1
  tRiseMax := 60
  tPresMax := 240
  tRsth := 480
  tPoll := 1
  tSlot := 120
  tLow1 := 1
  tSample := 15
  hasCritical := true
  honoursCrit := true
  gap := 0
  lineIdW := lineIdW
  lineValid := lineValid

/-- The configuration is the canonical one for some platform: the nine times are the source's literals (R7),
`HAS_CRITICAL = 1` and `GAP = 0` (R8), and `crit` is honoured (R239). -/
def Canonical (c : Config) : Prop := c = canonical c.lineIdW c.lineValid

end Config

end Sys2Proof
end

