-- ==== Sys2Proof/Syntax.lean ====
section
/-! DEFINITION. The instructions: one constructor per row of the opcode table. -/

namespace Sys2Proof

/-- One constructor per row of `spec/opcode_table.json` (R66, R68, R69, R73). Argument bits that a command ignores
(R67) are no operands. -/
inductive Instr where
  /-- `0x0 INIT`, `init(line_id)`: the whole 64-bit argument; the operation takes its low `LINE_ID_W` bits (R67, R100). -/
  | init (lineId : BitVec 64)
  /-- `0x1 RESET`, `reset()` (R110). -/
  | reset
  /-- `0x2 SEND_BYTE`, `send_byte(byte)` with `byte = arg[7:0]` (R140). -/
  | sendByte (byte : Byte)
  /-- `0x3 READ_BYTE`, `read_byte()` (R141). -/
  | readByte
  /-- `0x4 SKIP_ROM`, `skip_rom()` (R151). -/
  | skipRom
  /-- `0x5 READ_ROM`, `read_rom()` (R153). -/
  | readRom
  /-- `0x6 MATCH_ROM`, `match_rom(code)` with `code[i] = arg[8i+7:8i]` (R156). -/
  | matchRom (code : RomCode)
  /-- `0x7 SEARCH_INIT`, `search_init()` (R170). -/
  | searchInit
  /-- `0x8 SEARCH_NEXT`, `search_next()` (R171, R172). -/
  | searchNext
  /-- Illegal opcode `0x9` (R68). -/
  | illegal9
  /-- Illegal opcode `0xA` (R68). -/
  | illegalA
  /-- Illegal opcode `0xB` (R68). -/
  | illegalB
  /-- Illegal opcode `0xC` (R68). -/
  | illegalC
  /-- Illegal opcode `0xD` (R68). -/
  | illegalD
  /-- Illegal opcode `0xE` (R68). -/
  | illegalE
  /-- Illegal opcode `0xF` (R68). -/
  | illegalF
  /-- Wire command byte `0xCC`, the inner `send_byte(CMD_SKIP_ROM)` (R73, R151). -/
  | cmdSkipRom
  /-- Wire command byte `0x33`, the inner `send_byte(CMD_READ_ROM)` (R73, R153). -/
  | cmdReadRom
  /-- Wire command byte `0x55`, the inner `send_byte(CMD_MATCH_ROM)` (R73, R156). -/
  | cmdMatchRom
  /-- Wire command byte `0xF0`, the inner `send_byte(CMD_SEARCH_ROM)` (R73, R172). -/
  | cmdSearchRom
  /-- Internal primitive `write_bit(0)` (R130). -/
  | writeBit0
  /-- Internal primitive `write_bit(1)` (R131). -/
  | writeBit1
  /-- Internal primitive `read_bit()` (R132). -/
  | readBit
  deriving DecidableEq, Repr

end Sys2Proof
end

