-- ==== Sys2Proof/WellFormed.lean ====
section
/-! DEFINITION. Which instructions are well formed for a given width of a line identifier. -/

namespace Sys2Proof

/-- The operand of `init` is a line identifier and has `LINE_ID_W` bits (R8, R27, R67); every other operand has its
width by its type, so the others are always well formed. -/
def Instr.wellFormed (lineIdW : Nat) : Instr → Bool
  | .init lineId => decide (lineId.toNat < 2 ^ lineIdW)
  | .reset => true
  | .sendByte _ => true
  | .readByte => true
  | .skipRom => true
  | .readRom => true
  | .matchRom _ => true
  | .searchInit => true
  | .searchNext => true
  | .illegal9 => true
  | .illegalA => true
  | .illegalB => true
  | .illegalC => true
  | .illegalD => true
  | .illegalE => true
  | .illegalF => true
  | .cmdSkipRom => true
  | .cmdReadRom => true
  | .cmdMatchRom => true
  | .cmdSearchRom => true
  | .writeBit0 => true
  | .writeBit1 => true
  | .readBit => true

end Sys2Proof
end

