-- ==== Sys2Proof/Decode.lean ====
section
/-! DEFINITION. Decoding and encoding of the three formats of the opcode table: host command words (R65 to R68), wire
command bytes (R73), and the internal primitives (R69); and the packing of a ROM code into 64 bits (R52). -/

namespace Sys2Proof

/-! ## Packing of a ROM code -/

/-- `pack(r) = r[7] ++ r[6] ++ ... ++ r[0]`: byte `i` is bits `8i+7:8i` (R52). -/
def pack (r : RomCode) : BitVec 64 :=
  r[7] ++ r[6] ++ r[5] ++ r[4] ++ r[3] ++ r[2] ++ r[1] ++ r[0]

/-- The inverse of `pack`: `code[i] = arg[8i+7:8i]` (R52, R67). -/
def unpack (w : BitVec 64) : RomCode := Vector.ofFn fun i => w.extractLsb' (8 * i.val) 8

/-! ## The four wire command bytes (R73; values from general knowledge, log 13) -/

/-- `CMD_SKIP_ROM` (R8, R73). -/
def wireSkipRom : Byte := 0xCC
/-- `CMD_READ_ROM` (R8, R73). -/
def wireReadRom : Byte := 0x33
/-- `CMD_MATCH_ROM` (R8, R73). -/
def wireMatchRom : Byte := 0x55
/-- `CMD_SEARCH_ROM` (R8, R73). -/
def wireSearchRom : Byte := 0xF0

/-! ## Decoding -/

/-- Why a word is no instruction. -/
inductive DecodeError where
  /-- The byte is none of the four ROM command bytes; the block "never sends by itself any command byte other than
  the four" (R79). -/
  | notACommandByte (b : Byte)
  deriving DecidableEq, Repr

/-- Field `op` of a host command word, bits 67:64 (R65). -/
def hostOp (w : CmdWord) : BitVec 4 := w.extractLsb' 64 4

/-- Field `arg` of a host command word, bits 63:0 (R65). -/
def hostArg (w : CmdWord) : BitVec 64 := w.extractLsb' 0 64

/-- The opcode map (R66) with the argument fields (R67); opcodes `0x9` to `0xF` are illegal (R68). Total: every 68-bit
word is an instruction. -/
def decodeHost (w : CmdWord) : Instr :=
  match (hostOp w).toNat with
  | 0x0 => .init (hostArg w)
  | 0x1 => .reset
  | 0x2 => .sendByte ((hostArg w).extractLsb' 0 8)
  | 0x3 => .readByte
  | 0x4 => .skipRom
  | 0x5 => .readRom
  | 0x6 => .matchRom (unpack (hostArg w))
  | 0x7 => .searchInit
  | 0x8 => .searchNext
  | 0x9 => .illegal9
  | 0xA => .illegalA
  | 0xB => .illegalB
  | 0xC => .illegalC
  | 0xD => .illegalD
  | 0xE => .illegalE
  | _ => .illegalF

/-- The four ROM command bytes; any other byte is rejected by name (R73, R79). -/
def decodeWire (b : Byte) : Except DecodeError Instr :=
  if b = wireSkipRom then .ok .cmdSkipRom
  else if b = wireReadRom then .ok .cmdReadRom
  else if b = wireMatchRom then .ok .cmdMatchRom
  else if b = wireSearchRom then .ok .cmdSearchRom
  else .error (.notACommandByte b)

/-- The decoder, total on the words of all three formats. -/
def decode : TableWord → Except DecodeError Instr
  | .host w => .ok (decodeHost w)
  | .wire b => decodeWire b
  | .writeBit bit => .ok (if bit = 1#1 then .writeBit1 else .writeBit0)
  | .readBit => .ok .readBit

/-! ## Encoding -/

/-- A host command word from its two fields (R65). -/
def hostWord (op : BitVec 4) (arg : BitVec 64) : CmdWord := op ++ arg

/-- The word of an instruction; ignored argument bits (R67) are written as zeros. -/
def encode : Instr → TableWord
  | .init lineId => .host (hostWord 0x0 lineId)
  | .reset => .host (hostWord 0x1 0)
  | .sendByte byte => .host (hostWord 0x2 (byte.setWidth 64))
  | .readByte => .host (hostWord 0x3 0)
  | .skipRom => .host (hostWord 0x4 0)
  | .readRom => .host (hostWord 0x5 0)
  | .matchRom code => .host (hostWord 0x6 (pack code))
  | .searchInit => .host (hostWord 0x7 0)
  | .searchNext => .host (hostWord 0x8 0)
  | .illegal9 => .host (hostWord 0x9 0)
  | .illegalA => .host (hostWord 0xA 0)
  | .illegalB => .host (hostWord 0xB 0)
  | .illegalC => .host (hostWord 0xC 0)
  | .illegalD => .host (hostWord 0xD 0)
  | .illegalE => .host (hostWord 0xE 0)
  | .illegalF => .host (hostWord 0xF 0)
  | .cmdSkipRom => .wire wireSkipRom
  | .cmdReadRom => .wire wireReadRom
  | .cmdMatchRom => .wire wireMatchRom
  | .cmdSearchRom => .wire wireSearchRom
  | .writeBit0 => .writeBit 0#1
  | .writeBit1 => .writeBit 1#1
  | .readBit => .readBit

/-! ## The table's words by their width -/

/-- Which format a word of `nbits` bits belongs to (log 10): 68 bits or more is a host command (bits above the 68th
must be 0), no bits at all is `READ_BIT`, and of the words of at most 8 bits the values 0 and 1 are the operand of
`WRITE_BIT` and every other is a wire command byte. -/
def tableWord (nbits w : Nat) : Option TableWord :=
  if 68 ≤ nbits then (if w < 2 ^ 68 then some (.host (BitVec.ofNat 68 w)) else none)
  else if nbits = 0 then some .readBit
  else if nbits ≤ 8 ∧ w < 2 ^ 8 then
    some (if w < 2 then .writeBit (BitVec.ofNat 1 w) else .wire (BitVec.ofNat 8 w))
  else none

/-- The instruction the decoder reads from a word of the opcode table. -/
def decodeTableWord (nbits w : Nat) : Option Instr :=
  match tableWord nbits w with
  | none => none
  | some tw =>
    match decode tw with
    | .ok i => some i
    | .error _ => none

end Sys2Proof
end

