-- ==== Sys2Proof/Machine/State.lean ====
section
/-! DEFINITION. The state of the block (10_state.md) as plain data: persistent registers, sequencer, line-side outputs,
transient registers, the clock and the recorded trace, and the inputs of the environment and of the host; the state
after the power-on reset (R48); and the reasons a step can stop. -/

namespace Sys2Proof.Machine

/-- The outcome of an operation: exactly the nine values of R200. -/
inductive Status where
  /-- `0 OK`: the operation completed. -/
  | ok
  /-- `1 NotInitialized`: an operation used before `init` succeeded. -/
  | notInitialized
  /-- `2 InvalidArgument`: `init` given a line identifier the platform rejects. -/
  | invalidArgument
  /-- `3 BusBusy`: `reset` invoked while the line is not idle-high. -/
  | busBusy
  /-- `4 Timeout`: `reset` saw no rise or no presence pulse. -/
  | timeout
  /-- `5 NoResponse`: a ROM command's internal `reset` failed. -/
  | noResponse
  /-- `6 InvalidCrc`: the eight bytes of `read_rom` failed the CRC check. -/
  | invalidCrc
  /-- `7 NONE`: `search_next` returned no code. -/
  | noneReturned
  /-- `8 ILLEGAL_CMD`: an opcode of `0x9` to `0xF`. -/
  | illegalCmd
  deriving DecidableEq, Repr

/-- What the block last asked of the line driver (R35). -/
inductive Drive where
  /-- `RELEASED`: `line_oe = 0`. -/
  | released
  /-- `LOW`: `line_oe = 1`, `line_out = 0`. -/
  | low
  deriving DecidableEq, Repr

/-- The event alphabet (R11). -/
inductive Event where
  /-- `Configure(line, in, pull_up = 1) -> ok | reject` (R100). -/
  | configure (line : BitVec 64) (ok : Bool)
  /-- `DriveLow`, one atomic event (R12). -/
  | driveLow
  /-- `Release` (R12). -/
  | release
  /-- `Sample -> v`. -/
  | sample (v : Bool)
  /-- `Delay(n)` in microseconds. -/
  | delay (n : Nat)
  /-- `CritEnter`. -/
  | critEnter
  /-- `CritExit`. -/
  | critExit
  deriving DecidableEq, Repr

/-- The nine host operations, as `seq = BUSY(op, phase)` names them (R33, R66). -/
inductive HostOp where
  /-- `init` -/
  | init
  /-- `reset` -/
  | reset
  /-- `send_byte` -/
  | sendByte
  /-- `read_byte` -/
  | readByte
  /-- `skip_rom` -/
  | skipRom
  /-- `read_rom` -/
  | readRom
  /-- `match_rom` -/
  | matchRom
  /-- `search_init` -/
  | searchInit
  /-- `search_next` -/
  | searchNext
  deriving DecidableEq, Repr

/-- How the bus reset primitive ends (R117). -/
inductive ResetResult where
  /-- A device answered with a presence pulse. -/
  | ok
  /-- The line was not idle-high (R111). -/
  | busBusy
  /-- No rise, or no presence pulse (R113, R114). -/
  | timeout
  deriving DecidableEq, Repr

/-- The events of the bus reset primitive, in the order of the pseudocode of R110: the one that comes next. -/
inductive ResetPoint where
  /-- `CritEnter` -/
  | critEnter
  /-- Step 1, the idle `Sample` (R111). -/
  | idleSample
  /-- Step 2, `DriveLow` (R112). -/
  | driveLow
  /-- Step 2, `Delay(T_RSTL)`. -/
  | lowDelay
  /-- Step 3, `Release`. -/
  | release
  /-- Step 3, `Delay(T_REC)`. -/
  | recDelay
  /-- Step 4, a `Sample` of the rise poll (R113). -/
  | riseSample
  /-- Step 4, a `Delay(T_POLL)` of the rise poll. -/
  | riseDelay
  /-- Step 5, a `Sample` of the presence poll (R114). -/
  | fallSample
  /-- Step 5, a `Delay(T_POLL)` of the presence poll. -/
  | fallDelay
  /-- Step 6, `Delay(T_RSTH - rise - fall)` (R115). -/
  | remainder
  /-- `CritExit` on the way out with this result (R116). -/
  | critExit (r : ResetResult)
  deriving DecidableEq, Repr

/-- The events of a write slot (R130, R131): the one that comes next. -/
inductive WritePoint where
  /-- `CritEnter` -/
  | critEnter
  /-- `DriveLow` at slot start. -/
  | driveLow
  /-- The low time: `Delay(T_SLOT)` for a 0, `Delay(T_LOW1)` for a 1. -/
  | lowDelay
  /-- `Release` -/
  | release
  /-- The released rest: `Delay(T_REC)` for a 0, `Delay(T_SLOT - T_LOW1)` for a 1. -/
  | tailDelay
  /-- `CritExit` -/
  | critExit
  deriving DecidableEq, Repr

/-- The events of a read slot (R132): the one that comes next. -/
inductive ReadPoint where
  /-- `CritEnter` -/
  | critEnter
  /-- `DriveLow` at slot start. -/
  | driveLow
  /-- `Delay(T_LOW1)` -/
  | lowDelay
  /-- `Release` -/
  | release
  /-- `Delay(T_SAMPLE - T_LOW1)` -/
  | settleDelay
  /-- The `Sample`. -/
  | sample
  /-- `Delay(T_SLOT - T_SAMPLE)` -/
  | tailDelay
  /-- `CritExit` -/
  | critExit
  deriving DecidableEq, Repr

/-- The phase of an operation: which event comes next, in which of its primitives (R33: "a model may take the event
sequence of each rule as the phases"; R34: each level's return point is a loop counter). -/
inductive Phase where
  /-- The `Configure` event of `init`. -/
  | configure
  /-- The bus reset primitive. -/
  | reset (p : ResetPoint)
  /-- A write slot of the byte of `send_byte`, or of the command byte of a ROM command or of the search. -/
  | command (p : WritePoint)
  /-- A write slot of a code byte of `match_rom`. -/
  | payload (p : WritePoint)
  /-- A read slot of a byte of `read_byte` or `read_rom`. -/
  | receive (p : ReadPoint)
  /-- The first read slot of a search position: `b`. -/
  | pairTrue (p : ReadPoint)
  /-- The second read slot of a search position: `nb`. -/
  | pairComp (p : ReadPoint)
  /-- The write slot of a search position: `chosen`. -/
  | answer (p : WritePoint)
  deriving DecidableEq, Repr

/-- `seq`, the control state of the sequencer (R33). -/
inductive Seq where
  /-- `IDLE`: nothing happens and no event is produced. -/
  | idle
  /-- `BUSY(op, phase)`. -/
  | busy (op : HostOp) (phase : Phase)
  deriving DecidableEq, Repr

/-- The transient registers (R36): no meaning in `IDLE`; each is written before it is read in every operation. -/
structure Transients where
  /-- `op_reg` (4 bits), the latched opcode (R31). -/
  opReg : BitVec 4
  /-- `arg_reg` (64 bits), the latched argument (R31). -/
  argReg : BitVec 64
  /-- `shift` (8 bits), the byte being sent or assembled. -/
  shift : Byte
  /-- `bitcnt`, 0 to 8. -/
  bitcnt : Nat
  /-- `bytecnt`, 0 to 8. -/
  bytecnt : Nat
  /-- `crc` (8 bits). -/
  crc : Byte
  /-- `buf`, the eight bytes `read_rom` has read (R153; `rrom` of R10). -/
  buf : RomCode
  /-- `pos`, 1 to 64. -/
  pos : Nat
  /-- `new_fork`, 0 to 64. -/
  newFork : Fin 66
  /-- `new_rom[0..7]`. -/
  newRom : RomCode
  /-- `b`, the first bit of the search pair. -/
  b : Bool
  /-- `nb`, the second bit of the search pair. -/
  nb : Bool
  /-- `chosen`, the bit sent back. -/
  chosen : Bool
  /-- `prev`, the bit of the previous pass at this position. -/
  prev : Bool
  /-- `rise`, poll steps until the line rose. -/
  rise : Nat
  /-- `fall`, poll steps until the presence pulse. -/
  fall : Nat
  /-- `timer`, the down-counter of one `Delay(n)` (R218). -/
  timer : Nat
  /-- `v`, the level last sampled: the pseudocode's local of `reset` and `read_bit` (R110, R132). -/
  v : Bool
  deriving DecidableEq, Repr

/-- What an operation works with while it runs: the line-side outputs (R35), the clock and the trace (R13, R22), the
answers of the environment (R13) and the transient registers (R36). The primitives act on this alone. -/
structure Engine where
  /-- `drv` (R35). -/
  drv : Drive
  /-- `crit` (R35). -/
  crit : Bool
  /-- The clock `t` in microseconds (R13). -/
  now : Nat
  /-- The recorder of R22: the events with their times since the last power-on reset, the latest first. -/
  log : List (Nat × Event)
  /-- What the environment will answer to the next `Sample` events, in order (R13). Log 3. -/
  wire : List Bool
  /-- How many samples have been taken: the index of the free value `Config.wireLevel`. Log 3. -/
  samples : Nat
  /-- By how many microseconds the time base will be late in the next `Delay` events, in order (R239, U6). Log 21. -/
  stalls : List Nat
  /-- How many `Delay` events there have been: the index of the free value `Config.timeLost`. Log 21. -/
  delays : Nat
  /-- The transient registers. -/
  tr : Transients
  deriving DecidableEq, Repr

/-- The persistent registers (R25) and `pull_up` (R35). -/
structure Regs where
  /-- `initialized` (R26). -/
  initialized : Bool
  /-- `line_id` (R27), in the low `LINE_ID_W` bits. -/
  lineId : BitVec 64
  /-- `rom[0..7]` (R28). -/
  rom : RomCode
  /-- `fork_bit` (R29): 0 to 65, never any other. -/
  forkBit : Fin 66
  /-- `status` (R30). -/
  status : Status
  /-- `rdata` (R30). -/
  rdata : BitVec 64
  /-- `pull_up` (R35): 1 after a successful `Configure`. -/
  pullUp : Bool
  deriving DecidableEq, Repr

/-- What the host does at one step (R20, R225). Log 7. -/
inductive HostInput where
  /-- Presents a command and waits for it: accepted in `IDLE`, the operation runs to completion in one step. -/
  | command (w : CmdWord)
  /-- Presents a command and watches it: accepted in `IDLE`, the steps after it take one event or one tick each. -/
  | start (w : CmdWord)
  /-- Presents nothing. -/
  | wait
  /-- Asserts the power-on reset `rst` (R230). -/
  | rst
  deriving DecidableEq, Repr

/-- The state of the machine. -/
structure State where
  /-- The parameters of R7 and R8: no step changes them. Log 5. -/
  cfg : Config
  /-- The persistent registers (R25) and `pull_up`. -/
  regs : Regs
  /-- Outputs, clock, trace, environment and transient registers. -/
  eng : Engine
  /-- `seq` (R33). -/
  seq : Seq
  /-- `rsp_valid` (R32): an operation completed in the last step. -/
  rspValid : Bool
  /-- What the host does next, one entry a step. Log 7. -/
  host : List HostInput
  /-- A wire command byte or a bit primitive to be run by itself; no step of the machine sets it (R69). Log 9. -/
  inner : Option TableWord
  deriving DecidableEq, Repr

/-- Why the machine stops. -/
inductive Fault where
  /-- Raised by the sequencer when `seq` holds a phase that the rule of its operation does not have: a state no run
  reaches, to which the spec gives no step (R33, R84). Safe. Log 17. -/
  | strayPhase
  deriving DecidableEq, Repr

/-- Why a step has no meaning. -/
inductive Refusal where
  /-- Raised by `exec` for an instruction that has no meaning yet; no arm does so now. Safe. -/
  | notModelled (mnemonic : String)
  /-- Raised by every operation under parameters that break a constraint of R7: "must refuse the configuration rather
  than wrap or clamp" (R18, U17). Safe. Log 5. -/
  | badConfiguration
  /-- Raised by the fetch of an inner call whose byte is none of the four ROM command bytes (R79). Safe. Log 9. -/
  | notACommandByte (b : Byte)
  deriving DecidableEq, Repr

/-- The transient registers after the power-on reset: unspecified in R48, zero in the model. DESIGN CHOICE, log 2. -/
def Transients.reset : Transients where
  opReg := 0
  argReg := 0
  shift := 0
  bitcnt := 0
  bytecnt := 0
  crc := 0
  buf := Vector.replicate 8 0
  pos := 0
  newFork := 0
  newRom := Vector.replicate 8 0
  b := false
  nb := false
  chosen := false
  prev := false
  rise := 0
  fall := 0
  timer := 0
  v := false

/-- Line released and `crit = 0` (R48); the clock at 0 and an empty trace (log 15); nothing listed of the
environment (logs 3, 21). -/
def Engine.reset : Engine where
  drv := .released
  crit := false
  now := 0
  log := []
  wire := []
  samples := 0
  stalls := []
  delays := 0
  tr := Transients.reset

/-- The persistent registers after the power-on reset (R48); `line_id` is unspecified there: DESIGN CHOICE, log 1. -/
def Regs.reset : Regs where
  initialized := false
  lineId := 0
  rom := Vector.replicate 8 0
  forkBit := 0
  status := .ok
  rdata := 0
  pullUp := false

/-- The machine right after the power-on reset (R48, R230): uninitialised and idle, the host doing nothing yet. The
parameters are the source's (R7, R8); the width and the set of line identifiers are free (log 4). -/
def State.reset : State where
  cfg := Config.canonical Config.lineIdWidth Config.validLines
  regs := Regs.reset
  eng := Engine.reset
  seq := .idle
  rspValid := false
  host := []
  inner := none

end Sys2Proof.Machine
end

