-- ==== Sys2Proof/Machine/Ops.lean ====
section
/-! DEFINITION. The shared operations: the events (R11 to R13) and their time (R218, R239), the end of an operation (R10, R33, R212), the
gate (R104) and the refusal of a bad configuration (R18). -/

namespace Sys2Proof.Machine

/-! ## Events -/

/-- Record an event at the present time (R11, R22). -/
def emit (ev : Event) (e : Engine) : Engine := { e with log := (e.now, ev) :: e.log }

/-- `DriveLow` (R12, R35). -/
def driveLow (e : Engine) : Engine := { emit .driveLow e with drv := .low }

/-- `Release` (R12, R35). -/
def release (e : Engine) : Engine := { emit .release e with drv := .released }

/-- `CritEnter` (R35); omitted with `HAS_CRITICAL = 0` (R8). -/
def critEnter (c : Config) (e : Engine) : Engine :=
  if c.hasCritical then { emit .critEnter e with crit := true } else e

/-- `CritExit` (R35); omitted with `HAS_CRITICAL = 0` (R8). -/
def critExit (c : Config) (e : Engine) : Engine :=
  if c.hasCritical then { emit .critExit e with crit := false } else e

/-- What the environment answers to the `k`-th `Sample` from now, `k` counting from 0 (R13): the listed answer, or the
free value after the list has run out. Log 3. -/
def Engine.answer (e : Engine) (k : Nat) : Bool :=
  match e.wire[k]? with
  | some v => v
  | none => Config.wireLevel (e.samples + k)

/-- `Sample -> v` with the level as the bit value, high is 1 (R13, R43); `v` keeps the answer. -/
def sample (e : Engine) : Engine :=
  { emit (.sample (e.answer 0)) e with
    wire := e.wire.tail
    samples := e.samples + 1
    tr := { e.tr with v := e.answer 0 } }

/-- By how much the time base can be late in the `k`-th `Delay` from now, `k` counting from 0: the listed time, or the
free value after the list has run out. Log 21. -/
def Engine.stall (e : Engine) (k : Nat) : Nat :=
  match e.stalls[k]? with
  | some n => n
  | none => Config.timeLost (e.delays + k)

/-- By how much the next `Delay` is late: by nothing while `crit` is 1 and the platform honours it (R13, R222), by any
time otherwise: "every `Delay(n)` is only a lower bound" (R239, U6). -/
def late (c : Config) (e : Engine) : Nat := if c.honoursCrit && e.crit then 0 else e.stall 0

/-- The environment's account of one more `Delay`: the next entry of the list is used up. -/
def countDelay (e : Engine) : Engine := { e with stalls := e.stalls.tail, delays := e.delays + 1 }

/-- `Delay(n)` as it begins: recorded, what the time base is late passed, and `timer` loaded with `n` (R218). -/
def startDelay (c : Config) (n : Nat) (e : Engine) : Engine :=
  { countDelay (emit (.delay n) e) with now := e.now + late c e, tr := { e.tr with timer := n } }

/-- One pulse of `tick_us` while `timer` is running (R218). -/
def tick (e : Engine) : Engine :=
  { e with now := e.now + 1, tr := { e.tr with timer := e.tr.timer - 1 } }

/-- `Delay(n)` as a whole: it "advances `t` by exactly `n` and nothing else does" (R13), or, where the platform does not
keep time, by at least `n` (R239); `timer` has run down. -/
def delay (c : Config) (n : Nat) (e : Engine) : Engine :=
  { countDelay (emit (.delay n) e) with now := e.now + late c e + n, tr := { e.tr with timer := 0 } }

/-- The time between the end of one primitive and the start of the next inside an operation (R8, R136): no event. -/
def gap (c : Config) (e : Engine) : Engine := { e with now := e.now + c.gap }

/-! ## The end of an operation -/

/-- THE ONE WAY AN OPERATION ENDS, with a result (`return`) or early (`raise`, R10): `status` is written, `seq` returns
to `IDLE`, `rsp_valid` pulses (R33, R62, R212). No handler, no vector, nothing saved (R212). -/
def endOperation (st : Status) (s : State) : State :=
  { s with regs := { s.regs with status := st }, seq := .idle, rspValid := true }

/-- The gate (R104): with `initialized = 0` the operation ends at once with this outcome and an empty trace. -/
def gated (closed : Status) (s : State) (k : State → State) : State :=
  if s.regs.initialized then k s else endOperation closed s

/-- Run a meaning, unless the parameters break a constraint of R7: such a configuration is refused (R18, U17). -/
def perform (s : State) (f : State → State) : Host.Outcome State Fault Refusal :=
  if s.cfg.wf then .next (f s) else .refused .badConfiguration

end Sys2Proof.Machine
end

