-- ==== Sys2Proof/Machine/BitTransport.lean ====
section
/-! DEFINITION. Bit transport (43_bit_transport.md): the write slots and the read slot, each one critical region
(R133), and the rows WRITE_BIT and READ_BIT of the opcode table. -/

namespace Sys2Proof.Machine

/-- How long the line is held low at the start of a write slot (R130, R131). -/
def writeLowTime (c : Config) (bit : Bool) : Nat := if bit then c.tLow1 else c.tSlot

/-- How long the line is released at the end of a write slot (R130, R131). -/
def writeTailTime (c : Config) (bit : Bool) : Nat := if bit then c.tSlot - c.tLow1 else c.tRec

/-- `write_bit(bit)` (R130, R131). -/
def writeSlot (c : Config) (bit : Bool) (e : Engine) : Engine :=
  critExit c (delay c (writeTailTime c bit) (release (delay c (writeLowTime c bit) (driveLow (critEnter c e)))))

/-- `read_bit()` (R132): the bit read is left in `v`. -/
def readSlot (c : Config) (e : Engine) : Engine :=
  critExit c (delay c (c.tSlot - c.tSample) (sample (delay c (c.tSample - c.tLow1)
    (release (delay c c.tLow1 (driveLow (critEnter c e)))))))

/-- Row `WRITE_BIT` with bit 0, by itself (R130): no gate, no outcome (R134). -/
def execWriteBit0 (s : State) : Host.Outcome State Fault Refusal :=
  perform s fun s => { s with eng := writeSlot s.cfg false s.eng }

/-- Row `WRITE_BIT` with bit 1, by itself (R131): no gate, no outcome (R134). -/
def execWriteBit1 (s : State) : Host.Outcome State Fault Refusal :=
  perform s fun s => { s with eng := writeSlot s.cfg true s.eng }

/-- Row `READ_BIT`, by itself (R132): no gate, no outcome (R134); the result is in `v`. -/
def execReadBit (s : State) : Host.Outcome State Fault Refusal :=
  perform s fun s => { s with eng := readSlot s.cfg s.eng }

end Sys2Proof.Machine
end

