-- ==== Sys2Proof/Machine/Operands.lean ====
section
/-! DEFINITION. How operands are taken apart and results put together (R78): shifts (R15, R16), the bit view of the ROM
registers (R55), the line identifier (R53, R67). -/

namespace Sys2Proof.Machine

/-- `FORK_START`, the sentinel of an armed cursor (R8, R29). -/
def forkStart : Fin 66 := 65

/-- `b >> 1` on a byte: `0 ++ b[7:1]` (R15). -/
def shiftRight (b : Byte) : Byte := b >>> 1

/-- `(acc >> 1) | (v << 7)`: `v ++ acc[7:1]` (R16). -/
def insertTop (v : Bool) (acc : Byte) : Byte := shiftRight acc ||| (if v then 0x80 else 0)

/-- ROM bit position `p`, 1 to 64: bit `(p-1) mod 8` of byte `(p-1) div 8` (R9, R55). -/
def romBit (r : RomCode) (p : Nat) : Bool := (r.getD ((p - 1) / 8) 0).getLsbD ((p - 1) % 8)

/-- Bit `k` of a byte set to `v`. -/
def setByteBit (b : Byte) (k : Nat) (v : Bool) : Byte :=
  if v then b ||| (1#8 <<< k) else b &&& ~~~(1#8 <<< k)

/-- `r[(p-1) div 8][(p-1) mod 8] <- v` (R55, R176). -/
def setRomBit (r : RomCode) (p : Nat) (v : Bool) : RomCode :=
  r.setIfInBounds ((p - 1) / 8) (setByteBit (r.getD ((p - 1) / 8) 0) ((p - 1) % 8) v)

/-- The all-zero ROM code (R48, R170). -/
def zeroRom : RomCode := Vector.replicate 8 0

/-- The line identifier of an argument: `arg[LINE_ID_W-1:0]`, the higher bits ignored (R53, R67). -/
def lineIdOf (c : Config) (arg : BitVec 64) : BitVec 64 := BitVec.ofNat 64 (arg.toNat % 2 ^ c.lineIdW.val)

/-- `line_valid` (R8): does the platform accept this identifier? -/
def lineValid (c : Config) (lineId : BitVec 64) : Bool := c.lineValid.contains lineId

end Sys2Proof.Machine
end

