-- ==== Sys2Proof/Machine/ByteTransport.lean ====
section
/-! DEFINITION. Byte transport (44_byte_transport.md): eight slots, least significant bit first (R50, R72); SEND_BYTE,
READ_BYTE, and the four wire command bytes, which are `send_byte` as a subroutine (R73, R142). -/

namespace Sys2Proof.Machine

/-- Start of `send_byte`: `shift <- byte`, `bitcnt` from 0 (R140). -/
def loadShift (byte : Byte) (e : Engine) : Engine :=
  { e with tr := { e.tr with shift := byte, bitcnt := 0 } }

/-- After a bit has been sent: `shift <- shift >> 1` (R140). -/
def shiftOut (e : Engine) : Engine :=
  { e with tr := { e.tr with shift := shiftRight e.tr.shift, bitcnt := e.tr.bitcnt + 1 } }

/-- After a bit has been read: `shift <- (shift >> 1) | (v << 7)` (R141). -/
def shiftIn (e : Engine) : Engine :=
  { e with tr := { e.tr with shift := insertTop e.tr.v e.tr.shift, bitcnt := e.tr.bitcnt + 1 } }

/-- Between two slots of one byte the gap passes (R136, R144); before the first there is none. -/
def bitGap (c : Config) (e : Engine) : Engine := if e.tr.bitcnt = 0 then e else gap c e

/-- `n` more write slots of the byte in `shift`. -/
def sendBits (c : Config) : Nat → Engine → Engine
  | 0, e => e
  | n + 1, e => sendBits c n (shiftOut (writeSlot c (e.tr.shift.getLsbD 0) (bitGap c e)))

/-- The eight write slots of `send_byte(byte)` (R140). -/
def sendByteSlots (c : Config) (byte : Byte) (e : Engine) : Engine := sendBits c 8 (loadShift byte e)

/-- `n` more read slots into `shift`. -/
def readBits (c : Config) : Nat → Engine → Engine
  | 0, e => e
  | n + 1, e => readBits c n (shiftIn (readSlot c (bitGap c e)))

/-- The eight read slots of `read_byte()` (R141): the byte is left in `shift`. -/
def readByteSlots (c : Config) (e : Engine) : Engine := readBits c 8 (loadShift 0 e)

/-- `send_byte(byte)` (R140): `status <- OK`, `rdata` unchanged. -/
def execSendByte (byte : Byte) (s : State) : Host.Outcome State Fault Refusal :=
  perform s (gated .notInitialized · fun s =>
    endOperation .ok { s with eng := sendByteSlots s.cfg byte s.eng })

/-- `read_byte()` (R141): `rdata <- zext_64(byte)`, `status <- OK`. -/
def execReadByte (s : State) : Host.Outcome State Fault Refusal :=
  perform s (gated .notInitialized · fun s =>
    let e := readByteSlots s.cfg s.eng
    endOperation .ok { s with eng := e, regs := { s.regs with rdata := e.tr.shift.setWidth 64 } })

/-- The wire command byte of Skip ROM by itself, `call send_byte(CMD_SKIP_ROM)` (R73, R142, R151). Log 11. -/
def execCmdSkipRom (s : State) : Host.Outcome State Fault Refusal :=
  perform s fun s => { s with eng := sendByteSlots s.cfg wireSkipRom s.eng }

/-- The wire command byte of Read ROM by itself, `call send_byte(CMD_READ_ROM)` (R73, R142, R153). Log 11. -/
def execCmdReadRom (s : State) : Host.Outcome State Fault Refusal :=
  perform s fun s => { s with eng := sendByteSlots s.cfg wireReadRom s.eng }

/-- The wire command byte of Match ROM by itself, `call send_byte(CMD_MATCH_ROM)` (R73, R142, R156). Log 11. -/
def execCmdMatchRom (s : State) : Host.Outcome State Fault Refusal :=
  perform s fun s => { s with eng := sendByteSlots s.cfg wireMatchRom s.eng }

/-- The wire command byte of the search by itself, `call send_byte(CMD_SEARCH_ROM)` (R73, R142, R172). Log 11. -/
def execCmdSearchRom (s : State) : Host.Outcome State Fault Refusal :=
  perform s fun s => { s with eng := sendByteSlots s.cfg wireSearchRom s.eng }

end Sys2Proof.Machine
end

