-- ==== Sys2Proof/Machine/Init.lean ====
section
/-! DEFINITION. Bus initialisation (41_init.md, INIT) and the illegal opcodes (30_encoding.md R68). -/

namespace Sys2Proof.Machine

/-- The `Configure` event of `init` and what follows from its answer (R100, R101): on `ok` the handle is recorded, on
`reject` nothing changes but `status`. The identifier is the argument's low `LINE_ID_W` bits. -/
def configureLine (arg : BitVec 64) (s : State) : State :=
  let id := lineIdOf s.cfg arg
  let accepted := lineValid s.cfg id
  let s := { s with eng := emit (.configure id accepted) s.eng }
  if accepted then
    endOperation .ok { s with regs := { s.regs with lineId := id, pullUp := true, initialized := true } }
  else endOperation .invalidArgument s

/-- `init(line_id)` (R100 to R103): needs no gate, touches neither the cursor nor `rdata`, takes no time. -/
def execInit (arg : BitVec 64) (s : State) : Host.Outcome State Fault Refusal :=
  perform s (configureLine arg)

/-- An opcode that selects no operation: no event, `status = ILLEGAL_CMD`, `rdata` unchanged (R68). -/
def illegalCommand (s : State) : State := endOperation .illegalCmd s

/-- Opcode `0x9` (R68). -/
def execIllegal9 (s : State) : Host.Outcome State Fault Refusal := perform s illegalCommand

/-- Opcode `0xA` (R68). -/
def execIllegalA (s : State) : Host.Outcome State Fault Refusal := perform s illegalCommand

/-- Opcode `0xB` (R68). -/
def execIllegalB (s : State) : Host.Outcome State Fault Refusal := perform s illegalCommand

/-- Opcode `0xC` (R68). -/
def execIllegalC (s : State) : Host.Outcome State Fault Refusal := perform s illegalCommand

/-- Opcode `0xD` (R68). -/
def execIllegalD (s : State) : Host.Outcome State Fault Refusal := perform s illegalCommand

/-- Opcode `0xE` (R68). -/
def execIllegalE (s : State) : Host.Outcome State Fault Refusal := perform s illegalCommand

/-- Opcode `0xF` (R68). -/
def execIllegalF (s : State) : Host.Outcome State Fault Refusal := perform s illegalCommand

end Sys2Proof.Machine
end

