-- ==== Sys2Proof/Machine/Flags.lean ====
section
/-! DEFINITION. Outcome codes (R200) and how an inner reset's failure is reported (R150, R171, R215, R216), the one-bit
outputs and the other ports (R31, R32, R35, R37, R42). The block has no arithmetic condition codes (R37). -/

namespace Sys2Proof.Machine

/-- The code of an outcome on the port `status[3:0]` (R200). -/
def Status.code : Status → BitVec 4
  | .ok => 0
  | .notInitialized => 1
  | .invalidArgument => 2
  | .busBusy => 3
  | .timeout => 4
  | .noResponse => 5
  | .invalidCrc => 6
  | .noneReturned => 7
  | .illegalCmd => 8

/-- The outcome of the host operation `reset` (R117). -/
def ResetResult.status : ResetResult → Status
  | .ok => .ok
  | .busBusy => .busBusy
  | .timeout => .timeout

/-- `busy`: 1 when `seq` is not `IDLE` (R32). -/
def State.busy (s : State) : Bool :=
  match s.seq with
  | .idle => false
  | .busy _ _ => true

/-- `cmd_ready`: 1 exactly when `seq = IDLE` (R31). -/
def State.cmdReady (s : State) : Bool := !s.busy

/-- `line_oe` (R35). -/
def State.lineOe (s : State) : Bool := s.eng.drv == .low

/-- `line_out` (R35): level 0, the only level the block ever drives (R12). What the port shows while `line_oe = 0`, from
the power-on reset on, the spec leaves open (N19): 0 there too, DESIGN CHOICE, log 19. -/
def State.lineOut (_s : State) : Bool := false

/-- `cfg_req` (R42): up while the `Configure` event of `init` is to come. -/
def State.cfgReq (s : State) : Bool :=
  match s.seq with
  | .busy _ .configure => true
  | .busy _ _ => false
  | .idle => false

/-- `cfg_dir_in` (R42): 1 with `cfg_req`, the only direction the block ever configures (R221). What it shows without a
request the spec leaves open: 1 there too, DESIGN CHOICE, log 20. -/
def State.cfgDirIn (_s : State) : Bool := true

/-- `cfg_pull_up` (R42): 1 with `cfg_req`. What it shows without a request the spec leaves open: the register `pull_up`
(R35), DESIGN CHOICE, log 20. -/
def State.cfgPullUp (s : State) : Bool := s.cfgReq || s.regs.pullUp

/-- `cfg_ok` (R42), the platform's answer to the request: whether it accepts the identifier asked for (R8, R101). -/
def State.cfgOk (s : State) : Bool := lineValid s.cfg (lineIdOf s.cfg s.eng.tr.argReg)

/-- Port `line_id` (R42), in the low `LINE_ID_W` bits: while `cfg_req` is up the identifier that `Configure` asks for, the
argument's (R100), so that the port names the line asked for (DESIGN CHOICE, log 20); otherwise the register (R27). -/
def State.lineIdPort (s : State) : BitVec 64 :=
  if s.cfgReq then lineIdOf s.cfg s.eng.tr.argReg else s.regs.lineId

/-- Port `crit` (R35, R42). -/
def State.critPort (s : State) : Bool := s.eng.crit

/-- Port `rsp_valid` (R32, R42). -/
def State.rspValidPort (s : State) : Bool := s.rspValid

/-- Port `rdata[63:0]` (R42). -/
def State.rdataPort (s : State) : BitVec 64 := s.regs.rdata

/-- Port `initialized` (R42). -/
def State.initializedPort (s : State) : Bool := s.regs.initialized

/-- `line_in` (R42): the level the environment puts on the line at the next `Sample` (R13, R43). -/
def State.lineIn (s : State) : Bool := s.eng.answer 0

/-- Port `status[3:0]` (R42). -/
def State.statusPort (s : State) : BitVec 4 := s.regs.status.code

/-- Port `fork_bit[6:0]` (R42). -/
def State.forkBitPort (s : State) : BitVec 7 := BitVec.ofNat 7 s.regs.forkBit.val

/-- Port `rom[63:0]`, `rom[7] ++ ... ++ rom[0]` (R32, R42). -/
def State.romPort (s : State) : BitVec 64 := pack s.regs.rom

/-- The trace: the recorded events in the order they happened, each with its time (R11, R22). -/
def Engine.trace (e : Engine) : List (Nat × Event) := e.log.reverse

/-- The trace of a state. -/
def State.trace (s : State) : List (Nat × Event) := s.eng.trace

end Sys2Proof.Machine
end

