-- ==== Sys2Proof/Machine/Reset.lean ====
section
/-! DEFINITION. Bus reset and presence detection (42_reset_presence.md, RESET). -/

namespace Sys2Proof.Machine

/-- One poll step of the rise loop: `Delay(T_POLL)`, `rise <- rise + 1` (R113). -/
def riseStep (c : Config) (e : Engine) : Engine :=
  let e := delay c c.tPoll e
  { e with tr := { e.tr with rise := e.tr.rise + 1 } }

/-- One poll step of the presence loop: `Delay(T_POLL)`, `fall <- fall + 1` (R114). -/
def fallStep (c : Config) (e : Engine) : Engine :=
  let e := delay c c.tPoll e
  { e with tr := { e.tr with fall := e.tr.fall + 1 } }

/-- The rise loop with `n` poll steps left before the limit: sample, then test, then wait (R113). True when the line
rose. -/
def pollRise (c : Config) : Nat → Engine → Engine × Bool
  | 0, e => let e := sample e; (e, e.tr.v)
  | n + 1, e => let e := sample e; if e.tr.v then (e, true) else pollRise c n (riseStep c e)

/-- The presence loop with `n` poll steps left before the limit (R114). True when the line fell. -/
def pollFall (c : Config) : Nat → Engine → Engine × Bool
  | 0, e => let e := sample e; (e, !e.tr.v)
  | n + 1, e => let e := sample e; if e.tr.v then pollFall c n (fallStep c e) else (e, true)

/-- `rise <- 0` (R113). -/
def startRise (e : Engine) : Engine := { e with tr := { e.tr with rise := 0 } }

/-- `fall <- 0` (R114). -/
def startFall (e : Engine) : Engine := { e with tr := { e.tr with fall := 0 } }

/-- Steps 2 and 3, the reset pulse (R112). -/
def resetPulse (c : Config) (e : Engine) : Engine :=
  delay c c.tRec (release (delay c c.tRstl (driveLow e)))

/-- Steps 5 and 6 with the way out (R114 to R116). -/
def presencePart (c : Config) (e : Engine) : Engine × ResetResult :=
  match pollFall c c.tPresMax (startFall e) with
  | (e, false) => (critExit c e, .timeout)
  | (e, true) => (critExit c (delay c (c.tRsth - e.tr.rise - e.tr.fall) e), .ok)

/-- Steps 2 to 6 with the way out (R112 to R116). -/
def pulsePart (c : Config) (e : Engine) : Engine × ResetResult :=
  match pollRise c c.tRiseMax (startRise (resetPulse c e)) with
  | (e, false) => (critExit c e, .timeout)
  | (e, true) => presencePart c e

/-- The bus reset primitive (R110 to R116), without the gate: one critical region, closed on every way out. -/
def resetPrim (c : Config) (e : Engine) : Engine × ResetResult :=
  let e := sample (critEnter c e)
  if e.tr.v then pulsePart c e else (critExit c e, .busBusy)

/-- An operation that begins with an inner `reset()`: its failure becomes the caller's outcome, its success hands the
engine on, the gap having passed (R120, R136, R150, R171, R215). -/
def afterReset (failed : Status) (s : State) (k : Engine → State) : State :=
  match resetPrim s.cfg s.eng with
  | (e, .ok) => k (gap s.cfg e)
  | (e, .busBusy) => endOperation failed { s with eng := e }
  | (e, .timeout) => endOperation failed { s with eng := e }

/-- `reset()` (R110): `status` only. -/
def execReset (s : State) : Host.Outcome State Fault Refusal :=
  perform s (gated .notInitialized · fun s =>
    match resetPrim s.cfg s.eng with
    | (e, r) => endOperation r.status { s with eng := e })

end Sys2Proof.Machine
end

