-- ==== Sys2Proof/Machine/RomCommands.lean ====
section
/-! DEFINITION. ROM addressing commands (45_rom_commands.md): SKIP_ROM, READ_ROM, MATCH_ROM. -/

namespace Sys2Proof.Machine

/-- `crc <- CRC_INIT`, `bytecnt` from 0 (R153). -/
def startReadRom (e : Engine) : Engine :=
  { e with tr := { e.tr with crc := crcInit, bytecnt := 0 } }

/-- After a byte of `read_rom`: stored in `buf`, folded into `crc` (R92, R153). -/
def takeByte (e : Engine) : Engine :=
  { e with tr := { e.tr with
      buf := e.tr.buf.setIfInBounds e.tr.bytecnt e.tr.shift
      crc := crc8Fold e.tr.crc e.tr.shift
      bytecnt := e.tr.bytecnt + 1 } }

/-- `n` more bytes of `read_rom` (R153): all eight are always read. -/
def readRomBytes (c : Config) : Nat → Engine → Engine
  | 0, e => e
  | n + 1, e => readRomBytes c n (takeByte (readByteSlots c (gap c e)))

/-- `bytecnt` from 0 (R156). -/
def startMatch (e : Engine) : Engine := { e with tr := { e.tr with bytecnt := 0 } }

/-- After a code byte of `match_rom` (R156). -/
def countByte (e : Engine) : Engine := { e with tr := { e.tr with bytecnt := e.tr.bytecnt + 1 } }

/-- `n` more code bytes of `match_rom`, `code[0]` first (R51, R156). -/
def sendCode (c : Config) (code : RomCode) : Nat → Engine → Engine
  | 0, e => e
  | n + 1, e => sendCode c code n (countByte (sendByteSlots c (code.getD e.tr.bytecnt 0) (gap c e)))

/-- The end of `read_rom` (R153, R154): `rdata` is written in both outcomes, the CRC tested once, after the last byte. -/
def finishReadRom (s : State) : State :=
  endOperation (if s.eng.tr.crc = 0x00 then .ok else .invalidCrc)
    { s with regs := { s.regs with rdata := pack s.eng.tr.buf } }

/-- `skip_rom()` (R150, R151). -/
def execSkipRom (s : State) : Host.Outcome State Fault Refusal :=
  perform s (gated .notInitialized · fun s => afterReset .noResponse s fun e =>
    endOperation .ok { s with eng := sendByteSlots s.cfg wireSkipRom e })

/-- `read_rom()` (R150, R153, R154). -/
def execReadRom (s : State) : Host.Outcome State Fault Refusal :=
  perform s (gated .notInitialized · fun s => afterReset .noResponse s fun e =>
    finishReadRom { s with
      eng := readRomBytes s.cfg 8 (startReadRom (sendByteSlots s.cfg wireReadRom e)) })

/-- `match_rom(code)` (R150, R156): the code is sent as it is, unchecked (R157). -/
def execMatchRom (code : RomCode) (s : State) : Host.Outcome State Fault Refusal :=
  perform s (gated .notInitialized · fun s => afterReset .noResponse s fun e =>
    endOperation .ok { s with
      eng := sendCode s.cfg code 8 (startMatch (sendByteSlots s.cfg wireMatchRom e)) })

end Sys2Proof.Machine
end

