-- ==== Sys2Proof/Machine/Search.lean ====
section
/-! DEFINITION. The ROM search engine (46_rom_search.md): SEARCH_INIT, SEARCH_NEXT. -/

namespace Sys2Proof.Machine

/-- What a position's pair decides (R173 to R175): the bit to send back and the new fork point, or nothing for the pair
(1,1), which aborts the search. `fork` is the cursor's fork point as it was when the pass began. -/
def decideBit (fork : Fin 66) (pos : Nat) (prev b nb : Bool) (newFork : Fin 66) : Option (Bool × Fin 66) :=
  match b, nb with
  | false, false =>
    if pos < fork.val then some (prev, if prev then newFork else Fin.ofNat 66 pos)
    else if pos = fork.val then some (true, newFork)
    else some (false, Fin.ofNat 66 pos)
  | true, false => some (true, newFork)
  | false, true => some (false, newFork)
  | true, true => none

/-- `new_fork <- 0` (R172). -/
def startPass (e : Engine) : Engine := { e with tr := { e.tr with newFork := 0 } }

/-- Begin position `pos`: `prev` is the branch taken there in the previous pass (R55, R172, R176). -/
def startPosition (rom : RomCode) (pos : Nat) (e : Engine) : Engine :=
  { e with tr := { e.tr with pos := pos, prev := romBit rom pos } }

/-- `b` is the value of the first read slot (R77). -/
def takeTrue (e : Engine) : Engine := { e with tr := { e.tr with b := e.tr.v } }

/-- `nb` is the value of the second read slot (R77). -/
def takeComp (e : Engine) : Engine := { e with tr := { e.tr with nb := e.tr.v } }

/-- The decision at the present position, from the registers (R173 to R175). -/
def decidePosition (fork : Fin 66) (e : Engine) : Option (Bool × Fin 66) :=
  decideBit fork e.tr.pos e.tr.prev e.tr.b e.tr.nb e.tr.newFork

/-- The decision enters the registers. -/
def takeDecision (d : Bool × Fin 66) (e : Engine) : Engine :=
  { e with tr := { e.tr with chosen := d.1, newFork := d.2 } }

/-- `new_rom[i][k] <- chosen` (R176). -/
def storeChosen (e : Engine) : Engine :=
  { e with tr := { e.tr with newRom := setRomBit e.tr.newRom e.tr.pos e.tr.chosen } }

/-- The two read slots of position `pos` (R172). -/
def readPair (c : Config) (rom : RomCode) (pos : Nat) (e : Engine) : Engine :=
  takeComp (readSlot c (gap c (takeTrue (readSlot c (gap c (startPosition rom pos e))))))

/-- The write slot of a position, the bit sent being the bit stored (R172, R176). -/
def answerPosition (c : Config) (d : Bool × Fin 66) (e : Engine) : Engine :=
  storeChosen (writeSlot c d.1 (gap c (takeDecision d e)))

/-- The last `n` of the 64 positions, in ascending order (R172). True when all are done, false when a pair (1,1)
aborted the pass (R175). -/
def searchLoop (c : Config) (rom : RomCode) (fork : Fin 66) : Nat → Engine → Engine × Bool
  | 0, e => (e, true)
  | n + 1, e =>
    let e := readPair c rom (64 - n) e
    match decidePosition fork e with
    | none => (e, false)
    | some d => searchLoop c rom fork n (answerPosition c d e)

/-- The commit: `rom` and `fork_bit` together, `status <- OK`, `rdata <- pack(rom)` (R58, R177). -/
def commitPass (s : State) : State :=
  endOperation .ok { s with regs := { s.regs with
    rom := s.eng.tr.newRom
    forkBit := s.eng.tr.newFork
    rdata := pack s.eng.tr.newRom } }

/-- `search_init()` (R170): the cursor armed, no event, no time. -/
def execSearchInit (s : State) : Host.Outcome State Fault Refusal :=
  perform s (gated .notInitialized · fun s =>
    endOperation .ok { s with regs := { s.regs with rom := zeroRom, forkBit := forkStart } })

/-- The whole pass, after a successful reset (R172 to R178). -/
def searchPass (s : State) (e : Engine) : State :=
  match searchLoop s.cfg s.regs.rom s.regs.forkBit 64
      (startPass (sendByteSlots s.cfg wireSearchRom e)) with
  | (e, true) => commitPass { s with eng := e }
  | (e, false) => endOperation .noneReturned { s with eng := e }

/-- `search_next()` (R171 to R178): an uninitialised block reports `NONE` (R104, C3). -/
def execSearchNext (s : State) : Host.Outcome State Fault Refusal :=
  perform s (gated .noneReturned · fun s =>
    if s.regs.forkBit = 0 then endOperation .noneReturned s
    else afterReset .noneReturned s (searchPass s))

end Sys2Proof.Machine
end

