-- ==== Sys2Proof/Machine/Dispatch.lean ====
section
/-! DEFINITION. The dispatch: one arm per constructor of Instr. -/

namespace Sys2Proof.Machine

def exec (i : Instr) (s : State) : Host.Outcome State Fault Refusal :=
  match i with
  -- host commands (R66)
  | .init lineId => Sys2Proof.Machine.execInit lineId s
  | .reset => Sys2Proof.Machine.execReset s
  | .sendByte byte => Sys2Proof.Machine.execSendByte byte s
  | .readByte => Sys2Proof.Machine.execReadByte s
  | .skipRom => Sys2Proof.Machine.execSkipRom s
  | .readRom => Sys2Proof.Machine.execReadRom s
  | .matchRom code => Sys2Proof.Machine.execMatchRom code s
  | .searchInit => Sys2Proof.Machine.execSearchInit s
  | .searchNext => Sys2Proof.Machine.execSearchNext s
  -- illegal opcodes (R68)
  | .illegal9 => Sys2Proof.Machine.execIllegal9 s
  | .illegalA => Sys2Proof.Machine.execIllegalA s
  | .illegalB => Sys2Proof.Machine.execIllegalB s
  | .illegalC => Sys2Proof.Machine.execIllegalC s
  | .illegalD => Sys2Proof.Machine.execIllegalD s
  | .illegalE => Sys2Proof.Machine.execIllegalE s
  | .illegalF => Sys2Proof.Machine.execIllegalF s
  -- wire command bytes (R73)
  | .cmdSkipRom => Sys2Proof.Machine.execCmdSkipRom s
  | .cmdReadRom => Sys2Proof.Machine.execCmdReadRom s
  | .cmdMatchRom => Sys2Proof.Machine.execCmdMatchRom s
  | .cmdSearchRom => Sys2Proof.Machine.execCmdSearchRom s
  -- internal primitives (R69)
  | .writeBit0 => Sys2Proof.Machine.execWriteBit0 s
  | .writeBit1 => Sys2Proof.Machine.execWriteBit1 s
  | .readBit => Sys2Proof.Machine.execReadBit s

end Sys2Proof.Machine
end

