-- ==== Sys2Proof/Machine/Fetch.lean ====
section
/-! DEFINITION. What a step has to do: which command is accepted (R31, R237), the power-on reset (R230), and how a word
of the opcode table is presented to the machine. The block fetches no instructions (R64): a command is what the host
presents. -/

namespace Sys2Proof.Machine

/-- The work of one step. -/
inductive Work where
  /-- Run an instruction to completion from this state. -/
  | run (i : Instr) (s : State)
  /-- Accept a command and begin it; the steps after this one take its events. -/
  | start (i : Instr) (s : State)
  /-- Let the sequencer take its next step. -/
  | advance (s : State)
  /-- Nothing more: this is the next state. -/
  | stay (s : State)
  /-- No meaning. -/
  | refuse (r : Refusal)
  deriving DecidableEq, Repr

/-- Acceptance: `cmd_op` and `cmd_arg` are copied into `op_reg` and `arg_reg` (R31, R64). No `Delay` is running, so
`timer` is 0: no operation reads what a transient held before it (R36). -/
def accept (w : CmdWord) (s : State) : State :=
  { s with eng := { s.eng with tr := { s.eng.tr with opReg := hostOp w, argReg := hostArg w, timer := 0 } } }

/-- The power-on reset at any time (R230): every register at its value of R48, an operation in progress abandoned where
it stands, no event, no `status` for it. The parameters, the clock, the environment and the host's further inputs are
none of the block's registers; the trace begins anew. Log 15. -/
def powerOnReset (s : State) : State :=
  { State.reset with
    cfg := s.cfg
    eng := { Engine.reset with
      now := s.eng.now, wire := s.eng.wire, samples := s.eng.samples, stalls := s.eng.stalls, delays := s.eng.delays }
    host := s.host
    inner := s.inner }

/-- The work of a step that does what the host's next input says (R31, R33, R225, R237). While the block is busy a
command presented is not accepted and has no effect of any kind. -/
def hostWork (s : State) : Work :=
  match s.host, s.seq with
  | .rst :: rest, _ => .stay (powerOnReset { s with host := rest })
  | .command w :: rest, .idle => .run (decodeHost w) (accept w { s with host := rest })
  | .start w :: rest, .idle => .start (decodeHost w) (accept w { s with host := rest })
  | .wait :: rest, .idle => .stay { s with host := rest }
  | [], .idle => .stay s
  | .command _ :: rest, .busy _ _ => .stay { s with host := rest }
  | .start _ :: rest, .busy _ _ => .stay { s with host := rest }
  | .wait :: rest, .busy _ _ => .advance { s with host := rest }
  | [], .busy _ _ => .advance s

/-- The work of one step. `rsp_valid` is a pulse of one step (R32). An inner call that has been placed runs when the
sequencer is idle (log 9). -/
def fetch (s : State) : Work :=
  let s := { s with rspValid := false }
  match s.inner, s.seq with
  | some tw, .idle =>
    match decode tw with
    | .ok i => .run i { s with inner := none }
    | .error (.notACommandByte b) => .refuse (.notACommandByte b)
  | some _, .busy _ _ => hostWork s
  | none, _ => hostWork s

/-- A word of the opcode table presented to the machine: a host command is the host's next input, a wire command byte
or a bit primitive an inner call; either way the sequencer is idle. -/
def presentWord (tw : TableWord) (s : State) : State :=
  match tw with
  | .host w => { s with seq := .idle, inner := none, host := .command w :: s.host }
  | .wire _ => { s with seq := .idle, inner := some tw }
  | .writeBit _ => { s with seq := .idle, inner := some tw }
  | .readBit => { s with seq := .idle, inner := some tw }

end Sys2Proof.Machine
end

