-- ==== Sys2Proof/Machine/Sequencer.lean ====
section
/-! DEFINITION. The sequencer event by event (R20, R33): "each event of the operation's rule advances the phase in the
order the rule's pseudocode gives". A `Delay(n)` loads `timer` and takes `n` ticks (R218). What an operation does as a
whole is its meaning (`exec…`); that the two agree is a statement. -/

namespace Sys2Proof.Machine

/-! ## One event of a primitive -/

/-- The event at a point of a write slot, and the point after it; nothing when the slot is over (R130, R131). -/
def writePoint (c : Config) (bit : Bool) : WritePoint → Engine → Engine × Option WritePoint
  | .critEnter, e => (critEnter c e, some .driveLow)
  | .driveLow, e => (driveLow e, some .lowDelay)
  | .lowDelay, e => (startDelay c (writeLowTime c bit) e, some .release)
  | .release, e => (release e, some .tailDelay)
  | .tailDelay, e => (startDelay c (writeTailTime c bit) e, some .critExit)
  | .critExit, e => (critExit c e, none)

/-- The event at a point of a read slot, and the point after it; nothing when the slot is over (R132). -/
def readPoint (c : Config) : ReadPoint → Engine → Engine × Option ReadPoint
  | .critEnter, e => (critEnter c e, some .driveLow)
  | .driveLow, e => (driveLow e, some .lowDelay)
  | .lowDelay, e => (startDelay c c.tLow1 e, some .release)
  | .release, e => (release e, some .settleDelay)
  | .settleDelay, e => (startDelay c (c.tSample - c.tLow1) e, some .sample)
  | .sample, e => (sample e, some .tailDelay)
  | .tailDelay, e => (startDelay c (c.tSlot - c.tSample) e, some .critExit)
  | .critExit, e => (critExit c e, none)

/-- The event at a point of the bus reset, and the point after it, or the result when it is over (R110 to R116). -/
def resetPoint (c : Config) : ResetPoint → Engine → Engine × Except ResetResult ResetPoint
  | .critEnter, e => (critEnter c e, .ok .idleSample)
  | .idleSample, e => let e := sample e; (e, .ok (if e.tr.v then .driveLow else .critExit .busBusy))
  | .driveLow, e => (driveLow e, .ok .lowDelay)
  | .lowDelay, e => (startDelay c c.tRstl e, .ok .release)
  | .release, e => (release e, .ok .recDelay)
  | .recDelay, e => (startRise (startDelay c c.tRec e), .ok .riseSample)
  | .riseSample, e =>
    let e := sample e
    if e.tr.v then (startFall e, .ok .fallSample)
    else (e, .ok (if c.tRiseMax ≤ e.tr.rise then .critExit .timeout else .riseDelay))
  | .riseDelay, e =>
    let e := startDelay c c.tPoll e
    ({ e with tr := { e.tr with rise := e.tr.rise + 1 } }, .ok .riseSample)
  | .fallSample, e =>
    let e := sample e
    (e, .ok (if e.tr.v then (if c.tPresMax ≤ e.tr.fall then .critExit .timeout else .fallDelay) else .remainder))
  | .fallDelay, e =>
    let e := startDelay c c.tPoll e
    ({ e with tr := { e.tr with fall := e.tr.fall + 1 } }, .ok .fallSample)
  | .remainder, e => (startDelay c (c.tRsth - e.tr.rise - e.tr.fall) e, .ok (.critExit .ok))
  | .critExit r, e => (critExit c e, .error r)

/-! ## Between primitives -/

/-- The operation goes on at a phase. -/
def goOn (op : HostOp) (phase : Phase) (s : State) : State := { s with seq := .busy op phase }

/-- The operation goes on with a further primitive, the gap having passed (R136). -/
def nextPrimitive (op : HostOp) (phase : Phase) (s : State) : Host.Outcome State Fault Refusal :=
  .next (goOn op phase { s with eng := gap s.cfg s.eng })

/-- After the bus reset: `reset` reports it, a ROM command and the search go on or fail (R117, R120, R150, R171). -/
def afterResetResult (op : HostOp) (r : ResetResult) (s : State) : Host.Outcome State Fault Refusal :=
  match op with
  | .reset => .next (endOperation r.status s)
  | .skipRom => romCommand wireSkipRom .noResponse
  | .readRom => romCommand wireReadRom .noResponse
  | .matchRom => romCommand wireMatchRom .noResponse
  | .searchNext => romCommand wireSearchRom .noneReturned
  | .init => .fault .strayPhase
  | .sendByte => .fault .strayPhase
  | .readByte => .fault .strayPhase
  | .searchInit => .fault .strayPhase
where
  /-- The command byte on success, the caller's outcome on failure. -/
  romCommand (byte : Byte) (failed : Status) : Host.Outcome State Fault Refusal :=
    match r with
    | .ok => nextPrimitive op (.command .critEnter) { s with eng := loadShift byte s.eng }
    | .busBusy => .next (endOperation failed s)
    | .timeout => .next (endOperation failed s)

/-- After the last bit of the byte of `send_byte`, or of a command byte (R140, R151, R153, R156, R172). -/
def afterCommandByte (op : HostOp) (s : State) : Host.Outcome State Fault Refusal :=
  match op with
  | .sendByte => .next (endOperation .ok s)
  | .skipRom => .next (endOperation .ok s)
  | .readRom => nextPrimitive op (.receive .critEnter) { s with eng := loadShift 0 (startReadRom s.eng) }
  | .matchRom =>
    nextPrimitive op (.payload .critEnter)
      { s with eng := loadShift ((unpack s.eng.tr.argReg).getD 0 0) (startMatch s.eng) }
  | .searchNext =>
    nextPrimitive op (.pairTrue .critEnter) { s with eng := startPosition s.regs.rom 1 (startPass s.eng) }
  | .init => .fault .strayPhase
  | .reset => .fault .strayPhase
  | .readByte => .fault .strayPhase
  | .searchInit => .fault .strayPhase

/-- After a write slot of such a byte. -/
def afterCommandBit (op : HostOp) (s : State) : Host.Outcome State Fault Refusal :=
  let s := { s with eng := shiftOut s.eng }
  if s.eng.tr.bitcnt < 8 then nextPrimitive op (.command .critEnter) s else afterCommandByte op s

/-- After a write slot of a code byte of `match_rom` (R156). -/
def afterPayloadBit (op : HostOp) (s : State) : Host.Outcome State Fault Refusal :=
  let s := { s with eng := shiftOut s.eng }
  if s.eng.tr.bitcnt < 8 then nextPrimitive op (.payload .critEnter) s
  else
    let s := { s with eng := countByte s.eng }
    if s.eng.tr.bytecnt < 8 then
      nextPrimitive op (.payload .critEnter)
        { s with eng := loadShift ((unpack s.eng.tr.argReg).getD s.eng.tr.bytecnt 0) s.eng }
    else .next (endOperation .ok s)

/-- After a byte has been read: `read_byte` returns it, `read_rom` takes it (R141, R153). -/
def afterReceivedByte (op : HostOp) (s : State) : Host.Outcome State Fault Refusal :=
  match op with
  | .readByte =>
    .next (endOperation .ok { s with regs := { s.regs with rdata := s.eng.tr.shift.setWidth 64 } })
  | .readRom =>
    let s := { s with eng := takeByte s.eng }
    if s.eng.tr.bytecnt < 8 then nextPrimitive op (.receive .critEnter) { s with eng := loadShift 0 s.eng }
    else .next (finishReadRom s)
  | .init => .fault .strayPhase
  | .reset => .fault .strayPhase
  | .sendByte => .fault .strayPhase
  | .skipRom => .fault .strayPhase
  | .matchRom => .fault .strayPhase
  | .searchInit => .fault .strayPhase
  | .searchNext => .fault .strayPhase

/-- After a read slot of a byte. -/
def afterReceivedBit (op : HostOp) (s : State) : Host.Outcome State Fault Refusal :=
  let s := { s with eng := shiftIn s.eng }
  if s.eng.tr.bitcnt < 8 then nextPrimitive op (.receive .critEnter) s else afterReceivedByte op s

/-- After the second read slot of a search position: the decision, which takes no time (R173 to R175, R184). -/
def afterPair (op : HostOp) (s : State) : Host.Outcome State Fault Refusal :=
  let s := { s with eng := takeComp s.eng }
  match decidePosition s.regs.forkBit s.eng with
  | none => .next (endOperation .noneReturned s)
  | some d => nextPrimitive op (.answer .critEnter) { s with eng := takeDecision d s.eng }

/-- After the write slot of a search position: the next position, or the commit (R176, R177). -/
def afterAnswer (op : HostOp) (s : State) : Host.Outcome State Fault Refusal :=
  let s := { s with eng := storeChosen s.eng }
  if s.eng.tr.pos < 64 then
    nextPrimitive op (.pairTrue .critEnter)
      { s with eng := startPosition s.regs.rom (s.eng.tr.pos + 1) s.eng }
  else .next (commitPass s)

/-! ## One step of the sequencer -/

/-- Which phases the rule of an operation has (R84). -/
def hasPhase : HostOp → Phase → Bool
  | .init, .configure => true
  | .reset, .reset _ => true
  | .sendByte, .command _ => true
  | .readByte, .receive _ => true
  | .skipRom, .reset _ => true
  | .skipRom, .command _ => true
  | .readRom, .reset _ => true
  | .readRom, .command _ => true
  | .readRom, .receive _ => true
  | .matchRom, .reset _ => true
  | .matchRom, .command _ => true
  | .matchRom, .payload _ => true
  | .searchNext, .reset _ => true
  | .searchNext, .command _ => true
  | .searchNext, .pairTrue _ => true
  | .searchNext, .pairComp _ => true
  | .searchNext, .answer _ => true
  | _, _ => false

/-- A write slot's event within a phase: the phase goes on, or `andThen` takes it from there. -/
def writeEvent (op : HostOp) (bit : Bool) (p : WritePoint) (wrap : WritePoint → Phase)
    (andThen : HostOp → State → Host.Outcome State Fault Refusal) (s : State) : Host.Outcome State Fault Refusal :=
  match writePoint s.cfg bit p s.eng with
  | (e, some p') => .next (goOn op (wrap p') { s with eng := e })
  | (e, none) => andThen op { s with eng := e }

/-- A read slot's event within a phase: the phase goes on, or `andThen` takes it from there. -/
def readEvent (op : HostOp) (p : ReadPoint) (wrap : ReadPoint → Phase)
    (andThen : HostOp → State → Host.Outcome State Fault Refusal) (s : State) : Host.Outcome State Fault Refusal :=
  match readPoint s.cfg p s.eng with
  | (e, some p') => .next (goOn op (wrap p') { s with eng := e })
  | (e, none) => andThen op { s with eng := e }

/-- After the first read slot of a search position (R172). -/
def afterTrue (op : HostOp) (s : State) : Host.Outcome State Fault Refusal :=
  nextPrimitive op (.pairComp .critEnter) { s with eng := takeTrue s.eng }

/-- The event of a phase (R33). -/
def phaseEvent (op : HostOp) (phase : Phase) (s : State) : Host.Outcome State Fault Refusal :=
  match phase with
  | .configure => .next (configureLine s.eng.tr.argReg s)
  | .reset p =>
    match resetPoint s.cfg p s.eng with
    | (e, .ok p') => .next (goOn op (.reset p') { s with eng := e })
    | (e, .error r) => afterResetResult op r { s with eng := e }
  | .command p => writeEvent op (s.eng.tr.shift.getLsbD 0) p .command afterCommandBit s
  | .payload p => writeEvent op (s.eng.tr.shift.getLsbD 0) p .payload afterPayloadBit s
  | .receive p => readEvent op p .receive afterReceivedBit s
  | .pairTrue p => readEvent op p .pairTrue afterTrue s
  | .pairComp p => readEvent op p .pairComp afterPair s
  | .answer p => writeEvent op s.eng.tr.chosen p .answer afterAnswer s

/-- One step of the sequencer: a tick of a running `Delay` (R218), else the event of the phase; in `IDLE` nothing
happens (R33). -/
def sequencerStep (s : State) : Host.Outcome State Fault Refusal :=
  match s.seq with
  | .idle => .next s
  | .busy op phase =>
    if !s.cfg.wf then .refused .badConfiguration
    else if !hasPhase op phase then .fault .strayPhase
    else if 0 < s.eng.tr.timer then .next { s with eng := tick s.eng }
    else phaseEvent op phase s

/-- The state in which an accepted command begins its first phase (R33), or nothing if it has no event at all and
completes at once: a gate that is closed, a guard of `search_next`, `search_init`, an illegal opcode (R68, R85, R104,
R170, R171). A row without a host opcode is never accepted from the host (R69). -/
def firstPhase (i : Instr) (s : State) : Option State :=
  match i with
  | .init _ => some (goOn .init .configure s)
  | .reset => opened .reset (.reset .critEnter)
  | .sendByte byte =>
    if s.regs.initialized then
      some (goOn .sendByte (.command .critEnter) { s with eng := loadShift byte s.eng })
    else none
  | .readByte =>
    if s.regs.initialized then
      some (goOn .readByte (.receive .critEnter) { s with eng := loadShift 0 s.eng })
    else none
  | .skipRom => opened .skipRom (.reset .critEnter)
  | .readRom => opened .readRom (.reset .critEnter)
  | .matchRom _ => opened .matchRom (.reset .critEnter)
  | .searchInit => none
  | .searchNext =>
    if s.regs.forkBit = 0 then none else opened .searchNext (.reset .critEnter)
  | .illegal9 => none
  | .illegalA => none
  | .illegalB => none
  | .illegalC => none
  | .illegalD => none
  | .illegalE => none
  | .illegalF => none
  | .cmdSkipRom => none
  | .cmdReadRom => none
  | .cmdMatchRom => none
  | .cmdSearchRom => none
  | .writeBit0 => none
  | .writeBit1 => none
  | .readBit => none
where
  /-- Past the gate (R104). -/
  opened (op : HostOp) (phase : Phase) : Option State :=
    if s.regs.initialized then some (goOn op phase s) else none

end Sys2Proof.Machine
end

