-- ==== Sys2Proof/Machine/Step.lean ====
section
/-! DEFINITION. One step of the machine, and how a word of the opcode table is placed where the next step takes it. -/

namespace Sys2Proof.Machine

/-- Begin an accepted command: its first phase, or, if it has no event, its completion at once (R33, R85). -/
def startCommand (i : Instr) (s : State) : Host.Outcome State Fault Refusal :=
  match firstPhase i s with
  | some s' => perform s' id
  | none => exec i s

/-- One step of the machine (R20, R31, R33). -/
def step (s : State) : Host.Outcome State Fault Refusal :=
  match fetch s with
  | .run i s' => exec i s'
  | .start i s' => startCommand i s'
  | .advance s' => sequencerStep s'
  | .stay s' => .next s'
  | .refuse r => .refused r

/-- The state with a word of the opcode table placed where the next step takes its instruction. Log 8. -/
def State.withFetchWord (s : State) (nbits w : Nat) : State :=
  match tableWord nbits w with
  | some tw => presentWord tw s
  | none => s

end Sys2Proof.Machine
end

