-- ==== Sys2Proof/Safety.lean ====
section
/-! DEFINITION. What counts as a safe state: the invariants the spec states (R13, R29, R35, R36, R44, R61, R63, R177,
R213), for idle states and, so that every step keeps them, for the states inside an operation. -/

namespace Sys2Proof.Machine

/-! ## The discipline of the line (R13, R35, R63, R135, R213) -/

/-- What an event does to the pair `drv`, `crit`, and nothing where the rules have no such event: a sample only while
the line is released, a release only of a driven line, no nested regions, and, with `HAS_CRITICAL = 1`, every line event
inside a region. -/
def pinsStep (hasCritical : Bool) (pins : Drive × Bool) (ev : Event) : Option (Drive × Bool) :=
  match ev, pins with
  | .configure _ _, (.released, false) => some pins
  | .critEnter, (.released, false) => if hasCritical then some (.released, true) else none
  | .critExit, (.released, true) => some (.released, false)
  | .driveLow, (.released, cr) => if cr = hasCritical then some (.low, cr) else none
  | .release, (.low, cr) => if cr = hasCritical then some (.released, cr) else none
  | .sample _, (.released, cr) => if cr = hasCritical then some pins else none
  | .delay _, (_, cr) => if cr = hasCritical then some pins else none
  | _, _ => none

/-- `drv` and `crit` after a recorded trace (latest event first), from the power-on values, if every event was allowed. -/
def pinsAfter (hasCritical : Bool) : List (Nat × Event) → Option (Drive × Bool)
  | [] => some (.released, false)
  | (_, ev) :: earlier =>
    match pinsAfter hasCritical earlier with
    | some pins => pinsStep hasCritical pins ev
    | none => none

/-- The events R44 speaks of: `DriveLow`, `Release`, `Sample`, `Delay`. -/
def Event.touchesLine : Event → Bool
  | .driveLow => true
  | .release => true
  | .sample _ => true
  | .delay _ => true
  | .configure _ _ => false
  | .critEnter => false
  | .critExit => false

/-! ## Inside an operation -/

/-- Is the line driven low just before the event at this point of a write slot? -/
def WritePoint.driven : WritePoint → Bool
  | .lowDelay => true
  | .release => true
  | .critEnter => false
  | .driveLow => false
  | .tailDelay => false
  | .critExit => false

/-- Is the line driven low just before the event at this point of a read slot? -/
def ReadPoint.driven : ReadPoint → Bool
  | .lowDelay => true
  | .release => true
  | .critEnter => false
  | .driveLow => false
  | .settleDelay => false
  | .sample => false
  | .tailDelay => false
  | .critExit => false

/-- Is the line driven low just before the event at this point of the bus reset? -/
def ResetPoint.driven : ResetPoint → Bool
  | .lowDelay => true
  | .release => true
  | .critEnter => false
  | .idleSample => false
  | .driveLow => false
  | .recDelay => false
  | .riseSample => false
  | .riseDelay => false
  | .fallSample => false
  | .fallDelay => false
  | .remainder => false
  | .critExit _ => false

/-- Is the line driven low just before the event of this phase? -/
def Phase.driven : Phase → Bool
  | .configure => false
  | .reset p => p.driven
  | .command p => p.driven
  | .payload p => p.driven
  | .receive p => p.driven
  | .pairTrue p => p.driven
  | .pairComp p => p.driven
  | .answer p => p.driven

/-- Is the event of this phase inside a critical region, the entering event itself not counted? -/
def Phase.inRegion : Phase → Bool
  | .configure => false
  | .reset .critEnter => false
  | .command .critEnter => false
  | .payload .critEnter => false
  | .receive .critEnter => false
  | .pairTrue .critEnter => false
  | .pairComp .critEnter => false
  | .answer .critEnter => false
  | .reset _ => true
  | .command _ => true
  | .payload _ => true
  | .receive _ => true
  | .pairTrue _ => true
  | .pairComp _ => true
  | .answer _ => true

/-- The loop counters of R36 within their ranges, and the search's partial results as R173 and R177 have them, at a
phase. -/
def Phase.countersOk (op : HostOp) (s : State) : Phase → Prop
  | .configure => True
  | .reset p =>
    match p with
    | .riseSample => s.eng.tr.rise ≤ s.cfg.tRiseMax
    | .riseDelay => s.eng.tr.rise < s.cfg.tRiseMax
    | .fallSample => s.eng.tr.rise ≤ s.cfg.tRiseMax ∧ s.eng.tr.fall ≤ s.cfg.tPresMax
    | .fallDelay => s.eng.tr.rise ≤ s.cfg.tRiseMax ∧ s.eng.tr.fall < s.cfg.tPresMax
    | .remainder => s.eng.tr.rise ≤ s.cfg.tRiseMax ∧ s.eng.tr.fall ≤ s.cfg.tPresMax
    | _ => True
  | .command _ => s.eng.tr.bitcnt < 8
  | .payload _ => s.eng.tr.bitcnt < 8 ∧ s.eng.tr.bytecnt < 8
  | .receive _ => s.eng.tr.bitcnt < 8 ∧ (op = .readRom → s.eng.tr.bytecnt < 8)
  | .pairTrue _ => searchOk
  | .pairComp _ => searchOk
  | .answer _ =>
    1 ≤ s.eng.tr.pos ∧ s.eng.tr.pos ≤ 64 ∧ s.eng.tr.newFork.val ≤ s.eng.tr.pos ∧
      (s.eng.tr.newFork.val = s.eng.tr.pos → s.eng.tr.chosen = false) ∧
      (1 ≤ s.eng.tr.newFork.val → s.eng.tr.newFork.val < s.eng.tr.pos →
        romBit s.eng.tr.newRom s.eng.tr.newFork.val = false)
where
  /-- Before the decision at a position: the fork point recorded so far is an earlier position where 0 was chosen. -/
  searchOk : Prop :=
    1 ≤ s.eng.tr.pos ∧ s.eng.tr.pos ≤ 64 ∧ s.eng.tr.newFork.val < s.eng.tr.pos ∧
      (1 ≤ s.eng.tr.newFork.val → romBit s.eng.tr.newRom s.eng.tr.newFork.val = false)

/-- What holds in a state with `seq = BUSY(op, phase)`. -/
structure BusyInv (op : HostOp) (phase : Phase) (s : State) : Prop where
  /-- The phase is one of the operation's own (R84). -/
  own : hasPhase op phase = true
  /-- Every operation but `init` has passed the gate (R104). -/
  gateOpen : op ≠ .init → s.regs.initialized = true
  /-- A search pass begins with a fork point (R171). -/
  armed : op = .searchNext → s.regs.forkBit ≠ 0
  /-- No completion is being signalled (R32). -/
  noPulse : s.rspValid = false
  /-- `drv` is what the phase says. -/
  drive : s.eng.drv = if phase.driven then .low else .released
  /-- `line_oe` is 1 exactly while the phase drives the line (R35). -/
  outputEnable : s.lineOe = phase.driven
  /-- `crit` is 1 exactly inside a region, and never with `HAS_CRITICAL = 0` (R8, R35). -/
  region : s.eng.crit = (s.cfg.hasCritical && phase.inRegion)
  /-- A delay runs only inside a primitive. -/
  timed : phase.inRegion = false → s.eng.tr.timer = 0
  /-- The loop counters are in range. -/
  counters : phase.countersOk op s

/-! ## The invariant -/

/-- The invariant of the machine, kept by every step of a run. -/
structure Inv (s : State) : Prop where
  /-- The parameters meet the constraints of R7. -/
  config : s.cfg.wf = true
  /-- No inner call is waiting: no run places one (R69, log 9). -/
  noInner : s.inner = none
  /-- "if `fork_bit = 65` then `rom` is all zero" (R44). -/
  armedRom : s.regs.forkBit = forkStart → s.regs.rom = zeroRom
  /-- "`fork_bit = p > 0` implies `rom` has a 0 at position `p`" (R177). -/
  forkZero : 1 ≤ s.regs.forkBit.val → s.regs.forkBit.val ≤ 64 → romBit s.regs.rom s.regs.forkBit.val = false
  /-- "if `initialized = 0` then `rom` is all zero, `fork_bit = 0`" (R44). -/
  freshCursor : s.regs.initialized = false → s.regs.rom = zeroRom ∧ s.regs.forkBit = 0
  /-- "... and no `DriveLow`, `Release`, `Sample` or `Delay` event has ever been produced since the power-on reset" (R44). -/
  quiet : s.regs.initialized = false → ∀ x ∈ s.eng.log, x.2.touchesLine = false
  /-- An initialised block is on a line the platform accepted, with the pull-up on (R26, R35, R100). -/
  handle : s.regs.initialized = true → lineValid s.cfg s.regs.lineId = true ∧ s.regs.pullUp = true
  /-- `line_id` has `LINE_ID_W` bits (R27). -/
  lineWidth : s.regs.lineId.toNat < 2 ^ s.cfg.lineIdW.val
  /-- The trace keeps the discipline of the line and explains `drv` and `crit` (R13, R35, R63, R213). -/
  pins : pinsAfter s.cfg.hasCritical s.eng.log = some (s.eng.drv, s.eng.crit)
  /-- The trace is in order of time, and nothing in it is later than now (R13, R61). -/
  ordered : (s.eng.now :: s.eng.log.map Prod.fst).Pairwise (fun later earlier => earlier ≤ later)
  /-- "`drv = RELEASED`; `crit = 0`" with `seq = IDLE` (R35, R44). -/
  idlePins : s.seq = .idle → s.eng.drv = .released ∧ s.eng.crit = false
  /-- Inside an operation. -/
  busy : ∀ op phase, s.seq = .busy op phase → BusyInv op phase s

/-- The counters within the widths R36 gives them: `bitcnt` and `bytecnt` 0 to 8, `pos` at most 64, `new_fork` at most
64, `rise` at most 60, `fall` at most 240, `timer` at most 480. -/
def CountersInRange (s : State) : Prop :=
  s.eng.tr.bitcnt ≤ 8 ∧ s.eng.tr.bytecnt ≤ 8 ∧ s.eng.tr.pos ≤ 64 ∧ s.eng.tr.newFork.val ≤ 64 ∧
    s.eng.tr.rise ≤ 60 ∧ s.eng.tr.fall ≤ 240 ∧ s.eng.tr.timer ≤ 480

end Sys2Proof.Machine
end

