-- ==== Sys2Proof/Certificates/Slice0/Terms.lean ====
section
/-! DEFINITION. The terms in which the statements are written, taken from the spec's own tables of waveforms, durations
and search decisions and not from the machine: what the environment answers during a bus reset (R111 to R114), the
waveforms of a slot, a byte and a bus reset (R70, R72, R110, R130 to R132), and the search over given pairs and over
ideal devices (R77, R172 to R180). -/

namespace Sys2Proof.Terms

open Sys2Proof.Machine

/-! ## Where an operation starts and how it ends -/

/-- The line is released and no region is open, as in every idle state of a run (R35, R44), and the parameters meet
the constraints of R7. -/
structure Ready (s : State) : Prop where
  config : s.cfg.wf = true
  released : s.eng.drv = .released
  closed : s.eng.crit = false

/-- Time is kept: every `Delay` of an operation is exact, because the block asks for preemption suppression and the
platform honours it (R13, R222), or because the time base is never late. Otherwise a `Delay` is a lower bound (R239). -/
def OnTime (c : Config) (e : Engine) : Prop :=
  (c.hasCritical = true ∧ c.honoursCrit = true) ∨ ∀ k, e.stall k = 0

/-- A timed trace. -/
abbrev Wave := List (Nat × Event)

/-- How many of the events are delays. -/
def delaysIn (wave : Wave) : Nat :=
  wave.countP fun x => match x.2 with | .delay _ => true | _ => false

/-- What every run of an operation or primitive from `s` to `t` has in common, the registers of R36 that live only
inside one operation aside: the trace is longer by `wave`, the clock by `duration`, `samples` answers and one entry of
the time base's account for each delay are used up, the line is released and the region closed (R213), the latched
command, the parameters and the inputs are untouched. -/
structure Ran (s t : State) (wave : Wave) (duration samples : Nat) : Prop where
  trace : t.trace = s.trace ++ wave
  clock : t.eng.now = s.eng.now + duration
  answers : t.eng.wire = s.eng.wire.drop samples
  sampled : t.eng.samples = s.eng.samples + samples
  stalls : t.eng.stalls = s.eng.stalls.drop (delaysIn wave)
  delays : t.eng.delays = s.eng.delays + delaysIn wave
  released : t.eng.drv = .released
  closed : t.eng.crit = false
  opReg : t.eng.tr.opReg = s.eng.tr.opReg
  argReg : t.eng.tr.argReg = s.eng.tr.argReg
  cfg : t.cfg = s.cfg
  host : t.host = s.host
  inner : t.inner = s.inner

/-- A host operation has ended with these persistent registers: `seq = IDLE`, `rsp_valid` pulses (R33). -/
structure Ended (s t : State) (regs : Regs) (wave : Wave) (duration samples : Nat) : Prop
    extends Ran s t wave duration samples where
  regs : t.regs = regs
  idle : t.seq = .idle
  pulse : t.rspValid = true

/-- A wire command byte or a bit primitive has run: no register of R25 and nothing of the sequencer changes (R84, R134,
R142). -/
structure InnerEnded (s t : State) (wave : Wave) (duration samples : Nat) : Prop
    extends Ran s t wave duration samples where
  regs : t.regs = s.regs
  seq : t.seq = s.seq
  pulse : t.rspValid = s.rspValid

/-! ## What the environment answers during a bus reset -/

/-- A bus with a device, seen from the reset primitive: idle high, low for `rise` rise samples and then high, high for
`fall` presence samples and then low, both within their limits (R111, R113, R114). -/
structure Presence (c : Config) (e : Engine) (rise fall : Nat) : Prop where
  idle : e.answer 0 = true
  low : ∀ k, k < rise → e.answer (1 + k) = false
  rose : e.answer (1 + rise) = true
  riseInWindow : rise ≤ c.tRiseMax
  high : ∀ j, j < fall → e.answer (2 + rise + j) = true
  fell : e.answer (2 + rise + fall) = false
  fallInWindow : fall ≤ c.tPresMax

/-- A line that does not rise after the reset pulse (R113): samples `k = 0` to `T_RISE_MAX` are all 0. -/
structure NoRise (c : Config) (e : Engine) : Prop where
  idle : e.answer 0 = true
  low : ∀ k, k ≤ c.tRiseMax → e.answer (1 + k) = false

/-- A line that rises, with no presence pulse after it (R114): samples `j = 0` to `T_PRES_MAX` are all 1. -/
structure NoPresence (c : Config) (e : Engine) (rise : Nat) : Prop where
  idle : e.answer 0 = true
  low : ∀ k, k < rise → e.answer (1 + k) = false
  rose : e.answer (1 + rise) = true
  riseInWindow : rise ≤ c.tRiseMax
  high : ∀ j, j ≤ c.tPresMax → e.answer (2 + rise + j) = true

/-- The bus reset fails: the line is held low before it, does not rise, or shows no presence pulse (R111, R113, R114). -/
def ResetFails (c : Config) (e : Engine) : Prop :=
  e.answer 0 = false ∨ NoRise c e ∨ ∃ rise, NoPresence c e rise

/-- Samples a successful bus reset takes: one idle, `rise + 1` and `fall + 1` (R111, R113, R114). -/
def resetSamples (rise fall : Nat) : Nat := 3 + rise + fall

/-! ## Bits in the order they travel -/

/-- The bits of a byte, least significant first (R50). -/
def byteBits (b : Byte) : List Bool := (List.range 8).map fun i => b.getLsbD i

/-- The bits of a ROM code by position, 1 to 64 (R51, R55). -/
def codeBits (r : RomCode) : List Bool := (List.range 64).map fun k => romBit r (k + 1)

/-- How many of the bits are 0. -/
def zeros (bits : List Bool) : Nat := bits.count false

/-- The byte whose bit `i` is answer `first + i` (R141). -/
def answeredByte (e : Engine) (first : Nat) : Byte :=
  BitVec.ofNat 8 ((List.range 8).foldr (fun i acc => 2 * acc + (e.answer (first + i)).toNat) 0)

/-- The eight bytes whose bits are the 64 answers from `first` on (R78, R153). -/
def answeredCode (e : Engine) (first : Nat) : RomCode :=
  Vector.ofFn fun i : Fin 8 => answeredByte e (first + 8 * i.val)

/-! ## Waveforms -/

/-- The events of one primitive between `t` and `tEnd`, as one critical region (R63, R116, R133); without
`HAS_CRITICAL` the region's two events are omitted (R8). -/
def region (c : Config) (t tEnd : Nat) (events : Wave) : Wave :=
  if c.hasCritical then (t, .critEnter) :: (events ++ [(tEnd, .critExit)]) else events

/-- `write_bit(0)` at `t` (R130): low for `T_SLOT`, then `T_REC`. -/
def write0Wave (c : Config) (t : Nat) : Wave :=
  region c t (t + c.tSlot + c.tRec)
    [(t, .driveLow), (t, .delay c.tSlot), (t + c.tSlot, .release), (t + c.tSlot, .delay c.tRec)]

/-- `write_bit(1)` at `t` (R131): low for `T_LOW1`, released for the rest of `T_SLOT`. -/
def write1Wave (c : Config) (t : Nat) : Wave :=
  region c t (t + c.tSlot)
    [(t, .driveLow), (t, .delay c.tLow1), (t + c.tLow1, .release), (t + c.tLow1, .delay (c.tSlot - c.tLow1))]

/-- `read_bit() -> v` at `t` (R132): one sample, `T_SAMPLE` after slot start. -/
def readWave (c : Config) (v : Bool) (t : Nat) : Wave :=
  region c t (t + c.tSlot)
    [(t, .driveLow), (t, .delay c.tLow1), (t + c.tLow1, .release), (t + c.tLow1, .delay (c.tSample - c.tLow1)),
     (t + c.tSample, .sample v), (t + c.tSample, .delay (c.tSlot - c.tSample))]

/-- One slot of either direction. -/
inductive Slot where
  /-- Writes this bit. -/
  | write (bit : Bool)
  /-- Reads this bit. -/
  | read (bit : Bool)

/-- How long a slot lasts (R137). -/
def Slot.length (c : Config) : Slot → Nat
  | .write false => c.tSlot + c.tRec
  | .write true => c.tSlot
  | .read _ => c.tSlot

/-- The waveform of a slot that starts at `t`. -/
def Slot.wave (c : Config) (t : Nat) : Slot → Wave
  | .write false => write0Wave c t
  | .write true => write1Wave c t
  | .read v => readWave c v t

/-- Slots one after another from `t` on, `GAP` between them (R136). -/
def slotsWave (c : Config) : List Slot → Nat → Wave
  | [], _ => []
  | x :: rest, t => x.wave c t ++ slotsWave c rest (t + x.length c + c.gap)

/-- How long slots one after another last, the gaps between them included (R136, R137). -/
def slotsLength (c : Config) (slots : List Slot) : Nat :=
  (slots.map fun x => x.length c).sum + (slots.length - 1) * c.gap

/-- `n` polls that all see `v`: a sample and a `Delay(T_POLL)` each (R113, R114). -/
def pollWave (c : Config) (n : Nat) (v : Bool) (t : Nat) : Wave :=
  (List.range n).flatMap fun i => [(t + i * c.tPoll, .sample v), (t + i * c.tPoll, .delay c.tPoll)]

/-- Steps 1 to 3 of the bus reset: the idle sample and the pulse (R111, R112). -/
def pulseWave (c : Config) (t : Nat) : Wave :=
  [(t, .sample true), (t, .driveLow), (t, .delay c.tRstl), (t + c.tRstl, .release), (t + c.tRstl, .delay c.tRec)]

/-- How long a successful bus reset lasts (R115): with the source's values 961, whatever `rise` and `fall` are. -/
def resetLength (c : Config) (rise fall : Nat) : Nat :=
  c.tRstl + c.tRec + (rise + fall) * c.tPoll + (c.tRsth - rise - fall)

/-- A successful bus reset at `t` (R110 to R116). -/
def resetOkWave (c : Config) (rise fall t : Nat) : Wave :=
  let t1 := t + c.tRstl + c.tRec
  let t2 := t1 + rise * c.tPoll
  let t3 := t2 + fall * c.tPoll
  region c t (t + resetLength c rise fall)
    (pulseWave c t ++ pollWave c rise false t1 ++ [(t2, .sample true)] ++ pollWave c fall true t2 ++
      [(t3, .sample false), (t3, .delay (c.tRsth - rise - fall))])

/-- A bus reset that finds the line low (R111): no pulse. -/
def resetBusyWave (c : Config) (t : Nat) : Wave := region c t t [(t, .sample false)]

/-- A bus reset whose line does not rise (R113): `T_RISE_MAX + 1` samples. -/
def resetNoRiseWave (c : Config) (t : Nat) : Wave :=
  let t1 := t + c.tRstl + c.tRec
  let tEnd := t1 + c.tRiseMax * c.tPoll
  region c t tEnd (pulseWave c t ++ pollWave c c.tRiseMax false t1 ++ [(tEnd, .sample false)])

/-- A bus reset with no presence pulse (R114): `T_PRES_MAX + 1` samples of the presence loop. -/
def resetNoPresenceWave (c : Config) (rise t : Nat) : Wave :=
  let t1 := t + c.tRstl + c.tRec
  let t2 := t1 + rise * c.tPoll
  let tEnd := t2 + c.tPresMax * c.tPoll
  region c t tEnd
    (pulseWave c t ++ pollWave c rise false t1 ++ [(t2, .sample true)] ++ pollWave c c.tPresMax true t2 ++
      [(tEnd, .sample true)])

/-! ## The search over given pairs -/

/-- The bit chosen at position `pos` and the fork point recorded after it, as R173 to R175 give them, case by case; no
bit for the pair (1,1). -/
def choice (rom : RomCode) (fork pos newFork : Nat) : Bool × Bool → Option (Bool × Nat)
  | (true, true) => none
  | (true, false) => some (true, newFork)
  | (false, true) => some (false, newFork)
  | (false, false) =>
    if fork < pos then some (false, pos)
    else if pos = fork then some (true, newFork)
    else if romBit rom pos then some (true, newFork) else some (false, pos)

/-- A pass over the pairs of the positions from `pos` on (R172): the bits chosen and the last fork point, or nothing if
a pair (1,1) aborts it. -/
def passOver (rom : RomCode) (fork : Nat) : List (Bool × Bool) → Nat → Nat → Option (List Bool × Nat)
  | [], _, newFork => some ([], newFork)
  | pair :: rest, pos, newFork =>
    match choice rom fork pos newFork pair with
    | none => none
    | some (bit, newFork) =>
      match passOver rom fork rest (pos + 1) newFork with
      | none => none
      | some (bits, last) => some (bit :: bits, last)

/-- The pairs the environment answers in a pass, the first at sample `first` (R77). -/
def answeredPairs (e : Engine) (first : Nat) : List (Bool × Bool) :=
  (List.range 64).map fun i => (e.answer (first + 2 * i), e.answer (first + 2 * i + 1))

/-- The slots of a pass over the pairs of the positions from `pos` on (R172, R175): two read slots and a write slot for
each position, the write slot missing where a pair (1,1) aborts the pass. -/
def passSlots (rom : RomCode) (fork : Nat) : List (Bool × Bool) → Nat → Nat → List Slot
  | [], _, _ => []
  | pair :: rest, pos, newFork =>
    match choice rom fork pos newFork pair with
    | none => [.read pair.1, .read pair.2]
    | some (bit, newFork) =>
      .read pair.1 :: .read pair.2 :: .write bit :: passSlots rom fork rest (pos + 1) newFork

/-- How many of the slots read. -/
def slotReads (slots : List Slot) : Nat :=
  (slots.filter fun x => match x with | .read _ => true | .write _ => false).length

/-! ## Ideal devices on the bus -/

/-- What the devices that still take part put on the wire in the two read slots of position `pos`: each its bit, then
the complement; a 0 from any device wins, and a line nobody drives reads 1 (R77). -/
def devicePair (devices : List RomCode) (pos : Nat) : Bool × Bool :=
  (devices.all fun d => romBit d pos, devices.all fun d => !romBit d pos)

/-- "all devices not matching this bit drop out" (R39). -/
def matching (devices : List RomCode) (pos : Nat) (bit : Bool) : List RomCode :=
  devices.filter fun d => romBit d pos == bit

/-- The pairs that ideal devices give along a pass of the search, `n` positions from `pos` on (R77, R173 to R175). -/
def devicePairs (rom : RomCode) (fork : Nat) : Nat → Nat → Nat → List RomCode → List (Bool × Bool)
  | 0, _, _, _ => []
  | n + 1, pos, newFork, devices =>
    match choice rom fork pos newFork (devicePair devices pos) with
    | none => devicePair devices pos :: devicePairs rom fork n (pos + 1) newFork devices
    | some (bit, newFork) =>
      devicePair devices pos :: devicePairs rom fork n (pos + 1) newFork (matching devices pos bit)

/-- The bus of a pass of `search_next` from `s` is an unchanged bus of these ideal devices: it answers the bus reset with
a presence pulse and each read slot as R77 says, the devices dropping out as R39 says. -/
def AnswersAsDevices (devices : List RomCode) (s : State) : Prop :=
  ∃ rise fall, Presence s.cfg s.eng rise fall ∧
    answeredPairs s.eng (resetSamples rise fall) = devicePairs s.regs.rom s.regs.forkBit.val 64 1 0 devices

/-- The state after `n` calls of `search_next`, one after another; a call that stopped would leave the state as it
was. -/
def afterSearches : Nat → State → State
  | 0, s => s
  | n + 1, s =>
    match exec .searchNext (afterSearches n s) with
    | .next t => t
    | .fault _ => afterSearches n s
    | .refused _ => afterSearches n s

/-- `a` comes before `b` in the order of transmitted bits, 0 before 1: at the first position where they differ `a` has
the 0 (R180). -/
def transmittedBefore (a b : RomCode) : Prop :=
  ∃ p, 1 ≤ p ∧ p ≤ 64 ∧ romBit a p = false ∧ romBit b p = true ∧
    ∀ q, 1 ≤ q → q < p → romBit a q = romBit b q

end Sys2Proof.Terms
end

