-- ==== Sys2Proof/Certificates/Slice0/Obligations.lean ====
section
/-! DEFINITION. The statements for the provers. -/

open Sys2Proof Sys2Proof.Machine Sys2Proof.Terms

/-! ## Reset, fetch and step -/

/-- R48, R230: every register for which the spec gives a reset value has it, and its ports show it (R32, R35, R42). -/
def Obligations.ResetLeavesTheSpecValues : Prop :=
  State.reset.regs.initialized = false ∧ State.reset.regs.rom = zeroRom ∧ State.reset.regs.forkBit = 0 ∧
    State.reset.statusPort = 0 ∧ State.reset.regs.rdata = 0 ∧ State.reset.seq = .idle ∧
    State.reset.eng.drv = .released ∧ State.reset.regs.pullUp = false ∧ State.reset.eng.crit = false ∧
    State.reset.forkBitPort = 0 ∧ State.reset.romPort = 0 ∧ State.reset.lineOe = false ∧ State.reset.busy = false

/-- The power-on reset may land at any time (R230, R225), in the middle of an operation too; the operation is abandoned
where it stands: every register has its value of R48, the line is released and the region closed at once, no further
event is produced, and no `status` of the operation is reported; the block waits in `IDLE`. That the clock, the
environment's answers and the host's further inputs stay is the model's choice (log 15), and so is that the trace begins
anew, which is not stated. -/
def Obligations.PowerOnResetAbandonsTheOperation : Prop :=
  ∀ (s : State) (rest : List HostInput), s.inner = none → s.host = .rst :: rest →
    ∃ t, step s = .next t ∧ t.regs.initialized = false ∧ t.regs.rom = zeroRom ∧ t.regs.forkBit = 0 ∧
      t.statusPort = 0 ∧ t.regs.rdata = 0 ∧ t.regs.pullUp = false ∧ t.seq = .idle ∧ t.eng.drv = .released ∧
      t.eng.crit = false ∧ t.rspValid = false ∧ (∀ x ∈ t.trace, x ∈ s.trace) ∧ t.eng.now = s.eng.now ∧
      t.eng.wire = s.eng.wire ∧ t.host = rest ∧ t.cfg = s.cfg ∧ t.forkBitPort = 0 ∧ t.romPort = 0 ∧
      t.lineOe = false ∧ t.busy = false

/-- R31: a command presented while `cmd_ready = 1` is the instruction its word decodes to; the step runs `exec` of that
instruction, with the command latched, the host's input used up and the pulse of the previous completion gone. -/
def Obligations.StepRunsThePresentedCommand : Prop :=
  ∀ (s : State) (w : CmdWord) (rest : List HostInput),
    s.seq = .idle → s.inner = none → s.host = .command w :: rest →
    ∃ s', step s = exec (decodeHost w) s' ∧ s'.regs = s.regs ∧ s'.cfg = s.cfg ∧ s'.seq = .idle ∧
      s'.host = rest ∧ s'.inner = none ∧ s'.rspValid = false ∧
      s'.eng = { s.eng with tr := { s.eng.tr with opReg := hostOp w, argReg := hostArg w, timer := 0 } }

/-- The model's own port for wire command bytes and bit primitives (R69 gives them no host opcode; log 9): the step runs
`exec` of the instruction the word decodes to. -/
def Obligations.StepRunsAnInnerCall : Prop :=
  ∀ (s : State) (tw : TableWord) (i : Instr), s.seq = .idle → s.inner = some tw → decode tw = .ok i →
    step s = exec i { s with inner := none, rspValid := false }

/-- A command presented while `busy = 1` starts nothing and changes nothing, in either way of presenting it (R237). That
the running operation does not go on in that step, with the clock standing still, is the model's choice (log 7). -/
def Obligations.CommandWhileBusyHasNoEffect : Prop :=
  ∀ (s : State) (op : HostOp) (phase : Phase) (w : CmdWord) (rest : List HostInput), s.seq = .busy op phase →
    (s.host = .command w :: rest ∨ s.host = .start w :: rest) →
    step s = .next { s with host := rest, rspValid := false }

/-- A watched command is latched when it is accepted, and, if the operation has events, the block is busy with it and
nothing else has changed (R31, R33): `init` in any mode, every other operation past the gate, `search_next` with a fork
point left. (`search_init` and the illegal opcodes have no event.) -/
def Obligations.AcceptedCommandIsLatched : Prop :=
  ∀ (s : State) (w : CmdWord) (rest : List HostInput), s.seq = .idle → s.inner = none →
    s.host = .start w :: rest → s.cfg.wf = true →
    (hostOp w = 0x0 ∨
      (s.regs.initialized = true ∧ ((hostOp w).toNat ≤ 6 ∨ (hostOp w = 0x8 ∧ s.regs.forkBit ≠ 0)))) →
    ∃ t, step s = .next t ∧ t.busy = true ∧ t.cmdReady = false ∧ t.eng.tr.opReg = hostOp w ∧
      t.eng.tr.argReg = hostArg w ∧ t.regs = s.regs ∧ t.trace = s.trace ∧ t.eng.now = s.eng.now

/-! ## Encoding -/

/-- V-ENC-1, V-ENC-2, R66, R68, R69, R73: words written out from the spec's encodings. -/
def Obligations.WordsOfTheTableDecode : Prop :=
  decodeTableWord 68 0x00000000000000004 = some (.init 4) ∧
  decodeTableWord 68 0x2FFFFFFFFFFFFFF44 = some (.sendByte 0x44) ∧
  decodeTableWord 68 0x60B00554433221110 = some (.matchRom #v[0x10, 0x11, 0x22, 0x33, 0x44, 0x55, 0x00, 0x0B]) ∧
  decodeTableWord 68 0x8DEADBEEFDEADBEEF = some .searchNext ∧
  decodeTableWord 68 0x90000000000000000 = some .illegal9 ∧
  decodeTableWord 68 0xF0000000000000000 = some .illegalF ∧
  decodeTableWord 8 0xCC = some .cmdSkipRom ∧ decodeTableWord 8 0x01 = some .writeBit1

/-- Decode and encode agree, for every instruction and every operand value (R65 to R69, R73). -/
def Obligations.DecodeOfEncodeIsTheInstruction : Prop :=
  ∀ i : Instr, decode (encode i) = .ok i

/-- R67: where the argument fields are, and that the bits an operation does not use may have any value and change
nothing: the commands without an argument decode alike whatever it is, `send_byte` takes bits 7:0, `match_rom` takes
byte `i` of the code from bits 8i+7:8i, and `init` takes bits LINE_ID_W-1:0. -/
def Obligations.ArgumentFields : Prop :=
  (∀ (op : BitVec 4) (a b : BitVec 64), op ≠ 0x0 → op ≠ 0x2 → op ≠ 0x6 →
    decodeHost (hostWord op a) = decodeHost (hostWord op b)) ∧
  (∀ a : BitVec 64, decodeHost (hostWord 0x2 a) = .sendByte (a.extractLsb' 0 8)) ∧
  (∀ a : BitVec 64, ∃ code : RomCode, decodeHost (hostWord 0x6 a) = .matchRom code ∧
    ∀ (i : Nat) (h : i < 8), code[i] = a.extractLsb' (8 * i) 8) ∧
  (∀ a : BitVec 64, decodeHost (hostWord 0x0 a) = .init a) ∧
  (∀ (a b : BitVec 64) (s : State), a.toNat % 2 ^ s.cfg.lineIdW.val = b.toNat % 2 ^ s.cfg.lineIdW.val →
    exec (.init a) s = exec (.init b) s)

/-- R52: with `pack`, ROM bit position `p` is bit `p - 1` of the 64-bit value. -/
def Obligations.PackedBitIsThePosition : Prop :=
  ∀ (r : RomCode) (p : Nat), 1 ≤ p → p ≤ 64 → (pack r).getLsbD (p - 1) = romBit r p

/-- R16: insertion at the top shifts right and puts the bit in bit 7; after eight insertions, whatever the start, the
first bit inserted is bit 0, the last bit 7. -/
def Obligations.EightInsertionsForgetTheStart : Prop :=
  (∀ (acc : Byte) (v : Bool), insertTop v acc = (BitVec.ofBool v ++ acc.extractLsb' 1 7 : BitVec (1 + 7))) ∧
  ∀ (acc : Byte) (v : Fin 8 → Bool) (i : Fin 8),
    ((List.ofFn v).foldl (fun a b => insertTop b a) acc).getLsbD i.val = v i

/-! ## Configuration, gate, illegal commands -/

/-- R18: parameters that break a constraint are refused by every operation, never wrapped or clamped. -/
def Obligations.BadConfigurationIsRefused : Prop :=
  ∀ (i : Instr) (s : State),
    (s.cfg.tRsth < s.cfg.tRiseMax + s.cfg.tPresMax ∨ s.cfg.tSample ≤ s.cfg.tLow1 ∨ s.cfg.tSlot ≤ s.cfg.tSample) →
    exec i s = .refused .badConfiguration

/-- R68: an opcode of 0x9 to 0xF produces no event, changes no state other than `status` and completes at once with
`ILLEGAL_CMD`, initialised or not, whatever the argument. -/
def Obligations.IllegalOpcodeOnlySetsStatus : Prop :=
  ∀ (s : State) (op : BitVec 4) (arg : BitVec 64), 9 ≤ op.toNat → s.cfg.wf = true →
    ∃ t, exec (decodeHost (hostWord op arg)) s = .next t ∧ t.eng = s.eng ∧ t.cfg = s.cfg ∧ t.host = s.host ∧
      t.inner = s.inner ∧ t.regs = { s.regs with status := .illegalCmd } ∧ t.statusPort = 8 ∧ t.seq = .idle ∧
      t.rspValid = true

/-- R104: before a successful `init` every other operation ends with its state error and an empty trace: nothing but
`status` changes. -/
def Obligations.GateStopsEverythingButInit : Prop :=
  ∀ (s : State) (byte : Byte) (code : RomCode), s.cfg.wf = true → s.regs.initialized = false →
    (∀ i ∈ [Instr.reset, .sendByte byte, .readByte, .skipRom, .readRom, .matchRom code, .searchInit],
      exec i s = .next { s with regs := { s.regs with status := .notInitialized }, seq := .idle, rspValid := true }) ∧
    exec .searchNext s =
      .next { s with regs := { s.regs with status := .noneReturned }, seq := .idle, rspValid := true }

/-- R100, R101, R102: `init` asks the driver once; accepted, it records the identifier, turns the pull-up on and marks
the handle; rejected, it changes nothing but `status`. In either case one event, no time, cursor and `rdata` untouched.
It needs no gate and may be repeated. The word with opcode 0 is this command. -/
def Obligations.InitConfiguresTheLine : Prop :=
  ∀ (s : State) (arg : BitVec 64), Ready s → decodeHost (hostWord 0x0 arg) = .init arg ∧
    let id := BitVec.ofNat 64 (arg.toNat % 2 ^ s.cfg.lineIdW.val)
    (id ∈ s.cfg.lineValid →
      ∃ t, exec (.init arg) s = .next t ∧
        Ended s t { s.regs with initialized := true, lineId := id, pullUp := true, status := .ok }
          [(s.eng.now, .configure id true)] 0 0 ∧ t.eng.tr = s.eng.tr) ∧
    (id ∉ s.cfg.lineValid →
      ∃ t, exec (.init arg) s = .next t ∧
        Ended s t { s.regs with status := .invalidArgument } [(s.eng.now, .configure id false)] 0 0 ∧
        t.eng.tr = s.eng.tr)

/-- R42, R100: while the `Configure` event of a watched `init` is to come, `cfg_req` is up with `cfg_dir_in = 1` and
`cfg_pull_up = 1`, and the port `line_id` names the line asked for (the port's value there is the model's choice, log
20); the step takes that event, with `cfg_ok` as its answer, and the request drops. -/
def Obligations.ConfigureRequestNamesTheLine : Prop :=
  ∀ s : State, s.seq = .busy .init .configure → s.inner = none → s.host = [] → s.cfg.wf = true →
    s.eng.tr.timer = 0 →
    s.cfgReq = true ∧ s.cfgDirIn = true ∧ s.cfgPullUp = true ∧
    s.lineIdPort = BitVec.ofNat 64 (s.eng.tr.argReg.toNat % 2 ^ s.cfg.lineIdW.val) ∧
    (s.cfgOk = true ↔ s.lineIdPort ∈ s.cfg.lineValid) ∧
    ∃ t, step s = .next t ∧ t.trace = s.trace ++ [(s.eng.now, .configure s.lineIdPort s.cfgOk)] ∧
      t.cfgReq = false ∧ t.cfgPullUp = t.regs.pullUp ∧
      t.lineIdPort = if s.cfgOk then s.lineIdPort else s.regs.lineId

/-! ## Bit transport

Exact times hold where time is kept, `OnTime` (R13, R222, R239); what holds elsewhere is `DelaysAreLowerBounds`. -/

/-- R130: `write_bit(0)`: low for T_SLOT, released, T_REC recovery; no gate, nothing persistent. With the source's values
the line is low for 120 and the primitive lasts 121. -/
def Obligations.WriteZeroSlot : Prop :=
  decode (.writeBit 0#1) = .ok .writeBit0 ∧
  ∀ s : State, Ready s → OnTime s.cfg s.eng →
    ∃ t, exec .writeBit0 s = .next t ∧
      InnerEnded s t (write0Wave s.cfg s.eng.now) (s.cfg.tSlot + s.cfg.tRec) 0 ∧
      (s.cfg.Canonical → t.trace = s.trace ++
        [(s.eng.now, .critEnter), (s.eng.now, .driveLow), (s.eng.now, .delay 120), (s.eng.now + 120, .release),
          (s.eng.now + 120, .delay 1), (s.eng.now + 121, .critExit)])

/-- R131: `write_bit(1)`: low for T_LOW1, released for the rest of T_SLOT. With the source's values the line is low for 1
and the primitive lasts 120. -/
def Obligations.WriteOneSlot : Prop :=
  decode (.writeBit 1#1) = .ok .writeBit1 ∧
  ∀ s : State, Ready s → OnTime s.cfg s.eng →
    ∃ t, exec .writeBit1 s = .next t ∧ InnerEnded s t (write1Wave s.cfg s.eng.now) s.cfg.tSlot 0 ∧
      (s.cfg.Canonical → t.trace = s.trace ++
        [(s.eng.now, .critEnter), (s.eng.now, .driveLow), (s.eng.now, .delay 1), (s.eng.now + 1, .release),
          (s.eng.now + 1, .delay 119), (s.eng.now + 120, .critExit)])

/-- R132: `read_bit()`: one sample T_SAMPLE after slot start; the result is the level, whatever it is. With the source's
values the line is low for 1, sampled at 15, and the primitive lasts 120. -/
def Obligations.ReadSlot : Prop :=
  decode .readBit = .ok .readBit ∧
  ∀ s : State, Ready s → OnTime s.cfg s.eng →
    ∃ t, exec .readBit s = .next t ∧
      InnerEnded s t (readWave s.cfg (s.eng.answer 0) s.eng.now) s.cfg.tSlot 1 ∧ t.eng.tr.v = s.eng.answer 0 ∧
      (s.cfg.Canonical → t.trace = s.trace ++
        [(s.eng.now, .critEnter), (s.eng.now, .driveLow), (s.eng.now, .delay 1), (s.eng.now + 1, .release),
          (s.eng.now + 1, .delay 14), (s.eng.now + 15, .sample (s.eng.answer 0)), (s.eng.now + 15, .delay 105),
          (s.eng.now + 120, .critExit)])

/-! ## Byte transport -/

/-- R140: `send_byte` writes the eight bits of the byte, least significant first; `rdata` unchanged. -/
def Obligations.SendByteWritesEightSlots : Prop :=
  ∀ (s : State) (byte : Byte), Ready s → OnTime s.cfg s.eng → s.regs.initialized = true →
    let slots := (byteBits byte).map Slot.write
    ∃ t, exec (.sendByte byte) s = .next t ∧
      Ended s t { s.regs with status := .ok } (slotsWave s.cfg slots s.eng.now) (slotsLength s.cfg slots) 0

/-- R141: `read_byte` reads eight slots; bit `i` of the byte is the `(i+1)`-th level sampled; `rdata <- zext_64(byte)`. -/
def Obligations.ReadByteAssemblesEightSamples : Prop :=
  ∀ s : State, Ready s → OnTime s.cfg s.eng → s.regs.initialized = true →
    let slots := (List.range 8).map fun i => Slot.read (s.eng.answer i)
    ∃ (t : State) (byte : Byte), exec .readByte s = .next t ∧ (∀ i < 8, byte.getLsbD i = s.eng.answer i) ∧
      Ended s t { s.regs with status := .ok, rdata := byte.setWidth 64 }
        (slotsWave s.cfg slots s.eng.now) (slotsLength s.cfg slots) 8

/-- R73, R142: each wire command byte by itself is `send_byte` of that byte as a subroutine: eight write slots, no gate,
neither `status` nor `rdata` written. (That the row means this call is the model's reading, log 11.) -/
def Obligations.WireCommandBytes : Prop :=
  ∀ s : State, Ready s → OnTime s.cfg s.eng →
    ∀ x ∈ [(Instr.cmdSkipRom, (0xCC : Byte)), (.cmdReadRom, 0x33), (.cmdMatchRom, 0x55), (.cmdSearchRom, 0xF0)],
      let slots := (byteBits x.2).map Slot.write
      ∃ t, exec x.1 s = .next t ∧
        InnerEnded s t (slotsWave s.cfg slots s.eng.now) (slotsLength s.cfg slots) 0

/-! ## Bus reset -/

/-- R111: a line that reads low is left alone: `BusBusy` after one sample, no pulse, no time. -/
def Obligations.ResetOnABusyLine : Prop :=
  ∀ s : State, Ready s → s.regs.initialized = true → s.eng.answer 0 = false →
    ∃ t, exec .reset s = .next t ∧
      Ended s t { s.regs with status := .busBusy } (resetBusyWave s.cfg s.eng.now) 0 1

/-- R112, R113: a line that does not rise: the pulse, `T_RISE_MAX + 1` low samples, `Timeout`. -/
def Obligations.ResetWithoutRise : Prop :=
  ∀ s : State, Ready s → OnTime s.cfg s.eng → s.regs.initialized = true → NoRise s.cfg s.eng →
    ∃ t, exec .reset s = .next t ∧
      Ended s t { s.regs with status := .timeout } (resetNoRiseWave s.cfg s.eng.now)
        (s.cfg.tRstl + s.cfg.tRec + s.cfg.tRiseMax * s.cfg.tPoll) (2 + s.cfg.tRiseMax)

/-- R113, R114: a line that rises and shows no presence pulse: `T_PRES_MAX + 1` high samples, `Timeout`. -/
def Obligations.ResetWithoutPresence : Prop :=
  ∀ (s : State) (rise : Nat), Ready s → OnTime s.cfg s.eng → s.regs.initialized = true → NoPresence s.cfg s.eng rise →
    ∃ t, exec .reset s = .next t ∧
      Ended s t { s.regs with status := .timeout } (resetNoPresenceWave s.cfg rise s.eng.now)
        (s.cfg.tRstl + s.cfg.tRec + (rise + s.cfg.tPresMax) * s.cfg.tPoll) (3 + rise + s.cfg.tPresMax)

/-- R110, R113 to R116: a line that rises and falls within the windows: `OK`, with the remainder waited out. -/
def Obligations.ResetWithADevice : Prop :=
  ∀ (s : State) (rise fall : Nat), Ready s → OnTime s.cfg s.eng → s.regs.initialized = true →
    Presence s.cfg s.eng rise fall →
    ∃ t, exec .reset s = .next t ∧ t.eng.tr.rise = rise ∧ t.eng.tr.fall = fall ∧
      Ended s t { s.regs with status := .ok } (resetOkWave s.cfg rise fall s.eng.now)
        (resetLength s.cfg rise fall) (resetSamples rise fall)

/-- R117: whatever the environment answers, and whether or not time is kept, `reset` ends, and in one of the four ways of
the statements above: line low, no rise, no presence pulse, or a device; with their traces and times where time is
kept. -/
def Obligations.EveryAnswerIsAResetOutcome : Prop :=
  ∀ s : State, Ready s → s.regs.initialized = true →
    ∃ t, exec .reset s = .next t ∧
      ((s.eng.answer 0 = false ∧
          Ended s t { s.regs with status := .busBusy } (resetBusyWave s.cfg s.eng.now) 0 1) ∨
        (NoRise s.cfg s.eng ∧ t.regs = { s.regs with status := .timeout } ∧ (OnTime s.cfg s.eng →
          Ended s t { s.regs with status := .timeout } (resetNoRiseWave s.cfg s.eng.now)
            (s.cfg.tRstl + s.cfg.tRec + s.cfg.tRiseMax * s.cfg.tPoll) (2 + s.cfg.tRiseMax))) ∨
        (∃ rise, NoPresence s.cfg s.eng rise ∧ t.regs = { s.regs with status := .timeout } ∧ (OnTime s.cfg s.eng →
          Ended s t { s.regs with status := .timeout } (resetNoPresenceWave s.cfg rise s.eng.now)
            (s.cfg.tRstl + s.cfg.tRec + (rise + s.cfg.tPresMax) * s.cfg.tPoll) (3 + rise + s.cfg.tPresMax))) ∨
        ∃ rise fall, Presence s.cfg s.eng rise fall ∧ t.regs = { s.regs with status := .ok } ∧ (OnTime s.cfg s.eng →
          Ended s t { s.regs with status := .ok } (resetOkWave s.cfg rise fall s.eng.now)
            (resetLength s.cfg rise fall) (resetSamples rise fall)))

/-! ## ROM commands -/

/-- R151: `skip_rom` on a bus with a device: the bus reset, then the byte 0xCC. -/
def Obligations.SkipRomSendsItsByte : Prop :=
  ∀ (s : State) (rise fall : Nat), Ready s → OnTime s.cfg s.eng → s.regs.initialized = true →
    Presence s.cfg s.eng rise fall →
    let slots := (byteBits 0xCC).map Slot.write
    let start := resetLength s.cfg rise fall + s.cfg.gap
    ∃ t, exec .skipRom s = .next t ∧
      Ended s t { s.regs with status := .ok }
        (resetOkWave s.cfg rise fall s.eng.now ++ slotsWave s.cfg slots (s.eng.now + start))
        (start + slotsLength s.cfg slots) (resetSamples rise fall)

/-- R153, R154: `read_rom` on a bus with a device: the bus reset, the byte 0x33, 64 read slots; `rdata` is the eight bytes
read in both outcomes, and the outcome is `OK` exactly when their residual is 0. -/
def Obligations.ReadRomReturnsTheBytes : Prop :=
  ∀ (s : State) (rise fall : Nat), Ready s → OnTime s.cfg s.eng → s.regs.initialized = true →
    Presence s.cfg s.eng rise fall →
    let code := answeredCode s.eng (resetSamples rise fall)
    let slots := (byteBits 0x33).map Slot.write ++ (codeBits code).map Slot.read
    let start := resetLength s.cfg rise fall + s.cfg.gap
    (∀ k < 64, romBit code (k + 1) = s.eng.answer (resetSamples rise fall + k)) ∧
    ∃ t, exec .readRom s = .next t ∧
      Ended s t { s.regs with
          rdata := pack code
          status := if crcResidual code = 0 then .ok else .invalidCrc }
        (resetOkWave s.cfg rise fall s.eng.now ++ slotsWave s.cfg slots (s.eng.now + start))
        (start + slotsLength s.cfg slots) (resetSamples rise fall + 64)

/-- R156: `match_rom` on a bus with a device: the bus reset, the byte 0x55, the 64 code bits, byte 0 first and least
significant bit first. -/
def Obligations.MatchRomSendsTheCode : Prop :=
  ∀ (s : State) (code : RomCode) (rise fall : Nat), Ready s → OnTime s.cfg s.eng → s.regs.initialized = true →
    Presence s.cfg s.eng rise fall →
    let slots := (byteBits 0x55).map Slot.write ++ (codeBits code).map Slot.write
    let start := resetLength s.cfg rise fall + s.cfg.gap
    ∃ t, exec (.matchRom code) s = .next t ∧
      Ended s t { s.regs with status := .ok }
        (resetOkWave s.cfg rise fall s.eng.now ++ slotsWave s.cfg slots (s.eng.now + start))
        (start + slotsLength s.cfg slots) (resetSamples rise fall)

/-- R150 (c), R120: when the inner bus reset fails, its trace and time are all there is; the three ROM commands report
`NoResponse`, and nothing else is written. -/
def Obligations.FailedInnerReset : Prop :=
  ∀ (s : State) (code : RomCode), Ready s → s.regs.initialized = true → ResetFails s.cfg s.eng →
    ∃ r, exec .reset s = .next r ∧
      (∀ i ∈ [Instr.skipRom, .readRom, .matchRom code],
        exec i s = .next { r with regs := { s.regs with status := .noResponse } })

/-- R155 (b), (c): a device that sends nothing fails the check; a line stuck low after the presence pulse passes it
with an all-zero code. -/
def Obligations.ReadRomOfASilentOrStuckLine : Prop :=
  ∀ (s : State) (rise fall : Nat), Ready s → s.regs.initialized = true → Presence s.cfg s.eng rise fall →
    ((∀ k < 64, s.eng.answer (resetSamples rise fall + k) = true) →
      ∃ t, exec .readRom s = .next t ∧
        t.regs = { s.regs with rdata := 0xFFFFFFFFFFFFFFFF, status := .invalidCrc }) ∧
    ((∀ k < 64, s.eng.answer (resetSamples rise fall + k) = false) →
      ∃ t, exec .readRom s = .next t ∧ t.regs = { s.regs with rdata := 0, status := .ok })

/-! ## CRC -/

/-- R91: the table is the one its generating rule gives, for every index. -/
def Obligations.CrcTableFollowsItsRule : Prop :=
  ∀ i : Byte,
    crc8Entry i = (List.range 8).foldl (fun (c : Byte) _ => if c.getLsbD 0 then (c >>> 1) ^^^ 0x8C else c >>> 1) i

/-- R93: a code is valid exactly when byte 7 is the accumulator after folding bytes 0 to 6. -/
def Obligations.ValidCodeEndsInItsCrc : Prop :=
  ∀ r : RomCode, crcResidual r = 0 ↔ r[7] = (r.toList.take 7).foldl crc8Fold crcInit

/-- R94 (a): corrupting any single bit of a valid code gives a non-zero residual. -/
def Obligations.SingleBitErrorsAreDetected : Prop :=
  ∀ (r : RomCode) (p : Nat), 1 ≤ p → p ≤ 64 → crcResidual r = 0 →
    crcResidual (setRomBit r p (!romBit r p)) ≠ 0

/-! ## ROM search -/

/-- R170: `search_init` arms the cursor, whatever it was, and the two cursor ports show it (R32, R42); no event, no time,
`rdata` unchanged; before `init` it reports `NotInitialized` and the cursor stays. -/
def Obligations.SearchInitArmsTheCursor : Prop :=
  (∀ arg : BitVec 64, decodeHost (hostWord 0x7 arg) = .searchInit) ∧
  ∀ s : State, s.cfg.wf = true →
    (s.regs.initialized = true →
      ∃ t, exec .searchInit s = .next t ∧
        t = { s with
          regs := { s.regs with rom := zeroRom, forkBit := 65, status := .ok }, seq := .idle, rspValid := true } ∧
        t.forkBitPort = 65 ∧ t.romPort = 0 ∧ t.statusPort = 0) ∧
    (s.regs.initialized = false →
      ∃ t, exec .searchInit s = .next t ∧
        t = { s with regs := { s.regs with status := .notInitialized }, seq := .idle, rspValid := true } ∧
        t.forkBitPort = s.forkBitPort ∧ t.romPort = s.romPort ∧ t.statusPort = 1)

/-- R171: the guards of `search_next`, in order: before `init`, and with `fork_bit = 0`, `NONE` with no bus activity; then a
bus reset that fails, `NONE` after its trace, which is that of `reset`. Cursor and `rdata` unchanged every time. -/
def Obligations.SearchNextGuards : Prop :=
  (∀ arg : BitVec 64, decodeHost (hostWord 0x8 arg) = .searchNext) ∧
  (∀ s : State, s.cfg.wf = true → (s.regs.initialized = false ∨ s.regs.forkBit = 0) →
    exec .searchNext s =
      .next { s with regs := { s.regs with status := .noneReturned }, seq := .idle, rspValid := true }) ∧
  ∀ s : State, Ready s → s.regs.initialized = true → s.regs.forkBit ≠ 0 → ResetFails s.cfg s.eng →
    ∃ r, exec .reset s = .next r ∧
      exec .searchNext s = .next { r with regs := { s.regs with status := .noneReturned } }

/-- R173, R174: what a position's pair decides. (0,0) before the fork point: the branch of the previous pass, recorded
again if it was 0; at the fork point: 1; past it: 0, recorded. (1,0) and (0,1): the bus dictates the bit, nothing is
recorded, whatever the fork point and the previous pass. -/
def Obligations.DecisionAtAPosition : Prop :=
  ∀ (fork newFork : Fin 66) (pos : Nat) (prev : Bool), 1 ≤ pos → pos ≤ 64 →
    (pos < fork.val → decideBit fork pos true false false newFork = some (true, newFork) ∧
      decideBit fork pos false false false newFork = some (false, Fin.ofNat 66 pos)) ∧
    (pos = fork.val → decideBit fork pos prev false false newFork = some (true, newFork)) ∧
    (fork.val < pos → decideBit fork pos prev false false newFork = some (false, Fin.ofNat 66 pos)) ∧
    decideBit fork pos prev true false newFork = some (true, newFork) ∧
    decideBit fork pos prev false true newFork = some (false, newFork)

/-- R178: the state `search_next` writes, in full: with a code returned the cursor, `status` and `rdata`, `rdata` being the
packed code; otherwise `status` only, whatever the cause. The ports `fork_bit`, `rom` and `status` show it (R32, R42,
R200), `rdata` being equal to `rom` (R30). -/
def Obligations.SearchNextWritesAllOrOnlyStatus : Prop :=
  ∀ s t : State, exec .searchNext s = .next t →
    (t.regs = { s.regs with rom := t.regs.rom, forkBit := t.regs.forkBit, status := .ok, rdata := pack t.regs.rom } ∧
      t.forkBitPort.toNat = t.regs.forkBit.val ∧ t.romPort = t.regs.rdata ∧ t.statusPort = 0) ∨
    (t.regs = { s.regs with status := .noneReturned } ∧
      t.forkBitPort = s.forkBitPort ∧ t.romPort = s.romPort ∧ t.statusPort = 7)

/-- R172 to R178: a pass after a successful bus reset: the byte 0xF0, then for each position two read slots, the choice of
R173 to R175 and a write slot. With all 64 positions done `rom` and `fork_bit` are committed together and the code is
returned; a pair (1,1) aborts with `NONE` and the cursor as it was. -/
def Obligations.SearchNextMakesThePass : Prop :=
  ∀ (s : State) (rise fall : Nat), Ready s → OnTime s.cfg s.eng → s.regs.initialized = true → s.regs.forkBit ≠ 0 →
    Presence s.cfg s.eng rise fall →
    let pairs := answeredPairs s.eng (resetSamples rise fall)
    let passed := passSlots s.regs.rom s.regs.forkBit.val pairs 1 0
    let slots := (byteBits 0xF0).map Slot.write ++ passed
    let start := resetLength s.cfg rise fall + s.cfg.gap
    ∃ (t : State) (regs : Regs), exec .searchNext s = .next t ∧
      Ended s t regs
        (resetOkWave s.cfg rise fall s.eng.now ++ slotsWave s.cfg slots (s.eng.now + start))
        (start + slotsLength s.cfg slots) (resetSamples rise fall + slotReads passed) ∧
      (∀ bits fork, passOver s.regs.rom s.regs.forkBit.val pairs 1 0 = some (bits, fork) →
        codeBits regs.rom = bits ∧ regs.forkBit.val = fork ∧
          regs = { s.regs with rom := regs.rom, forkBit := regs.forkBit, rdata := pack regs.rom, status := .ok }) ∧
      (passOver s.regs.rom s.regs.forkBit.val pairs 1 0 = none →
        regs = { s.regs with status := .noneReturned })

/-- R177: when `search_next` returns a code, `fork_bit` is the last position where the pair was (0,0) and 0 was chosen,
or 0 if there was none; the bit of `rom` at a position is the bit chosen there, and so, where the pair left no choice,
the bit of the pair (R174). -/
def Obligations.ForkIsTheLastDeferredBranch : Prop :=
  ∀ (s : State) (rise fall : Nat), Ready s → s.regs.initialized = true → s.regs.forkBit ≠ 0 →
    Presence s.cfg s.eng rise fall →
    let pairs := answeredPairs s.eng (resetSamples rise fall)
    ∃ t, exec .searchNext s = .next t ∧
      (t.regs.status = .ok →
        t.regs.forkBit.val ≤ 64 ∧
        (∀ p b, 1 ≤ p → p ≤ 64 → pairs[p - 1]? = some (b, !b) → romBit t.regs.rom p = b) ∧
        (∀ p, 1 ≤ p → p ≤ 64 → pairs[p - 1]? = some (false, false) → romBit t.regs.rom p = false →
          p ≤ t.regs.forkBit.val) ∧
        (1 ≤ t.regs.forkBit.val → pairs[t.regs.forkBit.val - 1]? = some (false, false) ∧
          romBit t.regs.rom t.regs.forkBit.val = false))

/-- R180: on an unchanged bus of `n` ideal devices with pairwise distinct codes, `search_next` called again and again from
an armed cursor returns every code exactly once, in ascending order of the bits as transmitted; the `n`-th call leaves
`fork_bit = 0`, and every call after it returns `NONE` with no bus activity, cursor and `rdata` as they were. -/
def Obligations.EnumerationFindsEveryDeviceInOrder : Prop :=
  ∀ (devices : List RomCode) (s : State), devices ≠ [] → devices.Nodup → Ready s → s.regs.initialized = true →
    s.regs.rom = zeroRom → s.regs.forkBit = 65 →
    (∀ k, k < devices.length → AnswersAsDevices devices (afterSearches k s)) →
    let codes := (List.range devices.length).map fun k => (afterSearches (k + 1) s).regs.rom
    codes.Perm devices ∧ codes.Pairwise transmittedBefore ∧
    (∀ k, exec .searchNext (afterSearches k s) = .next (afterSearches (k + 1) s)) ∧
    (∀ k, k < devices.length → (afterSearches (k + 1) s).regs.status = .ok ∧
      (afterSearches (k + 1) s).regs.rdata = pack (afterSearches (k + 1) s).regs.rom) ∧
    (afterSearches devices.length s).regs.forkBit = 0 ∧
    ∀ k, devices.length ≤ k →
      (afterSearches (k + 1) s).eng = (afterSearches k s).eng ∧
      (afterSearches (k + 1) s).regs = { (afterSearches k s).regs with status := .noneReturned }

/-- R181: with exactly one ideal device `search_next` returns its code and leaves `fork_bit = 0`, whatever fork point the
cursor had; the call after it returns `NONE` and changes nothing else. -/
def Obligations.SingleDeviceIsFoundAtOnce : Prop :=
  ∀ (device : RomCode) (s : State), Ready s → s.regs.initialized = true → s.regs.forkBit ≠ 0 →
    AnswersAsDevices [device] s →
    ∃ t, exec .searchNext s = .next t ∧
      t.regs = { s.regs with rom := device, forkBit := 0, rdata := pack device, status := .ok } ∧
      exec .searchNext t = .next { t with regs := { t.regs with status := .noneReturned } }

/-! ## Rules over all instructions -/

/-- R38, R185: what each operation may write of the persistent registers: only `init` the handle and the pull-up, only the
search operations the cursor, only `read_byte`, `read_rom` and `search_next` the data register, and a wire command byte
or a bit primitive nothing at all. -/
def Obligations.WriteSetsOfTheOperations : Prop :=
  ∀ (i : Instr) (s t : State), exec i s = .next t →
    ((∀ a, i ≠ .init a) → t.regs.initialized = s.regs.initialized ∧ t.regs.lineId = s.regs.lineId ∧
      t.regs.pullUp = s.regs.pullUp) ∧
    (i ≠ .searchInit → i ≠ .searchNext → t.regs.rom = s.regs.rom ∧ t.regs.forkBit = s.regs.forkBit) ∧
    (i ≠ .readByte → i ≠ .readRom → i ≠ .searchNext → t.regs.rdata = s.regs.rdata) ∧
    (i ∈ [Instr.cmdSkipRom, .cmdReadRom, .cmdMatchRom, .cmdSearchRom, .writeBit0, .writeBit1, .readBit] →
      t.regs = s.regs ∧ t.seq = s.seq ∧ t.rspValid = s.rspValid) ∧
    t.cfg = s.cfg ∧ t.host = s.host ∧ t.inner = s.inner ∧
    t.eng.tr.opReg = s.eng.tr.opReg ∧ t.eng.tr.argReg = s.eng.tr.argReg

/-- R201: which operation can end with which outcome; a bit primitive has none. Each outcome is given with the code that
the port `status[3:0]` shows for it (R200). -/
def Obligations.OutcomesOfTheOperations : Prop :=
  ∀ (s t : State) (arg : BitVec 64) (byte : Byte) (code : RomCode),
    let outcome := (t.regs.status, t.statusPort)
    let ok : Status × BitVec 4 := (.ok, 0)
    let notInitialized : Status × BitVec 4 := (.notInitialized, 1)
    let noResponse : Status × BitVec 4 := (.noResponse, 5)
    (exec (.init arg) s = .next t → outcome ∈ [ok, (.invalidArgument, 2)]) ∧
    (exec .reset s = .next t → outcome ∈ [ok, notInitialized, (.busBusy, 3), (.timeout, 4)]) ∧
    (exec (.sendByte byte) s = .next t → outcome ∈ [ok, notInitialized]) ∧
    (exec .readByte s = .next t → outcome ∈ [ok, notInitialized]) ∧
    (exec .skipRom s = .next t → outcome ∈ [ok, notInitialized, noResponse]) ∧
    (exec .readRom s = .next t → outcome ∈ [ok, notInitialized, noResponse, (.invalidCrc, 6)]) ∧
    (exec (.matchRom code) s = .next t → outcome ∈ [ok, notInitialized, noResponse]) ∧
    (exec .searchInit s = .next t → outcome ∈ [ok, notInitialized]) ∧
    (exec .searchNext s = .next t → outcome ∈ [ok, (.noneReturned, 7)]) ∧
    (∀ i ∈ [Instr.illegal9, .illegalA, .illegalB, .illegalC, .illegalD, .illegalE, .illegalF],
      exec i s = .next t → outcome = (.illegalCmd, 8)) ∧
    (∀ i ∈ [Instr.writeBit0, .writeBit1, .readBit], exec i s = .next t → outcome = (s.regs.status, s.statusPort))

/-- R13: where time is kept, `Delay(n)` advances the clock by exactly `n` and nothing else does (`GAP = 0`): over every
instruction the clock advances by the sum of the delays it records. -/
def Obligations.OnlyDelaysTakeTime : Prop :=
  ∀ (i : Instr) (s t : State), s.cfg.gap = 0 → OnTime s.cfg s.eng → exec i s = .next t →
    ∃ wave, t.trace = s.trace ++ wave ∧
      t.eng.now = s.eng.now + (wave.map fun x => match x.2 with | .delay n => n | _ => 0).sum

/-- R8: with `HAS_CRITICAL = 0` the `CritEnter` and `CritExit` events of every rule are omitted and nothing else
changes, where the time base is late by nothing in each delay of the instruction (otherwise the next statement). -/
def Obligations.WithoutCriticalOnlyTheRegionEventsGo : Prop :=
  ∀ (i : Instr) (s t : State), s.cfg.hasCritical = true → exec i s = .next t →
    (∀ k, k < t.eng.delays - s.eng.delays → s.eng.stall k = 0) →
    ∃ (t' : State) (wave wave' : List (Nat × Event)),
      exec i { s with cfg := { s.cfg with hasCritical := false } } = .next t' ∧
      t.trace = s.trace ++ wave ∧ t'.trace = s.trace ++ wave' ∧
      wave' = wave.filter (fun x => x.2 != .critEnter && x.2 != .critExit) ∧
      t'.regs = t.regs ∧ t'.seq = t.seq ∧ t'.rspValid = t.rspValid ∧ t'.eng.now = t.eng.now ∧
      t'.eng.drv = t.eng.drv ∧ t'.eng.wire = t.eng.wire ∧ t'.eng.samples = t.eng.samples ∧ t'.eng.tr = t.eng.tr

/-- R239: with `HAS_CRITICAL = 0`, or on a platform that ignores `crit`, every `Delay(n)` is a lower bound: no event after
it, and not the end of the instruction, comes sooner than `n` after it began. Nothing else is different: the same events
in the same order (the region's two aside), the same registers and outputs, the same answers used, and, beside a
platform that keeps time, no earlier end. -/
def Obligations.DelaysAreLowerBounds : Prop :=
  ∀ (i : Instr) (s t : State) (critical honoured : Bool), s.cfg.hasCritical = true → exec i s = .next t →
    ∃ (t' : State) (wave wave' : List (Nat × Event)),
      exec i { s with cfg := { s.cfg with hasCritical := critical, honoursCrit := honoured } } = .next t' ∧
      t.trace = s.trace ++ wave ∧ t'.trace = s.trace ++ wave' ∧
      wave'.map Prod.snd =
        (wave.map Prod.snd).filter (fun ev => critical || (ev != .critEnter && ev != .critExit)) ∧
      (∀ early start n later, wave' = early ++ (start, .delay n) :: later →
        start + n ≤ t'.eng.now ∧ ∀ x ∈ later, start + n ≤ x.1) ∧
      (OnTime s.cfg s.eng → t.eng.now ≤ t'.eng.now) ∧
      t'.regs = t.regs ∧ t'.seq = t.seq ∧ t'.rspValid = t.rspValid ∧ t'.eng.drv = t.eng.drv ∧
      t'.eng.wire = t.eng.wire ∧ t'.eng.samples = t.eng.samples ∧ t'.eng.stalls = t.eng.stalls ∧
      t'.eng.delays = t.eng.delays ∧ t'.eng.tr = t.eng.tr

/-- R23: whatever the state and the environment's answers, every instruction ends: under parameters that meet the
constraints of R7, `exec` answers a next state. -/
def Obligations.EveryInstructionEnds : Prop :=
  ∀ (i : Instr) (s : State), s.cfg.wf = true → ∃ t, exec i s = .next t

/-! ## Durations -/

/-- R245: with the source's values, the duration of every operation but `search_next`: those that succeed, those whose bus
reset fails, and those that produce no event. -/
def Obligations.DurationsWithTheSourceValues : Prop :=
  ∀ (s : State) (arg : BitVec 64) (byte : Byte) (code : RomCode) (rise fall : Nat), Ready s → s.cfg.Canonical →
    let lasts := fun (i : Instr) (d : Nat) => ∃ t, exec i s = .next t ∧ t.eng.now = s.eng.now + d
    let withReset := [Instr.reset, .skipRom, .readRom, .matchRom code]
    lasts (.init arg) 0 ∧ lasts .writeBit0 121 ∧ lasts .writeBit1 120 ∧ lasts .readBit 120 ∧ lasts .searchInit 0 ∧
    (∀ i ∈ [Instr.illegal9, .illegalA, .illegalB, .illegalC, .illegalD, .illegalE, .illegalF], lasts i 0) ∧
    (s.regs.initialized = false →
      ∀ i ∈ [Instr.reset, .sendByte byte, .readByte, .skipRom, .readRom, .matchRom code, .searchNext], lasts i 0) ∧
    (s.regs.initialized = true →
      lasts (.sendByte byte) (960 + zeros (byteBits byte)) ∧ lasts .readByte 960 ∧
      (Presence s.cfg s.eng rise fall →
        lasts .reset 961 ∧ lasts .skipRom 1925 ∧ lasts .readRom 9605 ∧
          lasts (.matchRom code) (9605 + zeros (codeBits code))) ∧
      (s.eng.answer 0 = false → ∀ i ∈ withReset, lasts i 0) ∧
      (NoRise s.cfg s.eng → ∀ i ∈ withReset, lasts i 541) ∧
      (NoPresence s.cfg s.eng rise → ∀ i ∈ withReset, lasts i (721 + rise)))

/-- R247: with the source's values, a full search pass lasts `24 965 + z` microseconds, `z` the number of 0 bits in the
code returned. -/
def Obligations.FullPassDuration : Prop :=
  ∀ (s t : State) (rise fall : Nat), Ready s → s.cfg.Canonical → s.regs.initialized = true →
    s.regs.forkBit ≠ 0 → Presence s.cfg s.eng rise fall → exec .searchNext s = .next t →
    t.regs.status = .ok → t.eng.now = s.eng.now + 24965 + zeros (codeBits t.regs.rom)

/-! ## The sequencer -/

/-- R33, R44: the invariant holds right after the power-on reset. -/
def Obligations.InvariantHoldsAtReset : Prop := Inv State.reset

/-- R13, R29, R35, R44, R63, R177, R213: every step of the machine keeps the invariant. -/
def Obligations.StepKeepsTheInvariant : Prop :=
  ∀ s t : State, Inv s → step s = .next t → Inv t

/-- R23, R214: a state of a run never stops: no step faults or is refused. -/
def Obligations.StepNeverStops : Prop :=
  ∀ s : State, Inv s → ∃ t, step s = .next t

/-- R36: with the source's values every step keeps the loop counters and the timer within the widths they are given. -/
def Obligations.StepKeepsCountersInRange : Prop :=
  ∀ s t : State, Inv s → s.cfg.Canonical → CountersInRange s → step s = .next t → CountersInRange t

/-- R20, R33: watched event by event and tick by tick, an accepted command ends in exactly the state its meaning gives. -/
def Obligations.WatchedOperationEndsAsItsMeaningSays : Prop :=
  ∀ (s : State) (w : CmdWord), s.seq = .idle → s.inner = none → s.cfg.wf = true →
    ∃ (n : Nat) (t : State),
      Host.Core.run Sys2Proof.core n { s with host := [.start w] } = .next t ∧
      step { s with host := [.command w] } = .next t ∧ t.seq = .idle ∧ t.rspValid = true

/-- With the source's values an operation in progress ends after a bounded number of events and ticks, whatever the
environment answers (R23). That one event or tick is one step, and so the number of steps, is the model's (log 6). -/
def Obligations.BusyBlockBecomesIdle : Prop :=
  ∀ s : State, Inv s → s.cfg.Canonical → CountersInRange s → s.host = [] →
    ∃ (n : Nat) (t : State), n ≤ 30000 ∧ Host.Core.run Sys2Proof.core n s = .next t ∧ t.seq = .idle

/-- R30, R32, R33: but for the power-on reset, the persistent registers change only in a step in which an operation
completes: `rsp_valid` is 1 after it and the block is idle, and a busy block does not become idle otherwise. While the
block is busy they are those before the step. In `IDLE`, with nothing presented, nothing happens: no event, no time, no
register changes, and the pulse `rsp_valid` of a completion before is gone. (That the host presents nothing is the
input `wait` or the end of its list, the model's form, log 7.) -/
def Obligations.RegistersChangeOnlyAtCompletion : Prop :=
  (∀ s t : State, step s = .next t → (∀ rest, s.host ≠ .rst :: rest) →
    (t.rspValid = false → t.regs = s.regs) ∧ (t.rspValid = true → t.seq = .idle) ∧
      (s.busy = true → t.busy = false → t.rspValid = true)) ∧
  (∀ (s t : State) (op : HostOp) (phase : Phase), step s = .next t → t.seq = .busy op phase → t.regs = s.regs) ∧
  ∀ (s : State) (rest : List HostInput), s.seq = .idle → s.inner = none →
    (s.host = .wait :: rest ∨ (s.host = [] ∧ rest = [])) →
    step s = .next { s with host := rest, rspValid := false }

/-- R219, R26: the initialised mode is left only by the power-on reset. -/
def Obligations.OnlyResetLeavesTheInitialisedMode : Prop :=
  ∀ s t : State, step s = .next t → s.regs.initialized = true → t.regs.initialized = false →
    ∃ rest, s.host = .rst :: rest

/-- R213, R35: from a released line with no open region, every instruction ends so, and the ports `line_oe` and `crit`
show it. -/
def Obligations.CleanUpOnEveryWayOut : Prop :=
  ∀ (i : Instr) (s t : State), s.eng.drv = .released → s.eng.crit = false → exec i s = .next t →
    t.eng.drv = .released ∧ t.eng.crit = false ∧ t.lineOe = false ∧ t.critPort = false
end

