-- ==== Sys2Proof/Laws/Decode.lean ====
section
/-! SUPPORT. The fields of a host command word (R65), the packing of a ROM code (R52), and its bit view (R55). -/

namespace Sys2Proof

/-- Bit by bit, a host command word is its argument with the opcode above it (R65). -/
theorem hostWord_getLsbD (op : BitVec 4) (arg : BitVec 64) (i : Nat) :
    (hostWord op arg).getLsbD i = if i < 64 then arg.getLsbD i else op.getLsbD (i - 64) := by
  have h : (hostWord op arg).getLsbD i = BitVec.getLsbD (w := 4 + 64) (op ++ arg) i := rfl
  rw [h, BitVec.getLsbD_append]

/-- The opcode field of a word made of two fields (R65). -/
@[simp] theorem hostOp_hostWord (op : BitVec 4) (arg : BitVec 64) : hostOp (hostWord op arg) = op := by
  apply BitVec.eq_of_getLsbD_eq
  intro i hi
  simp [hostOp, hostWord_getLsbD, hi]

/-- The argument field of a word made of two fields (R65). -/
@[simp] theorem hostArg_hostWord (op : BitVec 4) (arg : BitVec 64) : hostArg (hostWord op arg) = arg := by
  apply BitVec.eq_of_getLsbD_eq
  intro i hi
  simp [hostArg, hostWord_getLsbD, hi]

/-- A bit of a value with a byte appended below. -/
theorem getLsbD_append_byte {n : Nat} (x : BitVec n) (y : Byte) (j : Nat) :
    (x ++ y).getLsbD j = if j < 8 then y.getLsbD j else x.getLsbD (j - 8) := by
  rw [BitVec.getLsbD_append]

/-- Bit `j` of a packed code is bit `j mod 8` of byte `j div 8` (R52). -/
theorem pack_getLsbD (r : RomCode) (j : Nat) (h : j < 64) :
    (pack r).getLsbD j = (r.getD (j / 8) 0).getLsbD (j % 8) := by
  have e : (pack r).getLsbD j = BitVec.getLsbD (w := 8 + 8 + 8 + 8 + 8 + 8 + 8 + 8)
      (r[7] ++ r[6] ++ r[5] ++ r[4] ++ r[3] ++ r[2] ++ r[1] ++ r[0]) j := rfl
  rw [e]
  simp only [getLsbD_append_byte]
  have hj : j = 8 * (j / 8) + j % 8 := by omega
  have h8 : j % 8 < 8 := Nat.mod_lt _ (by decide)
  have hq : j / 8 < 8 := by omega
  generalize j / 8 = q at *
  generalize j % 8 = m at *
  subst hj
  interval_cases q <;> simp [Vector.getD, Array.getD] <;> (repeat' split) <;>
    first | omega | (congr 1; omega)

/-- A byte of an unpacked code (R52, R67). -/
theorem unpack_getElem (w : BitVec 64) (i : Nat) (hi : i < 8) :
    (unpack w)[i] = w.extractLsb' (8 * i) 8 := by
  simp [unpack]

/-- Unpacking undoes packing (R52, R67). -/
theorem unpack_pack (r : RomCode) : unpack (pack r) = r := by
  ext i hi : 1
  apply BitVec.eq_of_getLsbD_eq
  intro k hk
  rw [unpack_getElem, BitVec.getLsbD_extractLsb', pack_getLsbD _ _ (by omega)]
  have h1 : (8 * i + k) / 8 = i := by omega
  have h2 : (8 * i + k) % 8 = k := by omega
  rw [h1, h2]
  simp [Vector.getD, hk, hi]

namespace Machine

/-! ## The bit view of a ROM code -/

/-- A byte with one bit set. -/
theorem setByteBit_getLsbD (b : Byte) (k j : Nat) (v : Bool) (hj : j < 8) :
    (setByteBit b k v).getLsbD j = if j = k then v else b.getLsbD j := by
  have one : ∀ m, (1#8).getLsbD m = decide (m = 0) := by
    intro m
    rcases m with _ | m
    · rfl
    · simp
  have h : (1#8 <<< k).getLsbD j = decide (j = k) := by
    rw [BitVec.getLsbD_shiftLeft, one, Bool.eq_iff_iff]
    simp [hj]
    omega
  unfold setByteBit
  cases v <;>
    simp only [Bool.false_eq_true, if_false, if_true, BitVec.getLsbD_or, BitVec.getLsbD_and, BitVec.getLsbD_not, h,
      hj] <;>
    by_cases e : j = k <;> simp [e]

/-- The byte and the bit of a position (R55). -/
theorem romBit_eq (r : RomCode) {i k : Nat} (hi : i < 8) (hk : k < 8) :
    romBit r (8 * i + k + 1) = r[i].getLsbD k := by
  have h1 : (8 * i + k + 1 - 1) / 8 = i := by omega
  have h2 : (8 * i + k + 1 - 1) % 8 = k := by omega
  unfold romBit
  rw [h1, h2]
  simp [Vector.getD, hi]

/-- Storing a bit at a position: it reads back there and nowhere else (R55, R176). -/
theorem romBit_setRomBit (r : RomCode) {p q : Nat} (v : Bool) (hp : 1 ≤ p) (hp' : p ≤ 64) (hq : 1 ≤ q)
    (hq' : q ≤ 64) : romBit (setRomBit r p v) q = if q = p then v else romBit r q := by
  obtain ⟨i, k, hi, hk, rfl⟩ : ∃ i k, i < 8 ∧ k < 8 ∧ q = 8 * i + k + 1 :=
    ⟨(q - 1) / 8, (q - 1) % 8, by omega, by omega, by omega⟩
  have hm : (p - 1) / 8 < 8 := by omega
  rw [romBit_eq _ hi hk, romBit_eq _ hi hk]
  simp only [setRomBit, Vector.getElem_setIfInBounds]
  by_cases h : (p - 1) / 8 = i
  · subst h
    rw [if_pos rfl, setByteBit_getLsbD _ _ _ _ hk]
    have h1 : k = (p - 1) % 8 ↔ 8 * ((p - 1) / 8) + k + 1 = p := by omega
    simp only [h1]
    simp [Vector.getD, hm]
  · have h1 : ¬ 8 * i + k + 1 = p := by omega
    rw [if_neg h, if_neg h1]

/-- Two codes with the same bits at every position are the same code. -/
theorem romCode_ext {a b : RomCode} (h : ∀ p, 1 ≤ p → p ≤ 64 → romBit a p = romBit b p) : a = b := by
  ext i hi : 1
  apply BitVec.eq_of_getLsbD_eq
  intro k hk
  rw [← romBit_eq a hi hk, ← romBit_eq b hi hk]
  exact h _ (by omega) (by omega)

/-- An all-zero code has no 1. -/
@[simp] theorem romBit_zeroRom (p : Nat) : romBit zeroRom p = false := by
  unfold romBit zeroRom
  by_cases h : (p - 1) / 8 < 8 <;> simp [Vector.getD, h]

end Machine

end Sys2Proof
end

