-- ==== Sys2Proof/Laws/State.lean ====
section
/-! SUPPORT. One lemma per field per update, so that no later proof unfolds a record update: the events and register
updates of an Engine, and the updates of a State. -/

namespace Sys2Proof.Machine

section Engine

variable (e : Engine)


@[simp] theorem emit_drv (ev : Event) : (emit ev e).drv = e.drv := rfl
@[simp] theorem emit_crit (ev : Event) : (emit ev e).crit = e.crit := rfl
@[simp] theorem emit_now (ev : Event) : (emit ev e).now = e.now := rfl
@[simp] theorem emit_log (ev : Event) : (emit ev e).log = (e.now, ev) :: e.log := rfl
@[simp] theorem emit_wire (ev : Event) : (emit ev e).wire = e.wire := rfl
@[simp] theorem emit_samples (ev : Event) : (emit ev e).samples = e.samples := rfl
@[simp] theorem emit_stalls (ev : Event) : (emit ev e).stalls = e.stalls := rfl
@[simp] theorem emit_delays (ev : Event) : (emit ev e).delays = e.delays := rfl
@[simp] theorem emit_tr (ev : Event) : (emit ev e).tr = e.tr := rfl

@[simp] theorem driveLow_drv : (driveLow e).drv = .low := rfl
@[simp] theorem driveLow_crit : (driveLow e).crit = e.crit := rfl
@[simp] theorem driveLow_now : (driveLow e).now = e.now := rfl
@[simp] theorem driveLow_log : (driveLow e).log = (e.now, .driveLow) :: e.log := rfl
@[simp] theorem driveLow_wire : (driveLow e).wire = e.wire := rfl
@[simp] theorem driveLow_samples : (driveLow e).samples = e.samples := rfl
@[simp] theorem driveLow_stalls : (driveLow e).stalls = e.stalls := rfl
@[simp] theorem driveLow_delays : (driveLow e).delays = e.delays := rfl
@[simp] theorem driveLow_tr : (driveLow e).tr = e.tr := rfl

@[simp] theorem release_drv : (release e).drv = .released := rfl
@[simp] theorem release_crit : (release e).crit = e.crit := rfl
@[simp] theorem release_now : (release e).now = e.now := rfl
@[simp] theorem release_log : (release e).log = (e.now, .release) :: e.log := rfl
@[simp] theorem release_wire : (release e).wire = e.wire := rfl
@[simp] theorem release_samples : (release e).samples = e.samples := rfl
@[simp] theorem release_stalls : (release e).stalls = e.stalls := rfl
@[simp] theorem release_delays : (release e).delays = e.delays := rfl
@[simp] theorem release_tr : (release e).tr = e.tr := rfl

@[simp] theorem sample_drv : (sample e).drv = e.drv := rfl
@[simp] theorem sample_crit : (sample e).crit = e.crit := rfl
@[simp] theorem sample_now : (sample e).now = e.now := rfl
@[simp] theorem sample_log : (sample e).log = (e.now, .sample (e.answer 0)) :: e.log := rfl
@[simp] theorem sample_wire : (sample e).wire = e.wire.tail := rfl
@[simp] theorem sample_samples : (sample e).samples = e.samples + 1 := rfl
@[simp] theorem sample_stalls : (sample e).stalls = e.stalls := rfl
@[simp] theorem sample_delays : (sample e).delays = e.delays := rfl
@[simp] theorem sample_tr : (sample e).tr = { e.tr with v := e.answer 0 } := rfl

@[simp] theorem countDelay_drv : (countDelay e).drv = e.drv := rfl
@[simp] theorem countDelay_crit : (countDelay e).crit = e.crit := rfl
@[simp] theorem countDelay_now : (countDelay e).now = e.now := rfl
@[simp] theorem countDelay_log : (countDelay e).log = e.log := rfl
@[simp] theorem countDelay_wire : (countDelay e).wire = e.wire := rfl
@[simp] theorem countDelay_samples : (countDelay e).samples = e.samples := rfl
@[simp] theorem countDelay_stalls : (countDelay e).stalls = e.stalls.tail := rfl
@[simp] theorem countDelay_delays : (countDelay e).delays = e.delays + 1 := rfl
@[simp] theorem countDelay_tr : (countDelay e).tr = e.tr := rfl

@[simp] theorem startDelay_drv (c : Config) (n : Nat) : (startDelay c n e).drv = e.drv := rfl
@[simp] theorem startDelay_crit (c : Config) (n : Nat) : (startDelay c n e).crit = e.crit := rfl
@[simp] theorem startDelay_now (c : Config) (n : Nat) : (startDelay c n e).now = e.now + late c e := rfl
@[simp] theorem startDelay_log (c : Config) (n : Nat) : (startDelay c n e).log = (e.now, .delay n) :: e.log := rfl
@[simp] theorem startDelay_wire (c : Config) (n : Nat) : (startDelay c n e).wire = e.wire := rfl
@[simp] theorem startDelay_samples (c : Config) (n : Nat) : (startDelay c n e).samples = e.samples := rfl
@[simp] theorem startDelay_stalls (c : Config) (n : Nat) : (startDelay c n e).stalls = e.stalls.tail := rfl
@[simp] theorem startDelay_delays (c : Config) (n : Nat) : (startDelay c n e).delays = e.delays + 1 := rfl
@[simp] theorem startDelay_tr (c : Config) (n : Nat) : (startDelay c n e).tr = { e.tr with timer := n } := rfl

@[simp] theorem tick_drv : (tick e).drv = e.drv := rfl
@[simp] theorem tick_crit : (tick e).crit = e.crit := rfl
@[simp] theorem tick_now : (tick e).now = e.now + 1 := rfl
@[simp] theorem tick_log : (tick e).log = e.log := rfl
@[simp] theorem tick_wire : (tick e).wire = e.wire := rfl
@[simp] theorem tick_samples : (tick e).samples = e.samples := rfl
@[simp] theorem tick_stalls : (tick e).stalls = e.stalls := rfl
@[simp] theorem tick_delays : (tick e).delays = e.delays := rfl
@[simp] theorem tick_tr : (tick e).tr = { e.tr with timer := e.tr.timer - 1 } := rfl

@[simp] theorem delay_drv (c : Config) (n : Nat) : (delay c n e).drv = e.drv := rfl
@[simp] theorem delay_crit (c : Config) (n : Nat) : (delay c n e).crit = e.crit := rfl
@[simp] theorem delay_now (c : Config) (n : Nat) : (delay c n e).now = e.now + late c e + n := rfl
@[simp] theorem delay_log (c : Config) (n : Nat) : (delay c n e).log = (e.now, .delay n) :: e.log := rfl
@[simp] theorem delay_wire (c : Config) (n : Nat) : (delay c n e).wire = e.wire := rfl
@[simp] theorem delay_samples (c : Config) (n : Nat) : (delay c n e).samples = e.samples := rfl
@[simp] theorem delay_stalls (c : Config) (n : Nat) : (delay c n e).stalls = e.stalls.tail := rfl
@[simp] theorem delay_delays (c : Config) (n : Nat) : (delay c n e).delays = e.delays + 1 := rfl
@[simp] theorem delay_tr (c : Config) (n : Nat) : (delay c n e).tr = { e.tr with timer := 0 } := rfl

@[simp] theorem gap_drv (c : Config) : (gap c e).drv = e.drv := rfl
@[simp] theorem gap_crit (c : Config) : (gap c e).crit = e.crit := rfl
@[simp] theorem gap_now (c : Config) : (gap c e).now = e.now + c.gap := rfl
@[simp] theorem gap_log (c : Config) : (gap c e).log = e.log := rfl
@[simp] theorem gap_wire (c : Config) : (gap c e).wire = e.wire := rfl
@[simp] theorem gap_samples (c : Config) : (gap c e).samples = e.samples := rfl
@[simp] theorem gap_stalls (c : Config) : (gap c e).stalls = e.stalls := rfl
@[simp] theorem gap_delays (c : Config) : (gap c e).delays = e.delays := rfl
@[simp] theorem gap_tr (c : Config) : (gap c e).tr = e.tr := rfl

@[simp] theorem loadShift_drv (byte : Byte) : (loadShift byte e).drv = e.drv := rfl
@[simp] theorem loadShift_crit (byte : Byte) : (loadShift byte e).crit = e.crit := rfl
@[simp] theorem loadShift_now (byte : Byte) : (loadShift byte e).now = e.now := rfl
@[simp] theorem loadShift_log (byte : Byte) : (loadShift byte e).log = e.log := rfl
@[simp] theorem loadShift_wire (byte : Byte) : (loadShift byte e).wire = e.wire := rfl
@[simp] theorem loadShift_samples (byte : Byte) : (loadShift byte e).samples = e.samples := rfl
@[simp] theorem loadShift_stalls (byte : Byte) : (loadShift byte e).stalls = e.stalls := rfl
@[simp] theorem loadShift_delays (byte : Byte) : (loadShift byte e).delays = e.delays := rfl
@[simp] theorem loadShift_tr (byte : Byte) : (loadShift byte e).tr = { e.tr with shift := byte, bitcnt := 0 } := rfl

@[simp] theorem shiftOut_drv : (shiftOut e).drv = e.drv := rfl
@[simp] theorem shiftOut_crit : (shiftOut e).crit = e.crit := rfl
@[simp] theorem shiftOut_now : (shiftOut e).now = e.now := rfl
@[simp] theorem shiftOut_log : (shiftOut e).log = e.log := rfl
@[simp] theorem shiftOut_wire : (shiftOut e).wire = e.wire := rfl
@[simp] theorem shiftOut_samples : (shiftOut e).samples = e.samples := rfl
@[simp] theorem shiftOut_stalls : (shiftOut e).stalls = e.stalls := rfl
@[simp] theorem shiftOut_delays : (shiftOut e).delays = e.delays := rfl
@[simp] theorem shiftOut_tr :
    (shiftOut e).tr = { e.tr with shift := shiftRight e.tr.shift, bitcnt := e.tr.bitcnt + 1 } := rfl

@[simp] theorem shiftIn_drv : (shiftIn e).drv = e.drv := rfl
@[simp] theorem shiftIn_crit : (shiftIn e).crit = e.crit := rfl
@[simp] theorem shiftIn_now : (shiftIn e).now = e.now := rfl
@[simp] theorem shiftIn_log : (shiftIn e).log = e.log := rfl
@[simp] theorem shiftIn_wire : (shiftIn e).wire = e.wire := rfl
@[simp] theorem shiftIn_samples : (shiftIn e).samples = e.samples := rfl
@[simp] theorem shiftIn_stalls : (shiftIn e).stalls = e.stalls := rfl
@[simp] theorem shiftIn_delays : (shiftIn e).delays = e.delays := rfl
@[simp] theorem shiftIn_tr :
    (shiftIn e).tr = { e.tr with shift := insertTop e.tr.v e.tr.shift, bitcnt := e.tr.bitcnt + 1 } := rfl

@[simp] theorem startRise_drv : (startRise e).drv = e.drv := rfl
@[simp] theorem startRise_crit : (startRise e).crit = e.crit := rfl
@[simp] theorem startRise_now : (startRise e).now = e.now := rfl
@[simp] theorem startRise_log : (startRise e).log = e.log := rfl
@[simp] theorem startRise_wire : (startRise e).wire = e.wire := rfl
@[simp] theorem startRise_samples : (startRise e).samples = e.samples := rfl
@[simp] theorem startRise_stalls : (startRise e).stalls = e.stalls := rfl
@[simp] theorem startRise_delays : (startRise e).delays = e.delays := rfl
@[simp] theorem startRise_tr : (startRise e).tr = { e.tr with rise := 0 } := rfl

@[simp] theorem startFall_drv : (startFall e).drv = e.drv := rfl
@[simp] theorem startFall_crit : (startFall e).crit = e.crit := rfl
@[simp] theorem startFall_now : (startFall e).now = e.now := rfl
@[simp] theorem startFall_log : (startFall e).log = e.log := rfl
@[simp] theorem startFall_wire : (startFall e).wire = e.wire := rfl
@[simp] theorem startFall_samples : (startFall e).samples = e.samples := rfl
@[simp] theorem startFall_stalls : (startFall e).stalls = e.stalls := rfl
@[simp] theorem startFall_delays : (startFall e).delays = e.delays := rfl
@[simp] theorem startFall_tr : (startFall e).tr = { e.tr with fall := 0 } := rfl

@[simp] theorem startReadRom_drv : (startReadRom e).drv = e.drv := rfl
@[simp] theorem startReadRom_crit : (startReadRom e).crit = e.crit := rfl
@[simp] theorem startReadRom_now : (startReadRom e).now = e.now := rfl
@[simp] theorem startReadRom_log : (startReadRom e).log = e.log := rfl
@[simp] theorem startReadRom_wire : (startReadRom e).wire = e.wire := rfl
@[simp] theorem startReadRom_samples : (startReadRom e).samples = e.samples := rfl
@[simp] theorem startReadRom_stalls : (startReadRom e).stalls = e.stalls := rfl
@[simp] theorem startReadRom_delays : (startReadRom e).delays = e.delays := rfl
@[simp] theorem startReadRom_tr : (startReadRom e).tr = { e.tr with crc := crcInit, bytecnt := 0 } := rfl

@[simp] theorem takeByte_drv : (takeByte e).drv = e.drv := rfl
@[simp] theorem takeByte_crit : (takeByte e).crit = e.crit := rfl
@[simp] theorem takeByte_now : (takeByte e).now = e.now := rfl
@[simp] theorem takeByte_log : (takeByte e).log = e.log := rfl
@[simp] theorem takeByte_wire : (takeByte e).wire = e.wire := rfl
@[simp] theorem takeByte_samples : (takeByte e).samples = e.samples := rfl
@[simp] theorem takeByte_stalls : (takeByte e).stalls = e.stalls := rfl
@[simp] theorem takeByte_delays : (takeByte e).delays = e.delays := rfl
@[simp] theorem takeByte_tr : (takeByte e).tr = { e.tr with
      buf := e.tr.buf.setIfInBounds e.tr.bytecnt e.tr.shift
      crc := crc8Fold e.tr.crc e.tr.shift
      bytecnt := e.tr.bytecnt + 1 } := rfl

@[simp] theorem startMatch_drv : (startMatch e).drv = e.drv := rfl
@[simp] theorem startMatch_crit : (startMatch e).crit = e.crit := rfl
@[simp] theorem startMatch_now : (startMatch e).now = e.now := rfl
@[simp] theorem startMatch_log : (startMatch e).log = e.log := rfl
@[simp] theorem startMatch_wire : (startMatch e).wire = e.wire := rfl
@[simp] theorem startMatch_samples : (startMatch e).samples = e.samples := rfl
@[simp] theorem startMatch_stalls : (startMatch e).stalls = e.stalls := rfl
@[simp] theorem startMatch_delays : (startMatch e).delays = e.delays := rfl
@[simp] theorem startMatch_tr : (startMatch e).tr = { e.tr with bytecnt := 0 } := rfl

@[simp] theorem countByte_drv : (countByte e).drv = e.drv := rfl
@[simp] theorem countByte_crit : (countByte e).crit = e.crit := rfl
@[simp] theorem countByte_now : (countByte e).now = e.now := rfl
@[simp] theorem countByte_log : (countByte e).log = e.log := rfl
@[simp] theorem countByte_wire : (countByte e).wire = e.wire := rfl
@[simp] theorem countByte_samples : (countByte e).samples = e.samples := rfl
@[simp] theorem countByte_stalls : (countByte e).stalls = e.stalls := rfl
@[simp] theorem countByte_delays : (countByte e).delays = e.delays := rfl
@[simp] theorem countByte_tr : (countByte e).tr = { e.tr with bytecnt := e.tr.bytecnt + 1 } := rfl

@[simp] theorem startPass_drv : (startPass e).drv = e.drv := rfl
@[simp] theorem startPass_crit : (startPass e).crit = e.crit := rfl
@[simp] theorem startPass_now : (startPass e).now = e.now := rfl
@[simp] theorem startPass_log : (startPass e).log = e.log := rfl
@[simp] theorem startPass_wire : (startPass e).wire = e.wire := rfl
@[simp] theorem startPass_samples : (startPass e).samples = e.samples := rfl
@[simp] theorem startPass_stalls : (startPass e).stalls = e.stalls := rfl
@[simp] theorem startPass_delays : (startPass e).delays = e.delays := rfl
@[simp] theorem startPass_tr : (startPass e).tr = { e.tr with newFork := 0 } := rfl

@[simp] theorem startPosition_drv (rom : RomCode) (pos : Nat) : (startPosition rom pos e).drv = e.drv := rfl
@[simp] theorem startPosition_crit (rom : RomCode) (pos : Nat) : (startPosition rom pos e).crit = e.crit := rfl
@[simp] theorem startPosition_now (rom : RomCode) (pos : Nat) : (startPosition rom pos e).now = e.now := rfl
@[simp] theorem startPosition_log (rom : RomCode) (pos : Nat) : (startPosition rom pos e).log = e.log := rfl
@[simp] theorem startPosition_wire (rom : RomCode) (pos : Nat) : (startPosition rom pos e).wire = e.wire := rfl
@[simp] theorem startPosition_samples (rom : RomCode) (pos : Nat) :
    (startPosition rom pos e).samples = e.samples := rfl
@[simp] theorem startPosition_stalls (rom : RomCode) (pos : Nat) : (startPosition rom pos e).stalls = e.stalls := rfl
@[simp] theorem startPosition_delays (rom : RomCode) (pos : Nat) : (startPosition rom pos e).delays = e.delays := rfl
@[simp] theorem startPosition_tr (rom : RomCode) (pos : Nat) :
    (startPosition rom pos e).tr = { e.tr with pos := pos, prev := romBit rom pos } := rfl

@[simp] theorem takeTrue_drv : (takeTrue e).drv = e.drv := rfl
@[simp] theorem takeTrue_crit : (takeTrue e).crit = e.crit := rfl
@[simp] theorem takeTrue_now : (takeTrue e).now = e.now := rfl
@[simp] theorem takeTrue_log : (takeTrue e).log = e.log := rfl
@[simp] theorem takeTrue_wire : (takeTrue e).wire = e.wire := rfl
@[simp] theorem takeTrue_samples : (takeTrue e).samples = e.samples := rfl
@[simp] theorem takeTrue_stalls : (takeTrue e).stalls = e.stalls := rfl
@[simp] theorem takeTrue_delays : (takeTrue e).delays = e.delays := rfl
@[simp] theorem takeTrue_tr : (takeTrue e).tr = { e.tr with b := e.tr.v } := rfl

@[simp] theorem takeComp_drv : (takeComp e).drv = e.drv := rfl
@[simp] theorem takeComp_crit : (takeComp e).crit = e.crit := rfl
@[simp] theorem takeComp_now : (takeComp e).now = e.now := rfl
@[simp] theorem takeComp_log : (takeComp e).log = e.log := rfl
@[simp] theorem takeComp_wire : (takeComp e).wire = e.wire := rfl
@[simp] theorem takeComp_samples : (takeComp e).samples = e.samples := rfl
@[simp] theorem takeComp_stalls : (takeComp e).stalls = e.stalls := rfl
@[simp] theorem takeComp_delays : (takeComp e).delays = e.delays := rfl
@[simp] theorem takeComp_tr : (takeComp e).tr = { e.tr with nb := e.tr.v } := rfl

@[simp] theorem takeDecision_drv (d : Bool × Fin 66) : (takeDecision d e).drv = e.drv := rfl
@[simp] theorem takeDecision_crit (d : Bool × Fin 66) : (takeDecision d e).crit = e.crit := rfl
@[simp] theorem takeDecision_now (d : Bool × Fin 66) : (takeDecision d e).now = e.now := rfl
@[simp] theorem takeDecision_log (d : Bool × Fin 66) : (takeDecision d e).log = e.log := rfl
@[simp] theorem takeDecision_wire (d : Bool × Fin 66) : (takeDecision d e).wire = e.wire := rfl
@[simp] theorem takeDecision_samples (d : Bool × Fin 66) : (takeDecision d e).samples = e.samples := rfl
@[simp] theorem takeDecision_stalls (d : Bool × Fin 66) : (takeDecision d e).stalls = e.stalls := rfl
@[simp] theorem takeDecision_delays (d : Bool × Fin 66) : (takeDecision d e).delays = e.delays := rfl
@[simp] theorem takeDecision_tr (d : Bool × Fin 66) :
    (takeDecision d e).tr = { e.tr with chosen := d.1, newFork := d.2 } := rfl

@[simp] theorem storeChosen_drv : (storeChosen e).drv = e.drv := rfl
@[simp] theorem storeChosen_crit : (storeChosen e).crit = e.crit := rfl
@[simp] theorem storeChosen_now : (storeChosen e).now = e.now := rfl
@[simp] theorem storeChosen_log : (storeChosen e).log = e.log := rfl
@[simp] theorem storeChosen_wire : (storeChosen e).wire = e.wire := rfl
@[simp] theorem storeChosen_samples : (storeChosen e).samples = e.samples := rfl
@[simp] theorem storeChosen_stalls : (storeChosen e).stalls = e.stalls := rfl
@[simp] theorem storeChosen_delays : (storeChosen e).delays = e.delays := rfl
@[simp] theorem storeChosen_tr :
    (storeChosen e).tr = { e.tr with newRom := setRomBit e.tr.newRom e.tr.pos e.tr.chosen } := rfl

@[simp] theorem critEnter_drv (c : Config) : (critEnter c e).drv = e.drv := by
  unfold critEnter; split <;> rfl
@[simp] theorem critEnter_crit (c : Config) : (critEnter c e).crit = if c.hasCritical then true else e.crit := by
  unfold critEnter; split <;> rfl
@[simp] theorem critEnter_now (c : Config) : (critEnter c e).now = e.now := by
  unfold critEnter; split <;> rfl
@[simp] theorem critEnter_log (c : Config) : (critEnter c e).log = if c.hasCritical then (e.now, .critEnter) :: e.log else e.log := by
  unfold critEnter; split <;> rfl
@[simp] theorem critEnter_wire (c : Config) : (critEnter c e).wire = e.wire := by
  unfold critEnter; split <;> rfl
@[simp] theorem critEnter_samples (c : Config) : (critEnter c e).samples = e.samples := by
  unfold critEnter; split <;> rfl
@[simp] theorem critEnter_stalls (c : Config) : (critEnter c e).stalls = e.stalls := by
  unfold critEnter; split <;> rfl
@[simp] theorem critEnter_delays (c : Config) : (critEnter c e).delays = e.delays := by
  unfold critEnter; split <;> rfl
@[simp] theorem critEnter_tr (c : Config) : (critEnter c e).tr = e.tr := by
  unfold critEnter; split <;> rfl

@[simp] theorem critExit_drv (c : Config) : (critExit c e).drv = e.drv := by
  unfold critExit; split <;> rfl
@[simp] theorem critExit_crit (c : Config) : (critExit c e).crit = if c.hasCritical then false else e.crit := by
  unfold critExit; split <;> rfl
@[simp] theorem critExit_now (c : Config) : (critExit c e).now = e.now := by
  unfold critExit; split <;> rfl
@[simp] theorem critExit_log (c : Config) : (critExit c e).log = if c.hasCritical then (e.now, .critExit) :: e.log else e.log := by
  unfold critExit; split <;> rfl
@[simp] theorem critExit_wire (c : Config) : (critExit c e).wire = e.wire := by
  unfold critExit; split <;> rfl
@[simp] theorem critExit_samples (c : Config) : (critExit c e).samples = e.samples := by
  unfold critExit; split <;> rfl
@[simp] theorem critExit_stalls (c : Config) : (critExit c e).stalls = e.stalls := by
  unfold critExit; split <;> rfl
@[simp] theorem critExit_delays (c : Config) : (critExit c e).delays = e.delays := by
  unfold critExit; split <;> rfl
@[simp] theorem critExit_tr (c : Config) : (critExit c e).tr = e.tr := by
  unfold critExit; split <;> rfl

end Engine

section State

variable (s : State)


@[simp] theorem endOperation_cfg (st : Status) : (endOperation st s).cfg = s.cfg := rfl
@[simp] theorem endOperation_regs (st : Status) : (endOperation st s).regs = { s.regs with status := st } := rfl
@[simp] theorem endOperation_eng (st : Status) : (endOperation st s).eng = s.eng := rfl
@[simp] theorem endOperation_seq (st : Status) : (endOperation st s).seq = .idle := rfl
@[simp] theorem endOperation_rspValid (st : Status) : (endOperation st s).rspValid = true := rfl
@[simp] theorem endOperation_host (st : Status) : (endOperation st s).host = s.host := rfl
@[simp] theorem endOperation_inner (st : Status) : (endOperation st s).inner = s.inner := rfl

@[simp] theorem goOn_cfg (op : HostOp) (phase : Phase) : (goOn op phase s).cfg = s.cfg := rfl
@[simp] theorem goOn_regs (op : HostOp) (phase : Phase) : (goOn op phase s).regs = s.regs := rfl
@[simp] theorem goOn_eng (op : HostOp) (phase : Phase) : (goOn op phase s).eng = s.eng := rfl
@[simp] theorem goOn_seq (op : HostOp) (phase : Phase) : (goOn op phase s).seq = .busy op phase := rfl
@[simp] theorem goOn_rspValid (op : HostOp) (phase : Phase) : (goOn op phase s).rspValid = s.rspValid := rfl
@[simp] theorem goOn_host (op : HostOp) (phase : Phase) : (goOn op phase s).host = s.host := rfl
@[simp] theorem goOn_inner (op : HostOp) (phase : Phase) : (goOn op phase s).inner = s.inner := rfl

@[simp] theorem accept_cfg (w : CmdWord) : (accept w s).cfg = s.cfg := rfl
@[simp] theorem accept_regs (w : CmdWord) : (accept w s).regs = s.regs := rfl
@[simp] theorem accept_eng (w : CmdWord) : (accept w s).eng = { s.eng with tr :=
      { s.eng.tr with opReg := hostOp w, argReg := hostArg w, timer := 0 } } := rfl
@[simp] theorem accept_seq (w : CmdWord) : (accept w s).seq = s.seq := rfl
@[simp] theorem accept_rspValid (w : CmdWord) : (accept w s).rspValid = s.rspValid := rfl
@[simp] theorem accept_host (w : CmdWord) : (accept w s).host = s.host := rfl
@[simp] theorem accept_inner (w : CmdWord) : (accept w s).inner = s.inner := rfl

@[simp] theorem powerOnReset_cfg : (powerOnReset s).cfg = s.cfg := rfl
@[simp] theorem powerOnReset_regs : (powerOnReset s).regs = Regs.reset := rfl
@[simp] theorem powerOnReset_eng : (powerOnReset s).eng = { Engine.reset with
      now := s.eng.now, wire := s.eng.wire, samples := s.eng.samples
      stalls := s.eng.stalls, delays := s.eng.delays } := rfl
@[simp] theorem powerOnReset_seq : (powerOnReset s).seq = .idle := rfl
@[simp] theorem powerOnReset_rspValid : (powerOnReset s).rspValid = false := rfl
@[simp] theorem powerOnReset_host : (powerOnReset s).host = s.host := rfl
@[simp] theorem powerOnReset_inner : (powerOnReset s).inner = s.inner := rfl

@[simp] theorem finishReadRom_cfg : (finishReadRom s).cfg = s.cfg := rfl
@[simp] theorem finishReadRom_regs : (finishReadRom s).regs = { s.regs with
      rdata := pack s.eng.tr.buf
      status := if s.eng.tr.crc = 0x00 then .ok else .invalidCrc } := rfl
@[simp] theorem finishReadRom_eng : (finishReadRom s).eng = s.eng := rfl
@[simp] theorem finishReadRom_seq : (finishReadRom s).seq = .idle := rfl
@[simp] theorem finishReadRom_rspValid : (finishReadRom s).rspValid = true := rfl
@[simp] theorem finishReadRom_host : (finishReadRom s).host = s.host := rfl
@[simp] theorem finishReadRom_inner : (finishReadRom s).inner = s.inner := rfl

@[simp] theorem commitPass_cfg : (commitPass s).cfg = s.cfg := rfl
@[simp] theorem commitPass_regs : (commitPass s).regs = { s.regs with
      rom := s.eng.tr.newRom
      forkBit := s.eng.tr.newFork
      rdata := pack s.eng.tr.newRom
      status := .ok } := rfl
@[simp] theorem commitPass_eng : (commitPass s).eng = s.eng := rfl
@[simp] theorem commitPass_seq : (commitPass s).seq = .idle := rfl
@[simp] theorem commitPass_rspValid : (commitPass s).rspValid = true := rfl
@[simp] theorem commitPass_host : (commitPass s).host = s.host := rfl
@[simp] theorem commitPass_inner : (commitPass s).inner = s.inner := rfl

@[simp] theorem illegalCommand_cfg : (illegalCommand s).cfg = s.cfg := rfl
@[simp] theorem illegalCommand_regs : (illegalCommand s).regs = { s.regs with status := .illegalCmd } := rfl
@[simp] theorem illegalCommand_eng : (illegalCommand s).eng = s.eng := rfl
@[simp] theorem illegalCommand_seq : (illegalCommand s).seq = .idle := rfl
@[simp] theorem illegalCommand_rspValid : (illegalCommand s).rspValid = true := rfl
@[simp] theorem illegalCommand_host : (illegalCommand s).host = s.host := rfl
@[simp] theorem illegalCommand_inner : (illegalCommand s).inner = s.inner := rfl

end State

end Sys2Proof.Machine
end

