-- ==== Sys2Proof/Laws/Ops.lean ====
section
/-! SUPPORT. One lemma per shared operation of Machine/Ops.lean that says what it can do: the answers of the
environment, the time base, the gate, the refusal of a bad configuration, the end of an operation. -/

namespace Sys2Proof.Machine

/-! ## The answers of the environment -/

/-- What a `Sample` will be answered depends on the list and the counter alone. -/
theorem answer_congr {e e' : Engine} (hw : e'.wire = e.wire) (hs : e'.samples = e.samples) (k : Nat) :
    e'.answer k = e.answer k := by
  unfold Engine.answer; rw [hw, hs]

/-- With `n` answers used up the next ones are those `n` further on. -/
theorem answer_drop {e e' : Engine} {n : Nat} (hw : e'.wire = e.wire.drop n) (hs : e'.samples = e.samples + n)
    (k : Nat) : e'.answer k = e.answer (n + k) := by
  unfold Engine.answer; rw [hw, hs, List.getElem?_drop, Nat.add_assoc]

/-- A sample uses up one answer. -/
theorem sample_answer (e : Engine) (k : Nat) : (sample e).answer k = e.answer (k + 1) := by
  rw [answer_drop (e := e) (n := 1) (by simp) (by simp), Nat.add_comm]

/-! ## The time base -/

/-- How late a `Delay` will be depends on the list and the counter alone: with `m` delays past, the next ones are those
`m` further on. -/
theorem stall_drop {e e' : Engine} {m : Nat} (hs : e'.stalls = e.stalls.drop m) (hd : e'.delays = e.delays + m)
    (k : Nat) : e'.stall k = e.stall (m + k) := by
  unfold Engine.stall; rw [hs, hd, List.getElem?_drop, Nat.add_assoc]

/-- No delay from here on to the end of the region is late: `crit` is 1 and honoured, or the time base is never late. -/
def Steady (c : Config) (e : Engine) : Prop := (c.honoursCrit = true ∧ e.crit = true) ∨ ∀ k, e.stall k = 0

/-- Such a delay is exact (R13). -/
theorem Steady.late {c : Config} {e : Engine} (h : Steady c e) : late c e = 0 := by
  unfold Machine.late
  rcases h with ⟨h, h'⟩ | h
  · simp [h, h']
  · simp [h 0]

/-- Within a region that stays so, whatever is recorded and answered. -/
theorem Steady.of_drop {c : Config} {e e' : Engine} {m : Nat} (h : Steady c e) (hc : e'.crit = e.crit)
    (hs : e'.stalls = e.stalls.drop m) (hd : e'.delays = e.delays + m) : Steady c e' := by
  rcases h with h | h
  · exact .inl ⟨h.1, hc.trans h.2⟩
  · exact .inr fun k => by rw [stall_drop hs hd, h]

/-- No event but a delay changes the time base's account. -/
theorem Steady.same {c : Config} {e e' : Engine} (h : Steady c e) (hc : e'.crit = e.crit)
    (hs : e'.stalls = e.stalls) (hd : e'.delays = e.delays) : Steady c e' :=
  h.of_drop (m := 0) hc (by simpa using hs) (by simpa using hd)

/-- After a delay as before it. -/
theorem Steady.delay {c : Config} {e : Engine} (h : Steady c e) (n : Nat) : Steady c (delay c n e) :=
  h.of_drop (m := 1) rfl (by simp) rfl

/-! ## Configuration, gate, end -/

/-- A meaning runs under good parameters. -/
theorem perform_of_wf {s : State} (h : s.cfg.wf = true) (f : State → State) : perform s f = .next (f s) := by
  simp [perform, h]

/-- Bad parameters are refused (R18). -/
theorem perform_of_not_wf {s : State} (h : s.cfg.wf = false) (f : State → State) :
    perform s f = .refused .badConfiguration := by
  simp [perform, h]

/-- If a meaning answers a next state, it is the one the meaning gives, and the parameters are good. -/
theorem perform_eq_next {s t : State} {f : State → State} (h : perform s f = .next t) :
    s.cfg.wf = true ∧ t = f s := by
  unfold perform at h
  split at h
  · exact ⟨‹_›, (Host.Outcome.next.inj h).symm⟩
  · cases h

/-- The gate lets an initialised block through (R104). -/
theorem gated_open {s : State} (h : s.regs.initialized = true) (st : Status) (k : State → State) :
    gated st s k = k s := by
  simp [gated, h]

/-- The gate stops an uninitialised block (R104). -/
theorem gated_closed {s : State} (h : s.regs.initialized = false) (st : Status) (k : State → State) :
    gated st s k = endOperation st s := by
  simp [gated, h]

/-- What the constraints of R7 say, as inequalities. -/
theorem config_wf_iff (c : Config) :
    c.wf = true ↔ c.tLow1 < c.tSample ∧ c.tSample < c.tSlot ∧ c.tRiseMax + c.tPresMax ≤ c.tRsth := by
  simp [Config.wf, and_assoc]

end Sys2Proof.Machine
end

