-- ==== Sys2Proof/Laws/Slots.lean ====
section
/-! SUPPORT. What the primitives do, each said once: one slot (R130 to R132), and slots one after another as bytes,
codes and search positions (R136, R140, R141, R153, R156, R172). -/

namespace Sys2Proof.Machine

open Sys2Proof.Terms

/-- The delays of a wave followed by another. -/
@[simp] theorem delaysIn_append (xs ys : Wave) : delaysIn (xs ++ ys) = delaysIn xs + delaysIn ys := by
  simp [delaysIn]

/-- No delays in no events. -/
@[simp] theorem delaysIn_nil : delaysIn [] = 0 := rfl

/-- A delay counts. -/
@[simp] theorem delaysIn_delay (t n : Nat) (xs : Wave) : delaysIn ((t, .delay n) :: xs) = delaysIn xs + 1 := by
  simp [delaysIn]

/-- Nothing else does. -/
@[simp] theorem delaysIn_driveLow (t : Nat) (xs : Wave) : delaysIn ((t, .driveLow) :: xs) = delaysIn xs := by
  simp [delaysIn]
@[simp] theorem delaysIn_release (t : Nat) (xs : Wave) : delaysIn ((t, .release) :: xs) = delaysIn xs := by
  simp [delaysIn]
@[simp] theorem delaysIn_sample (t : Nat) (v : Bool) (xs : Wave) : delaysIn ((t, .sample v) :: xs) = delaysIn xs := by
  simp [delaysIn]
@[simp] theorem delaysIn_critEnter (t : Nat) (xs : Wave) : delaysIn ((t, .critEnter) :: xs) = delaysIn xs := by
  simp [delaysIn]
@[simp] theorem delaysIn_critExit (t : Nat) (xs : Wave) : delaysIn ((t, .critExit) :: xs) = delaysIn xs := by
  simp [delaysIn]
@[simp] theorem delaysIn_configure (t : Nat) (l : BitVec 64) (ok : Bool) (xs : Wave) :
    delaysIn ((t, .configure l ok) :: xs) = delaysIn xs := by
  simp [delaysIn]

/-- Where time is kept, no delay inside a region is late. -/
theorem OnTime.steady {c : Config} {e : Engine} (h : OnTime c e) : Steady c (critEnter c e) := by
  rcases h with ⟨h, h'⟩ | h
  · exact .inl ⟨h', by simp [h]⟩
  · exact .inr fun k => by rw [stall_drop (e := e) (m := 0) (by simp) (by simp), Nat.zero_add]; exact h k

/-- What a piece of an operation does from `e` to `e'` to the trace, the clock and the environment: it records `wave`,
takes `duration` and uses up `samples` answers and the time base's account of its delays; the latched command stays. -/
structure Recorded (e e' : Engine) (wave : Wave) (duration samples : Nat) : Prop where
  log : e'.log = wave.reverse ++ e.log
  clock : e'.now = e.now + duration
  answers : e'.wire = e.wire.drop samples
  sampled : e'.samples = e.samples + samples
  stalls : e'.stalls = e.stalls.drop (delaysIn wave)
  delays : e'.delays = e.delays + delaysIn wave
  opReg : e'.tr.opReg = e.tr.opReg
  argReg : e'.tr.argReg = e.tr.argReg

/-- What a primitive, or several one after another, does from `e` to `e'`, the registers of R36 other than the latched
command aside: what is recorded, and the line is left released and no region open. -/
structure EngineRan (e e' : Engine) (wave : Wave) (duration samples : Nat) : Prop
    extends Recorded e e' wave duration samples where
  released : e'.drv = .released
  closed : e'.crit = false

/-- After what has been answered, the next answers are those further on. -/
theorem Recorded.answer {e e' : Engine} {wave : Wave} {d n : Nat} (h : Recorded e e' wave d n) (k : Nat) :
    e'.answer k = e.answer (n + k) := answer_drop h.answers h.sampled k

/-- Time is kept after a piece of an operation as before it. -/
theorem Recorded.onTime {c : Config} {e e' : Engine} {wave : Wave} {d n : Nat} (h : Recorded e e' wave d n)
    (ht : OnTime c e) : OnTime c e' :=
  ht.imp_right fun h0 k => by rw [stall_drop h.stalls h.delays, h0]

/-- One piece after another. -/
theorem Recorded.trans {e e' e'' : Engine} {w w' : Wave} {d d' n n' : Nat} (h : Recorded e e' w d n)
    (h' : Recorded e' e'' w' d' n') : Recorded e e'' (w ++ w') (d + d') (n + n') where
  log := by rw [h'.log, h.log, List.reverse_append, List.append_assoc]
  clock := by rw [h'.clock, h.clock, Nat.add_assoc]
  answers := by rw [h'.answers, h.answers, List.drop_drop]
  sampled := by rw [h'.sampled, h.sampled, Nat.add_assoc]
  stalls := by rw [h'.stalls, h.stalls, List.drop_drop, delaysIn_append]
  delays := by rw [h'.delays, h.delays, delaysIn_append, Nat.add_assoc]
  opReg := h'.opReg.trans h.opReg
  argReg := h'.argReg.trans h.argReg

/-- One run after another. -/
theorem EngineRan.trans {e e' e'' : Engine} {w w' : Wave} {d d' n n' : Nat} (h : EngineRan e e' w d n)
    (h' : EngineRan e' e'' w' d' n') : EngineRan e e'' (w ++ w') (d + d') (n + n') where
  toRecorded := h.toRecorded.trans h'.toRecorded
  released := h'.released
  closed := h'.closed

/-- An update of the registers of R36 other than the latched command, before a run, leaves what is said of the run. -/
theorem EngineRan.ofTr {e e' : Engine} {tr : Transients} {wave : Wave} {d n : Nat}
    (h : EngineRan { e with tr := tr } e' wave d n) (ho : tr.opReg = e.tr.opReg) (ha : tr.argReg = e.tr.argReg) :
    EngineRan e e' wave d n where
  log := h.log
  clock := h.clock
  answers := h.answers
  sampled := h.sampled
  stalls := h.stalls
  delays := h.delays
  released := h.released
  closed := h.closed
  opReg := h.opReg.trans ho
  argReg := h.argReg.trans ha

/-- An update of those registers after a run leaves what is said of the run. -/
theorem EngineRan.withTr {e e' : Engine} {wave : Wave} {d n : Nat} (h : EngineRan e e' wave d n) {tr : Transients}
    (ho : tr.opReg = e'.tr.opReg) (ha : tr.argReg = e'.tr.argReg) :
    EngineRan e { e' with tr := tr } wave d n where
  log := h.log
  clock := h.clock
  answers := h.answers
  sampled := h.sampled
  stalls := h.stalls
  delays := h.delays
  released := h.released
  closed := h.closed
  opReg := ho.trans h.opReg
  argReg := ha.trans h.argReg

/-- Two entries used up. -/
theorem tail_tail {α : Type} (xs : List α) : xs.tail.tail = xs.drop 2 := by
  rw [← List.drop_one, ← List.drop_one, List.drop_drop]

/-! ## One slot -/

/-- A write slot (R130, R131): its waveform, its length, no sample; of the registers only `timer`. -/
theorem writeSlot_ran {c : Config} (hc : c.wf = true) (bit : Bool) {e : Engine} (he : e.crit = false)
    (ht : OnTime c e) :
    EngineRan e (writeSlot c bit e) ((Slot.write bit).wave c e.now) ((Slot.write bit).length c) 0 ∧
      (writeSlot c bit e).tr = { e.tr with timer := 0 } := by
  obtain ⟨h1, h2, -⟩ := (config_wf_iff c).1 hc
  have h3 : c.tLow1 + (c.tSlot - c.tLow1) = c.tSlot := by omega
  have s1 : Steady c (driveLow (critEnter c e)) := (OnTime.steady ht).same rfl rfl rfl
  have s2 : ∀ n, Steady c (release (delay c n (driveLow (critEnter c e)))) := fun n => (s1.delay n).same rfl rfl rfl
  have l1 := s1.late
  have l2 := fun n => (s2 n).late
  refine ⟨?_, ?_⟩
  · cases bit <;> cases hcr : c.hasCritical <;> refine ⟨⟨?_, ?_, ?_, ?_, ?_, ?_, ?_, ?_⟩, ?_, ?_⟩ <;>
      simp [writeSlot, writeLowTime, writeTailTime, Slot.wave, Slot.length, write0Wave, write1Wave, region, hcr, he, h3, l1,
        l2, tail_tail, Nat.add_assoc]
  · simp [writeSlot]

/-- A read slot (R132): its waveform with the level answered, its length, one sample; of the registers only `timer` and
`v`, which holds the level. -/
theorem readSlot_ran {c : Config} (hc : c.wf = true) {e : Engine} (he : e.crit = false) (ht : OnTime c e) :
    EngineRan e (readSlot c e) ((Slot.read (e.answer 0)).wave c e.now) ((Slot.read (e.answer 0)).length c) 1 ∧
      (readSlot c e).tr = { e.tr with timer := 0, v := e.answer 0 } := by
  obtain ⟨h1, h2, -⟩ := (config_wf_iff c).1 hc
  have h3 : c.tLow1 + (c.tSample - c.tLow1) = c.tSample := by omega
  have h4 : c.tSample + (c.tSlot - c.tSample) = c.tSlot := by omega
  have s1 : Steady c (driveLow (critEnter c e)) := (OnTime.steady ht).same rfl rfl rfl
  have s2 : Steady c (release (delay c c.tLow1 (driveLow (critEnter c e)))) := (s1.delay _).same rfl rfl rfl
  have s3 : Steady c (sample (delay c (c.tSample - c.tLow1) (release (delay c c.tLow1 (driveLow (critEnter c e)))))) :=
    (s2.delay _).same rfl rfl rfl
  have l1 := s1.late
  have l2 := s2.late
  have l3 := s3.late
  refine ⟨?_, ?_⟩
  · cases hcr : c.hasCritical <;> refine ⟨⟨?_, ?_, ?_, ?_, ?_, ?_, ?_, ?_⟩, ?_, ?_⟩ <;>
      simp [readSlot, Slot.wave, Slot.length, readWave, region, hcr, he, h3, h4, l1, l2, l3, tail_tail,
        Nat.add_assoc, Engine.answer]
  · simp [readSlot, Engine.answer]

/-! ## Slots one after another -/

/-- The waveform of slots followed by further slots (R136). -/
theorem slotsWave_append (c : Config) {xs : List Slot} (ys : List Slot) (h : xs ≠ []) (t : Nat) :
    slotsWave c (xs ++ ys) t = slotsWave c xs t ++ slotsWave c ys (t + slotsLength c xs + c.gap) := by
  induction xs generalizing t with
  | nil => exact absurd rfl h
  | cons x rest ih =>
    by_cases hr : rest = []
    · subst hr
      simp [slotsWave, slotsLength]
    · have hl : 0 < rest.length := List.length_pos_iff.2 hr
      have e : t + x.length c + c.gap + slotsLength c rest + c.gap = t + slotsLength c (x :: rest) + c.gap := by
        have : rest.length * c.gap = (rest.length - 1) * c.gap + c.gap := by
          rw [← Nat.succ_mul]
          congr 1
          omega
        simp only [slotsLength, List.map_cons, List.sum_cons, List.length_cons, Nat.add_sub_cancel]
        omega
      simp only [List.cons_append, slotsWave]
      rw [ih hr, e, List.append_assoc]

/-- The length of slots followed by further slots (R136). -/
theorem slotsLength_append (c : Config) {xs ys : List Slot} (h : xs ≠ []) (h' : ys ≠ []) :
    slotsLength c (xs ++ ys) = slotsLength c xs + c.gap + slotsLength c ys := by
  have h1 : 0 < xs.length := List.length_pos_iff.2 h
  have h2 : 0 < ys.length := List.length_pos_iff.2 h'
  have e : (xs.length + ys.length - 1) * c.gap = (xs.length - 1) * c.gap + c.gap + (ys.length - 1) * c.gap := by
    rw [← Nat.succ_mul, ← Nat.add_mul]
    congr 1
    omega
  simp only [slotsLength, List.map_append, List.sum_append, List.length_append]
  omega

/-- The reads of slots followed by further slots. -/
@[simp] theorem slotReads_append (xs ys : List Slot) : slotReads (xs ++ ys) = slotReads xs + slotReads ys := by
  simp [slotReads]

/-- No reads in no slots. -/
@[simp] theorem slotReads_nil : slotReads [] = 0 := rfl

/-- A write slot reads nothing. -/
@[simp] theorem slotReads_write (bit : Bool) (xs : List Slot) : slotReads (.write bit :: xs) = slotReads xs := by
  simp [slotReads]

/-- A read slot reads once. -/
@[simp] theorem slotReads_read (bit : Bool) (xs : List Slot) : slotReads (.read bit :: xs) = slotReads xs + 1 := by
  simp [slotReads]

/-- The engine has run these slots one after another, the gap between them (R136). -/
def SlotsRan (c : Config) (e e' : Engine) (slots : List Slot) : Prop :=
  EngineRan e e' (slotsWave c slots e.now) (slotsLength c slots) (slotReads slots)

/-- One write slot as a list of slots. -/
theorem writeSlot_slots {c : Config} (hc : c.wf = true) (bit : Bool) {e : Engine} (he : e.crit = false)
    (ht : OnTime c e) : SlotsRan c e (writeSlot c bit e) [.write bit] := by
  have h := (writeSlot_ran hc bit he ht).1
  simpa [SlotsRan, slotsWave, slotsLength] using h

/-- One read slot as a list of slots. -/
theorem readSlot_slots {c : Config} (hc : c.wf = true) {e : Engine} (he : e.crit = false) (ht : OnTime c e) :
    SlotsRan c e (readSlot c e) [.read (e.answer 0)] := by
  have h := (readSlot_ran hc he ht).1
  simpa [SlotsRan, slotsWave, slotsLength] using h

/-- Slots, then the gap, then further slots. -/
theorem SlotsRan.gap_trans {c : Config} {e e' e'' : Engine} {xs ys : List Slot} (hx : xs ≠ []) (hy : ys ≠ [])
    (h : SlotsRan c e e' xs) (h' : SlotsRan c (gap c e') e'' ys) : SlotsRan c e e'' (xs ++ ys) where
  log := by
    rw [h'.log, gap_log, h.log, slotsWave_append c ys hx, gap_now, h.clock, List.reverse_append, List.append_assoc]
  clock := by rw [h'.clock, gap_now, h.clock, slotsLength_append c hx hy]; omega
  answers := by rw [h'.answers, gap_wire, h.answers, List.drop_drop, slotReads_append]
  sampled := by rw [h'.sampled, gap_samples, h.sampled, slotReads_append, Nat.add_assoc]
  stalls := by
    rw [h'.stalls, gap_stalls, h.stalls, List.drop_drop, slotsWave_append c ys hx, gap_now, h.clock, delaysIn_append]
  delays := by
    rw [h'.delays, gap_delays, h.delays, slotsWave_append c ys hx, gap_now, h.clock, delaysIn_append, Nat.add_assoc]
  released := h'.released
  closed := h'.closed
  opReg := by rw [h'.opReg, gap_tr, h.opReg]
  argReg := by rw [h'.argReg, gap_tr, h.argReg]

/-- Updating the transient registers after slots. -/
theorem SlotsRan.withTr {c : Config} {e e' : Engine} {xs : List Slot} (h : SlotsRan c e e' xs) {tr : Transients}
    (ho : tr.opReg = e'.tr.opReg) (ha : tr.argReg = e'.tr.argReg) : SlotsRan c e { e' with tr := tr } xs :=
  EngineRan.withTr h ho ha

/-- Updating the transient registers before slots. -/
theorem SlotsRan.ofTr {c : Config} {e e' : Engine} {tr : Transients} {xs : List Slot}
    (h : SlotsRan c { e with tr := tr } e' xs) (ho : tr.opReg = e.tr.opReg) (ha : tr.argReg = e.tr.argReg) :
    SlotsRan c e e' xs :=
  EngineRan.ofTr h ho ha

end Sys2Proof.Machine
end

