-- ==== Sys2Proof/Laws/Bytes.lean ====
section
/-! SUPPORT. What the byte operations do, each said once: eight write slots (R140), eight read slots (R141), the eight
bytes of read_rom (R153) and of match_rom (R156). -/

namespace Sys2Proof.Machine

open Sys2Proof.Terms

/-! ## A byte out -/

/-- Bits of a list of write slots, the first apart. -/
theorem range_succ_map_write (n : Nat) (f : Nat → Bool) :
    (List.range (n + 1)).map (fun i => Slot.write (f i)) =
      [.write (f 0)] ++ (List.range n).map fun i => Slot.write (f (i + 1)) := by
  rw [List.range_succ_eq_map]
  simp [Function.comp_def]

/-- Bits of a list of read slots, the first apart. -/
theorem range_succ_map_read (n : Nat) (f : Nat → Bool) :
    (List.range (n + 1)).map (fun i => Slot.read (f i)) =
      [.read (f 0)] ++ (List.range n).map fun i => Slot.read (f (i + 1)) := by
  rw [List.range_succ_eq_map]
  simp [Function.comp_def]

/-- A list of slots of at least one bit is not empty. -/
theorem range_succ_map_ne_nil {α : Type} (n : Nat) (f : Nat → α) : (List.range (n + 1)).map f ≠ [] := by simp

/-- The gap before a bit of a byte: none before the first, `GAP` before the others. -/
@[simp] theorem bitGap_crit (c : Config) (e : Engine) : (bitGap c e).crit = e.crit := by
  unfold bitGap; split <;> rfl

/-- The gap is no event. -/
@[simp] theorem bitGap_tr (c : Config) (e : Engine) : (bitGap c e).tr = e.tr := by
  unfold bitGap; split <;> rfl

/-- The gap uses up no answer. -/
@[simp] theorem bitGap_answer (c : Config) (e : Engine) (k : Nat) : (bitGap c e).answer k = e.answer k := by
  unfold bitGap; split <;> rfl

/-- The gap leaves the time base as it is. -/
theorem bitGap_onTime {c : Config} {e : Engine} (h : OnTime c e) : OnTime c (bitGap c e) := by
  unfold bitGap; split <;> exact h

/-- Between two bits the gap passes (R136). -/
theorem bitGap_of_ne {c : Config} {e : Engine} (h : e.tr.bitcnt ≠ 0) : bitGap c e = gap c e := by simp [bitGap, h]

/-- Before the first bit none does. -/
theorem bitGap_of_zero {c : Config} {e : Engine} (h : e.tr.bitcnt = 0) : bitGap c e = e := by simp [bitGap, h]

/-- One bit of `send_byte` (R140). -/
theorem sendBit_ran {c : Config} (hc : c.wf = true) {e : Engine} (he : e.crit = false)
    (ht : OnTime c e) :
    SlotsRan c (bitGap c e) (shiftOut (writeSlot c (e.tr.shift.getLsbD 0) (bitGap c e)))
        [.write (e.tr.shift.getLsbD 0)] ∧
      (shiftOut (writeSlot c (e.tr.shift.getLsbD 0) (bitGap c e))).tr =
        { e.tr with shift := e.tr.shift >>> 1, bitcnt := e.tr.bitcnt + 1, timer := 0 } := by
  have hcr : (bitGap c e).crit = false := by simpa using he
  refine ⟨(writeSlot_slots hc _ hcr (bitGap_onTime ht)).withTr rfl rfl, ?_⟩
  have h := (writeSlot_ran hc (e.tr.shift.getLsbD 0) hcr (bitGap_onTime ht)).2
  rw [bitGap_tr] at h
  simp only [shiftOut, h, shiftRight]

/-- `n + 1` write slots of the byte in `shift` (R140). -/
theorem sendBits_ran {c : Config} (hc : c.wf = true) (n : Nat) {e : Engine} (he : e.crit = false)
    (ht : OnTime c e) :
    SlotsRan c (bitGap c e) (sendBits c (n + 1) e)
        ((List.range (n + 1)).map fun i => .write (e.tr.shift.getLsbD i)) ∧
      (sendBits c (n + 1) e).tr =
        { e.tr with shift := e.tr.shift >>> (n + 1), bitcnt := e.tr.bitcnt + (n + 1), timer := 0 } := by
  induction n generalizing e with
  | zero => exact sendBit_ran hc he ht
  | succ n ih =>
    obtain ⟨hout, hregs⟩ := sendBit_ran hc he ht
    rw [sendBits]
    generalize shiftOut (writeSlot c (e.tr.shift.getLsbD 0) (bitGap c e)) = e1 at hout hregs ⊢
    obtain ⟨h2, h3⟩ := ih hout.closed (hout.onTime (bitGap_onTime ht))
    rw [bitGap_of_ne (by simp [hregs])] at h2
    refine ⟨?_, ?_⟩
    · have := hout.gap_trans (by simp) (range_succ_map_ne_nil _ _) h2
      rw [range_succ_map_write (n + 1)]
      simpa [hregs, BitVec.getLsbD_ushiftRight, Nat.add_comm] using this
    · rw [h3, hregs]
      simp [← BitVec.shiftRight_add, Nat.add_comm, Nat.add_left_comm]

/-- `send_byte(byte)` as a subroutine: its eight write slots, least significant bit first (R140, R142). -/
theorem sendByteSlots_ran {c : Config} (hc : c.wf = true) (byte : Byte) {e : Engine} (he : e.crit = false)
    (ht : OnTime c e) :
    SlotsRan c e (sendByteSlots c byte e) ((byteBits byte).map .write) ∧
      (sendByteSlots c byte e).tr = { e.tr with shift := byte >>> 8, bitcnt := 8, timer := 0 } := by
  obtain ⟨h, h'⟩ := sendBits_ran hc 7 (e := loadShift byte e) (by simpa using he) ht
  rw [bitGap_of_zero (by rfl)] at h
  refine ⟨?_, ?_⟩
  · have h2 := h.ofTr (e := e) rfl rfl
    simpa [byteBits, sendByteSlots, Function.comp_def] using h2
  · simpa [sendByteSlots] using h'

/-! ## A byte in -/

/-- One bit of `read_byte` (R141). -/
theorem readBit_ran {c : Config} (hc : c.wf = true) {e : Engine} (he : e.crit = false)
    (ht : OnTime c e) :
    SlotsRan c (bitGap c e) (shiftIn (readSlot c (bitGap c e))) [.read (e.answer 0)] ∧
      (shiftIn (readSlot c (bitGap c e))).tr =
        { e.tr with
          shift := insertTop (e.answer 0) e.tr.shift, bitcnt := e.tr.bitcnt + 1, timer := 0, v := e.answer 0 } := by
  have hcr : (bitGap c e).crit = false := by simpa using he
  have hs := readSlot_slots hc hcr (bitGap_onTime ht)
  have h := (readSlot_ran hc hcr (bitGap_onTime ht)).2
  rw [bitGap_answer] at hs h
  refine ⟨hs.withTr rfl rfl, ?_⟩
  rw [bitGap_tr] at h
  simp only [shiftIn, h]

/-- `n + 1` read slots into `shift` (R141). -/
theorem readBits_ran {c : Config} (hc : c.wf = true) (n : Nat) {e : Engine} (he : e.crit = false)
    (ht : OnTime c e) :
    SlotsRan c (bitGap c e) (readBits c (n + 1) e) ((List.range (n + 1)).map fun i => .read (e.answer i)) ∧
      (readBits c (n + 1) e).tr =
        { e.tr with
          shift := (List.range (n + 1)).foldl (fun acc i => insertTop (e.answer i) acc) e.tr.shift
          bitcnt := e.tr.bitcnt + (n + 1), timer := 0, v := e.answer n } := by
  induction n generalizing e with
  | zero => exact readBit_ran hc he ht
  | succ n ih =>
    obtain ⟨hout, hregs⟩ := readBit_ran hc he ht
    rw [readBits]
    generalize shiftIn (readSlot c (bitGap c e)) = e1 at hout hregs ⊢
    have ha : ∀ k, e1.answer k = e.answer (k + 1) := fun k => by
      have := hout.answer k
      simpa [Nat.add_comm] using this
    obtain ⟨h2, h3⟩ := ih hout.closed (hout.onTime (bitGap_onTime ht))
    rw [bitGap_of_ne (by simp [hregs])] at h2
    refine ⟨?_, ?_⟩
    · have := hout.gap_trans (by simp) (range_succ_map_ne_nil _ _) h2
      rw [range_succ_map_read (n + 1)]
      simpa [ha] using this
    · rw [h3, hregs, List.range_succ_eq_map (n := n + 1)]
      simp only [ha, List.foldl_cons, List.foldl_map, Nat.succ_eq_add_one]
      simp [Nat.add_comm, Nat.add_left_comm]

/-- The eight levels in the order sampled, the first as bit 0 (R141). -/
theorem insertTop_eight (f : Nat → Bool) :
    (List.range 8).foldl (fun acc i => insertTop (f i) acc) 0 =
      BitVec.ofNat 8 ((List.range 8).foldr (fun i acc => 2 * acc + (f i).toNat) 0) := by
  have h : ∀ a b c d e g i j : Bool,
      insertTop j (insertTop i (insertTop g (insertTop e (insertTop d (insertTop c (insertTop b (insertTop a 0))))))) =
        BitVec.ofNat 8 (2 * (2 * (2 * (2 * (2 * (2 * (2 * (2 * 0 + j.toNat) + i.toNat) + g.toNat) + e.toNat) +
          d.toNat) + c.toNat) + b.toNat) + a.toNat) := by
    decide +kernel
  exact h (f 0) (f 1) (f 2) (f 3) (f 4) (f 5) (f 6) (f 7)

/-- `read_byte()` as a subroutine: its eight read slots; the byte is in `shift` (R141, R143). -/
theorem readByteSlots_ran {c : Config} (hc : c.wf = true) {e : Engine} (he : e.crit = false)
    (ht : OnTime c e) :
    SlotsRan c e (readByteSlots c e) ((List.range 8).map fun i => .read (e.answer i)) ∧
      (readByteSlots c e).tr =
        { e.tr with shift := answeredByte e 0, bitcnt := 8, timer := 0, v := e.answer 7 } := by
  obtain ⟨h, h'⟩ := readBits_ran hc 7 (e := loadShift 0 e) (by simpa using he) ht
  rw [bitGap_of_zero (by rfl)] at h
  refine ⟨h.ofTr (e := e) rfl rfl, ?_⟩
  have hb : (List.range (7 + 1)).foldl (fun acc i => insertTop ((loadShift 0 e).answer i) acc)
      (loadShift 0 e).tr.shift = answeredByte e 0 := by
    simp only [answeredByte, Nat.zero_add]
    exact insertTop_eight e.answer
  rw [readByteSlots, h', hb]
  rfl

/-! ## Codes -/

/-- A byte's slots are eight of the code's slots (R51, R55). -/
theorem byteBits_eq_codeBits (code : RomCode) {k : Nat} (hk : k < 8) :
    byteBits (code.getD k 0) = (List.range 8).map fun i => romBit code (8 * k + i + 1) := by
  refine List.map_congr_left fun i hi => ?_
  rw [romBit_eq code hk (List.mem_range.1 hi)]
  simp [Vector.getD, hk]

/-- The first eight of a list of slots apart from the rest. -/
theorem range_eight_add (n : Nat) (f : Nat → Slot) :
    (List.range (8 * (n + 1))).map f =
      (List.range 8).map f ++ (List.range (8 * n)).map fun i => f (8 + i) := by
  rw [show 8 * (n + 1) = 8 + 8 * n by omega, List.range_add, List.map_append, List.map_map]
  rfl

/-- One code byte of `match_rom` (R156). -/
theorem sendCodeByte_ran {c : Config} (hc : c.wf = true) (code : RomCode) {e : Engine} (he : e.crit = false)
    (ht : OnTime c e)
    (hb : e.tr.bytecnt < 8) :
    SlotsRan c (gap c e) (countByte (sendByteSlots c (code.getD e.tr.bytecnt 0) (gap c e)))
        ((List.range 8).map fun i => .write (romBit code (8 * e.tr.bytecnt + i + 1))) ∧
      (countByte (sendByteSlots c (code.getD e.tr.bytecnt 0) (gap c e))).tr.bytecnt = e.tr.bytecnt + 1 := by
  obtain ⟨h, h'⟩ := sendByteSlots_ran hc (code.getD e.tr.bytecnt 0) (e := gap c e) (by simpa using he) ht
  refine ⟨?_, by simp only [countByte, h', gap_tr]⟩
  rw [byteBits_eq_codeBits code hb, List.map_map] at h
  exact h.withTr rfl rfl

/-- `n + 1` code bytes of `match_rom`, each after the gap (R51, R144, R156). -/
theorem sendCode_ran {c : Config} (hc : c.wf = true) (code : RomCode) (n : Nat) {e : Engine} (he : e.crit = false)
    (ht : OnTime c e)
    (hb : e.tr.bytecnt + (n + 1) ≤ 8) :
    SlotsRan c (gap c e) (sendCode c code (n + 1) e)
      ((List.range (8 * (n + 1))).map fun i => .write (romBit code (8 * e.tr.bytecnt + i + 1))) := by
  induction n generalizing e with
  | zero => exact (sendCodeByte_ran hc code he ht (by omega)).1
  | succ n ih =>
    obtain ⟨h, h'⟩ := sendCodeByte_ran hc code he ht (by omega)
    rw [sendCode]
    generalize countByte (sendByteSlots c (code.getD e.tr.bytecnt 0) (gap c e)) = e1 at h h' ⊢
    have h2 := ih h.closed (h.onTime ht) (by omega)
    have h3 := h.gap_trans (by simp) (by simp) h2
    rw [range_eight_add (n + 1)]
    have e2 : ∀ i, 8 * (e.tr.bytecnt + 1) + i = 8 * e.tr.bytecnt + (8 + i) := fun i => by omega
    simpa only [h', e2] using h3

/-- One byte of `read_rom` (R153). -/
theorem readRomByte_ran {c : Config} (hc : c.wf = true) {e : Engine} (he : e.crit = false)
    (ht : OnTime c e) :
    SlotsRan c (gap c e) (takeByte (readByteSlots c (gap c e))) ((List.range 8).map fun i => .read (e.answer i)) ∧
      (takeByte (readByteSlots c (gap c e))).tr.bytecnt = e.tr.bytecnt + 1 ∧
      (takeByte (readByteSlots c (gap c e))).tr.buf =
        e.tr.buf.setIfInBounds e.tr.bytecnt (answeredByte e 0) ∧
      (takeByte (readByteSlots c (gap c e))).tr.crc = crc8Fold e.tr.crc (answeredByte e 0) := by
  have ha : ∀ k, (gap c e).answer k = e.answer k := fun k => rfl
  have hb : answeredByte (gap c e) 0 = answeredByte e 0 := rfl
  obtain ⟨h, h'⟩ := readByteSlots_ran hc (e := gap c e) (by simpa using he) ht
  rw [hb] at h'
  refine ⟨h.withTr rfl rfl, ?_, ?_, ?_⟩ <;> simp [takeByte, h']

/-- `n + 1` bytes of `read_rom`, each after the gap: their slots, the bytes stored, the bytes folded (R92, R153). -/
theorem readRomBytes_ran {c : Config} (hc : c.wf = true) (n : Nat) {e : Engine} (he : e.crit = false)
    (ht : OnTime c e) :
    SlotsRan c (gap c e) (readRomBytes c (n + 1) e)
        ((List.range (8 * (n + 1))).map fun i => .read (e.answer i)) ∧
      (readRomBytes c (n + 1) e).tr.buf =
        (List.range (n + 1)).foldl
          (fun buf i => buf.setIfInBounds (e.tr.bytecnt + i) (answeredByte e (8 * i))) e.tr.buf ∧
      (readRomBytes c (n + 1) e).tr.crc =
        (List.range (n + 1)).foldl (fun crc i => crc8Fold crc (answeredByte e (8 * i))) e.tr.crc := by
  induction n generalizing e with
  | zero =>
    obtain ⟨h, -, h2, h3⟩ := readRomByte_ran hc he ht
    exact ⟨h, h2, h3⟩
  | succ n ih =>
    obtain ⟨h, h1, h2, h3⟩ := readRomByte_ran hc he ht
    rw [readRomBytes]
    generalize takeByte (readByteSlots c (gap c e)) = e1 at h h1 h2 h3 ⊢
    have ha : ∀ k, e1.answer k = e.answer (8 + k) := fun k => by
      have h4 : slotReads ((List.range 8).map fun i => Slot.read (e.answer i)) = 8 := rfl
      have h5 := h.answer k
      rwa [h4] at h5
    have hb : ∀ k, answeredByte e1 k = answeredByte e (8 + k) := fun k => by
      simp only [answeredByte, ha, Nat.add_assoc]
    obtain ⟨h4, h5, h6⟩ := ih h.closed (h.onTime ht)
    refine ⟨?_, ?_, ?_⟩
    · have h7 := h.gap_trans (by simp) (by simp) h4
      rw [range_eight_add (n + 1)]
      simpa only [ha] using h7
    · rw [h5, h1, h2, List.range_succ_eq_map (n := n + 1)]
      simp only [hb, List.foldl_cons, List.foldl_map, Nat.succ_eq_add_one, Nat.mul_add, Nat.mul_one, Nat.mul_zero,
        Nat.add_zero, Nat.add_comm, Nat.add_left_comm]
    · rw [h6, h3, List.range_succ_eq_map (n := n + 1)]
      simp only [hb, List.foldl_cons, List.foldl_map, Nat.succ_eq_add_one, Nat.mul_add, Nat.mul_one, Nat.mul_zero,
        Nat.add_comm]

/-- The eight bytes stored are the code answered, whatever was in the buffer (R153). -/
theorem answeredCode_eq_stored (e : Engine) (buf : RomCode) :
    (List.range 8).foldl (fun b i => b.setIfInBounds (0 + i) (answeredByte e (8 * i))) buf = answeredCode e 0 := by
  ext i hi : 1
  rw [answeredCode, Vector.getElem_ofFn]
  interval_cases i <;> simp [List.range_succ]

/-- The fold over the eight bytes is the residual of the code answered (R93). -/
theorem answeredCode_residual (e : Engine) :
    (List.range 8).foldl (fun crc i => crc8Fold crc (answeredByte e (8 * i))) crcInit =
      crcResidual (answeredCode e 0) := by
  unfold crcResidual answeredCode
  rw [Vector.toList_ofFn]
  simp [List.ofFn_succ, List.range_succ]

end Sys2Proof.Machine
end

