-- ==== Sys2Proof/Laws/Reset.lean ====
section
/-! SUPPORT. What the bus reset primitive does, said once for each of the four ways it can end (R111, R113, R114, R116). -/

namespace Sys2Proof.Machine

open Sys2Proof.Terms

/-! ## One event as a piece of an operation -/

/-- A delay that is not late (R13). -/
theorem recorded_delay {c : Config} {e : Engine} (hs : Steady c e) (n : Nat) :
    Recorded e (delay c n e) [(e.now, .delay n)] n 0 := by
  constructor <;> simp [hs.late]

/-- A sample. -/
theorem recorded_sample (e : Engine) : Recorded e (sample e) [(e.now, .sample (e.answer 0))] 0 1 := by
  constructor <;> simp

/-- Within a region that stays open, a piece of an operation leaves the delays exact. -/
theorem Recorded.steady {c : Config} {e e' : Engine} {wave : Wave} {d n : Nat} (h : Recorded e e' wave d n)
    (hc : e'.crit = e.crit) (hs : Steady c e) : Steady c e' :=
  hs.of_drop hc h.stalls h.delays

/-! ## The polling loops -/

/-- Polls, the first apart. -/
theorem pollWave_succ (c : Config) (n : Nat) (v : Bool) (t : Nat) :
    pollWave c (n + 1) v t = (t, .sample v) :: (t, .delay c.tPoll) :: pollWave c n v (t + c.tPoll) := by
  have h : ∀ i, t + (i + 1) * c.tPoll = t + c.tPoll + i * c.tPoll := fun i => by rw [Nat.succ_mul]; omega
  simp only [pollWave, List.range_succ_eq_map, List.flatMap_cons, List.flatMap_map, Nat.succ_eq_add_one, h,
    Nat.zero_mul, Nat.add_zero, List.cons_append, List.nil_append]

/-- A poll step that sees 0 (R113). -/
theorem riseStep_recorded {c : Config} {e : Engine} (hs : Steady c e) (h : e.answer 0 = false) :
    Recorded e (riseStep c (sample e)) [(e.now, .sample false), (e.now, .delay c.tPoll)] c.tPoll 1 := by
  have hl : late c (sample e) = 0 := (hs.same rfl rfl rfl).late
  constructor <;> simp [riseStep, h, hl]

/-- A poll step that sees 1 (R114). -/
theorem fallStep_recorded {c : Config} {e : Engine} (hs : Steady c e) (h : e.answer 0 = true) :
    Recorded e (fallStep c (sample e)) [(e.now, .sample true), (e.now, .delay c.tPoll)] c.tPoll 1 := by
  have hl : late c (sample e) = 0 := (hs.same rfl rfl rfl).late
  constructor <;> simp [fallStep, h, hl]

/-- The rise loop when the line rises at poll `m` within the limit (R113). -/
theorem pollRise_rose {c : Config} (n m : Nat) {e : Engine} (hy : Steady c e) (hm : m ≤ n) (hl : ∀ k, k < m → e.answer k = false)
    (hr : e.answer m = true) :
    ∃ e', pollRise c n e = (e', true) ∧
      Recorded e e' (pollWave c m false e.now ++ [(e.now + m * c.tPoll, .sample true)]) (m * c.tPoll) (m + 1) ∧
      e'.drv = e.drv ∧ e'.crit = e.crit ∧ e'.tr.rise = e.tr.rise + m := by
  induction m generalizing n e with
  | zero =>
    refine ⟨sample e, ?_, by simpa [pollWave, hr] using recorded_sample e, rfl, rfl, rfl⟩
    cases n <;> simp [pollRise, hr]
  | succ m ih =>
    obtain ⟨n, rfl⟩ : ∃ k, n = k + 1 := ⟨n - 1, by omega⟩
    have h0 := hl 0 (by omega)
    have hs := riseStep_recorded hy h0
    have ha : ∀ k, (riseStep c (sample e)).answer k = e.answer (k + 1) := fun k => by
      rw [hs.answer, Nat.add_comm]
    obtain ⟨e', h1, h2, h3, h4, h5⟩ := ih n (e := riseStep c (sample e)) (hs.steady rfl hy) (by omega)
      (fun k hk => by rw [ha]; exact hl _ (by omega)) (by rw [ha]; exact hr)
    refine ⟨e', ?_, ?_, h3, h4, ?_⟩
    · simp only [pollRise, sample_tr, h0]
      exact h1
    · have := hs.trans h2
      rw [pollWave_succ]
      have e1 : e.now + c.tPoll + m * c.tPoll = e.now + (m + 1) * c.tPoll := by rw [Nat.succ_mul]; omega
      have e2 : c.tPoll + m * c.tPoll = (m + 1) * c.tPoll := by rw [Nat.succ_mul]; omega
      have e3 : 1 + (m + 1) = m + 1 + 1 := by omega
      have e4 : (riseStep c (sample e)).now = e.now + c.tPoll := hs.clock
      rw [e2, e3, e4, e1] at this
      simpa using this
    · rw [h5]
      simp [riseStep]
      omega

/-- The rise loop when the line stays low up to the limit (R113). -/
theorem pollRise_limit {c : Config} (n : Nat) {e : Engine} (hy : Steady c e) (hl : ∀ k, k ≤ n → e.answer k = false) :
    ∃ e', pollRise c n e = (e', false) ∧
      Recorded e e' (pollWave c n false e.now ++ [(e.now + n * c.tPoll, .sample false)]) (n * c.tPoll) (n + 1) ∧
      e'.drv = e.drv ∧ e'.crit = e.crit := by
  induction n generalizing e with
  | zero =>
    have h0 := hl 0 (by omega)
    exact ⟨sample e, by simp [pollRise, h0], by simpa [pollWave, h0] using recorded_sample e, rfl, rfl⟩
  | succ n ih =>
    have h0 := hl 0 (by omega)
    have hs := riseStep_recorded hy h0
    have ha : ∀ k, (riseStep c (sample e)).answer k = e.answer (k + 1) := fun k => by
      rw [hs.answer, Nat.add_comm]
    obtain ⟨e', h1, h2, h3, h4⟩ := ih (e := riseStep c (sample e)) (hs.steady rfl hy) (fun k hk => by rw [ha]; exact hl _ (by omega))
    refine ⟨e', ?_, ?_, h3, h4⟩
    · simp only [pollRise, sample_tr, h0]
      exact h1
    · have := hs.trans h2
      rw [pollWave_succ]
      have e1 : e.now + c.tPoll + n * c.tPoll = e.now + (n + 1) * c.tPoll := by rw [Nat.succ_mul]; omega
      have e2 : c.tPoll + n * c.tPoll = (n + 1) * c.tPoll := by rw [Nat.succ_mul]; omega
      have e3 : 1 + (n + 1) = n + 1 + 1 := by omega
      have e4 : (riseStep c (sample e)).now = e.now + c.tPoll := hs.clock
      rw [e2, e3, e4, e1] at this
      simpa using this

/-- The presence loop when the line falls at poll `m` within the limit (R114). -/
theorem pollFall_fell {c : Config} (n m : Nat) {e : Engine} (hy : Steady c e) (hm : m ≤ n) (hl : ∀ k, k < m → e.answer k = true)
    (hr : e.answer m = false) :
    ∃ e', pollFall c n e = (e', true) ∧
      Recorded e e' (pollWave c m true e.now ++ [(e.now + m * c.tPoll, .sample false)]) (m * c.tPoll) (m + 1) ∧
      e'.drv = e.drv ∧ e'.crit = e.crit ∧ e'.tr.rise = e.tr.rise ∧ e'.tr.fall = e.tr.fall + m := by
  induction m generalizing n e with
  | zero =>
    refine ⟨sample e, ?_, by simpa [pollWave, hr] using recorded_sample e, rfl, rfl, rfl, rfl⟩
    cases n <;> simp [pollFall, hr]
  | succ m ih =>
    obtain ⟨n, rfl⟩ : ∃ k, n = k + 1 := ⟨n - 1, by omega⟩
    have h0 := hl 0 (by omega)
    have hs := fallStep_recorded hy h0
    have ha : ∀ k, (fallStep c (sample e)).answer k = e.answer (k + 1) := fun k => by
      rw [hs.answer, Nat.add_comm]
    obtain ⟨e', h1, h2, h3, h4, h5, h6⟩ := ih n (e := fallStep c (sample e)) (hs.steady rfl hy) (by omega)
      (fun k hk => by rw [ha]; exact hl _ (by omega)) (by rw [ha]; exact hr)
    refine ⟨e', ?_, ?_, h3, h4, h5, ?_⟩
    · simp only [pollFall, sample_tr, h0]
      exact h1
    · have := hs.trans h2
      rw [pollWave_succ]
      have e1 : e.now + c.tPoll + m * c.tPoll = e.now + (m + 1) * c.tPoll := by rw [Nat.succ_mul]; omega
      have e2 : c.tPoll + m * c.tPoll = (m + 1) * c.tPoll := by rw [Nat.succ_mul]; omega
      have e3 : 1 + (m + 1) = m + 1 + 1 := by omega
      have e4 : (fallStep c (sample e)).now = e.now + c.tPoll := hs.clock
      rw [e2, e3, e4, e1] at this
      simpa using this
    · rw [h6]
      simp [fallStep]
      omega

/-- The presence loop when the line stays high up to the limit (R114). -/
theorem pollFall_limit {c : Config} (n : Nat) {e : Engine} (hy : Steady c e) (hl : ∀ k, k ≤ n → e.answer k = true) :
    ∃ e', pollFall c n e = (e', false) ∧
      Recorded e e' (pollWave c n true e.now ++ [(e.now + n * c.tPoll, .sample true)]) (n * c.tPoll) (n + 1) ∧
      e'.drv = e.drv ∧ e'.crit = e.crit := by
  induction n generalizing e with
  | zero =>
    have h0 := hl 0 (by omega)
    exact ⟨sample e, by simp [pollFall, h0], by simpa [pollWave, h0] using recorded_sample e, rfl, rfl⟩
  | succ n ih =>
    have h0 := hl 0 (by omega)
    have hs := fallStep_recorded hy h0
    have ha : ∀ k, (fallStep c (sample e)).answer k = e.answer (k + 1) := fun k => by
      rw [hs.answer, Nat.add_comm]
    obtain ⟨e', h1, h2, h3, h4⟩ := ih (e := fallStep c (sample e)) (hs.steady rfl hy) (fun k hk => by rw [ha]; exact hl _ (by omega))
    refine ⟨e', ?_, ?_, h3, h4⟩
    · simp only [pollFall, sample_tr, h0]
      exact h1
    · have := hs.trans h2
      rw [pollWave_succ]
      have e1 : e.now + c.tPoll + n * c.tPoll = e.now + (n + 1) * c.tPoll := by rw [Nat.succ_mul]; omega
      have e2 : c.tPoll + n * c.tPoll = (n + 1) * c.tPoll := by rw [Nat.succ_mul]; omega
      have e3 : 1 + (n + 1) = n + 1 + 1 := by omega
      have e4 : (fallStep c (sample e)).now = e.now + c.tPoll := hs.clock
      rw [e2, e3, e4, e1] at this
      simpa using this

/-! ## The primitive as one critical region -/

/-- Events that are recorded inside a region, as the region around them (R63, R116). -/
theorem region_ran (c : Config) {e e' : Engine} {events : Wave} {d n : Nat} (he : e.crit = false)
    (h : Recorded (critEnter c e) e' events d n) (hd : e'.drv = .released) (hc : e'.crit = (critEnter c e).crit) :
    EngineRan e (critExit c e') (region c e.now (e.now + d) events) d n := by
  obtain ⟨h1, h2, h3, h4, h5, h6, h7, h8⟩ := h
  cases hcr : c.hasCritical
  · simp only [critEnter, hcr, Bool.false_eq_true, if_false] at h1 h2 h3 h4 h5 h6 h7 h8 hc
    refine ⟨⟨?_, ?_, ?_, ?_, ?_, ?_, ?_, ?_⟩, ?_, ?_⟩ <;>
      simp [critExit, hcr, region, h1, h2, h3, h4, h5, h6, h7, h8, hd, hc, he]
  · simp only [critEnter, hcr, if_true, emit_now, emit_log, emit_wire, emit_samples, emit_stalls, emit_delays, emit_tr] at h1 h2 h3 h4 h5 h6 h7 h8 hc
    refine ⟨⟨?_, ?_, ?_, ?_, ?_, ?_, ?_, ?_⟩, ?_, ?_⟩ <;>
      simp [critExit, hcr, region, h1, h2, h3, h4, h5, h6, h7, h8, hd]

/-- The idle sample sees 1, and the pulse (R111, R112). -/
theorem pulse_recorded {c : Config} {e : Engine} (hs : Steady c e) (h : e.answer 0 = true) :
    Recorded e (startRise (resetPulse c (sample e))) (pulseWave c e.now) (c.tRstl + c.tRec) 1 := by
  have s1 : Steady c (driveLow (sample e)) := hs.same rfl rfl rfl
  have s2 : Steady c (release (delay c c.tRstl (driveLow (sample e)))) := (s1.delay _).same rfl rfl rfl
  have l1 := s1.late
  have l2 := s2.late
  constructor <;> simp [startRise, resetPulse, pulseWave, h, l1, l2, tail_tail, Nat.add_assoc]

/-- Entering a region leaves the answers as they are. -/
@[simp] theorem critEnter_answer (c : Config) (e : Engine) (k : Nat) : (critEnter c e).answer k = e.answer k := by
  unfold critEnter; split <;> rfl

/-- A line that is held low (R111). -/
theorem resetPrim_busy (c : Config) {e : Engine} (hd : e.drv = .released) (he : e.crit = false)
    (h : e.answer 0 = false) :
    ∃ e', resetPrim c e = (e', .busBusy) ∧ EngineRan e e' (resetBusyWave c e.now) 0 1 := by
  refine ⟨critExit c (sample (critEnter c e)), ?_, ?_⟩
  · simp [resetPrim, h]
  · have h1 := recorded_sample (critEnter c e)
    rw [critEnter_answer, h] at h1
    have h2 := region_ran c he h1 (by simpa using hd) rfl
    simpa [resetBusyWave] using h2

/-- A line that does not rise (R113). -/
theorem resetPrim_noRise (c : Config) {e : Engine} (he : e.crit = false) (ht : OnTime c e) (h : NoRise c e) :
    ∃ e', resetPrim c e = (e', .timeout) ∧
      EngineRan e e' (resetNoRiseWave c e.now) (c.tRstl + c.tRec + c.tRiseMax * c.tPoll) (2 + c.tRiseMax) := by
  have hy := OnTime.steady ht
  have hp := pulse_recorded hy (by simpa using h.idle)
  have hy1 := hp.steady (by rfl) hy
  obtain ⟨e1, h1, h2, h3, h4⟩ := pollRise_limit c.tRiseMax
    (e := startRise (resetPulse c (sample (critEnter c e)))) hy1
    (fun k hk => by rw [hp.answer, critEnter_answer]; exact h.low k hk)
  refine ⟨critExit c e1, ?_, ?_⟩
  · simp [resetPrim, pulsePart, h.idle, h1]
  · have h5 := region_ran c he (hp.trans h2) h3 h4
    rw [hp.clock, critEnter_now] at h5
    have e1 : 1 + (c.tRiseMax + 1) = 2 + c.tRiseMax := by omega
    rw [e1] at h5
    simpa [resetNoRiseWave, Nat.add_assoc] using h5

/-- A line that rises with no presence pulse (R114). -/
theorem resetPrim_noPresence (c : Config) {e : Engine} {rise : Nat} (he : e.crit = false) (ht : OnTime c e)
    (h : NoPresence c e rise) :
    ∃ e', resetPrim c e = (e', .timeout) ∧
      EngineRan e e' (resetNoPresenceWave c rise e.now) (c.tRstl + c.tRec + (rise + c.tPresMax) * c.tPoll)
        (3 + rise + c.tPresMax) := by
  have hy := OnTime.steady ht
  have hp := pulse_recorded hy (by simpa using h.idle)
  have hy1 := hp.steady (by rfl) hy
  obtain ⟨e1, h1, h2, h3, h4, -⟩ := pollRise_rose c.tRiseMax rise
    (e := startRise (resetPulse c (sample (critEnter c e)))) hy1 h.riseInWindow
    (fun k hk => by rw [hp.answer, critEnter_answer]; exact h.low k hk)
    (by rw [hp.answer, critEnter_answer]; exact h.rose)
  have hq := hp.trans h2
  have hf : Recorded (critEnter c e) (startFall e1) _ _ _ := ⟨hq.1, hq.2, hq.3, hq.4, hq.5, hq.6, hq.7, hq.8⟩
  have hy2 := hf.steady h4 hy
  obtain ⟨e2, h5, h6, h7, h8⟩ := pollFall_limit c.tPresMax (e := startFall e1) hy2
    (fun k hk => by
      rw [hf.answer, critEnter_answer, show 1 + (rise + 1) + k = 2 + rise + k by omega]
      exact h.high k hk)
  refine ⟨critExit c e2, ?_, ?_⟩
  · simp [resetPrim, pulsePart, presencePart, h.idle, h1, h5]
  · have h9 := region_ran c he (hf.trans h6) (h7.trans h3) (h8.trans h4)
    rw [hf.clock, hp.clock, critEnter_now] at h9
    have e1 : 1 + (rise + 1) + (c.tPresMax + 1) = 3 + rise + c.tPresMax := by omega
    have e2 : c.tRstl + c.tRec + rise * c.tPoll + c.tPresMax * c.tPoll =
        c.tRstl + c.tRec + (rise + c.tPresMax) * c.tPoll := by rw [Nat.add_mul]; omega
    rw [e1, e2] at h9
    have e3 : e.now + (c.tRstl + c.tRec + (rise + c.tPresMax) * c.tPoll) =
        e.now + c.tRstl + c.tRec + rise * c.tPoll + c.tPresMax * c.tPoll := by rw [Nat.add_mul]; omega
    have e4 : e.now + (c.tRstl + c.tRec + rise * c.tPoll) = e.now + c.tRstl + c.tRec + rise * c.tPoll := by omega
    have e5 : e.now + (c.tRstl + c.tRec) = e.now + c.tRstl + c.tRec := by omega
    rw [e3, e4, e5] at h9
    simpa [resetNoPresenceWave] using h9

/-- A device answers (R113 to R116). -/
theorem resetPrim_ok (c : Config) {e : Engine} {rise fall : Nat} (he : e.crit = false) (ht : OnTime c e) (h : Presence c e rise fall) :
    ∃ e', resetPrim c e = (e', .ok) ∧ e'.tr.rise = rise ∧ e'.tr.fall = fall ∧
      EngineRan e e' (resetOkWave c rise fall e.now) (resetLength c rise fall) (resetSamples rise fall) := by
  have hy := OnTime.steady ht
  have hp := pulse_recorded hy (by simpa using h.idle)
  have hy1 := hp.steady (by rfl) hy
  obtain ⟨e1, h1, h2, h3, h4, hr⟩ := pollRise_rose c.tRiseMax rise
    (e := startRise (resetPulse c (sample (critEnter c e)))) hy1 h.riseInWindow
    (fun k hk => by rw [hp.answer, critEnter_answer]; exact h.low k hk)
    (by rw [hp.answer, critEnter_answer]; exact h.rose)
  have hq := hp.trans h2
  have hf : Recorded (critEnter c e) (startFall e1) _ _ _ := ⟨hq.1, hq.2, hq.3, hq.4, hq.5, hq.6, hq.7, hq.8⟩
  have hy2 := hf.steady h4 hy
  obtain ⟨e2, h5, h6, h7, h8, hr2, hr3⟩ := pollFall_fell c.tPresMax fall (e := startFall e1) hy2 h.fallInWindow
    (fun k hk => by
      rw [hf.answer, critEnter_answer, show 1 + (rise + 1) + k = 2 + rise + k by omega]
      exact h.high k hk)
    (by
      rw [hf.answer, critEnter_answer, show 1 + (rise + 1) + fall = 2 + rise + fall by omega]
      exact h.fell)
  have hr4 : e2.tr.rise = rise := by rw [hr2]; simpa [startFall, startRise] using hr
  have hr5 : e2.tr.fall = fall := by simpa [startFall] using hr3
  refine ⟨critExit c (delay c (c.tRsth - e2.tr.rise - e2.tr.fall) e2), ?_, by simpa using hr4, by simpa using hr5, ?_⟩
  · simp [resetPrim, pulsePart, presencePart, h.idle, h1, h5]
  · rw [hr4, hr5]
    have h9 := region_ran c he ((hf.trans h6).trans (recorded_delay (h6.steady h8 hy2) (c.tRsth - rise - fall))) (h7.trans h3)
      (h8.trans h4)
    rw [h6.clock, hf.clock, hp.clock, critEnter_now] at h9
    have e1 : 1 + (rise + 1) + (fall + 1) + 0 = resetSamples rise fall := by unfold resetSamples; omega
    have e2 : c.tRstl + c.tRec + rise * c.tPoll + fall * c.tPoll + (c.tRsth - rise - fall) =
        resetLength c rise fall := by unfold resetLength; rw [Nat.add_mul]; omega
    have e4 : e.now + (c.tRstl + c.tRec + rise * c.tPoll) = e.now + c.tRstl + c.tRec + rise * c.tPoll := by omega
    have e5 : e.now + (c.tRstl + c.tRec) = e.now + c.tRstl + c.tRec := by omega
    rw [e1, e2, e4, e5] at h9
    simpa [resetOkWave] using h9

end Sys2Proof.Machine
end

