-- ==== Sys2Proof/Laws/Search.lean ====
section
/-! SUPPORT. What the positions of a search pass do: the decision as the spec's table of R173 to R175, and the whole loop
as the pass over the pairs answered (R172, R176). -/

namespace Sys2Proof.Machine

open Sys2Proof.Terms

/-- The decision is the one of R173 to R175. -/
theorem decideBit_eq_choice (rom : RomCode) (fork : Fin 66) {pos : Nat} (hp : pos ≤ 64) (b nb : Bool)
    (newFork : Fin 66) :
    (decideBit fork pos (romBit rom pos) b nb newFork).map (fun d => (d.1, d.2.val)) =
      choice rom fork.val pos newFork.val (b, nb) := by
  have hv : pos < 66 := by omega
  cases b <;> cases nb <;> simp only [decideBit, choice, Option.map_some, Option.map_none]
  rcases lt_trichotomy pos fork.val with h | h | h
  · have h1 : ¬ fork.val < pos := by omega
    have h2 : pos ≠ fork.val := by omega
    cases romBit rom pos <;> simp [h, h1, h2, hv]
  · simp [h]
  · have h1 : ¬ pos < fork.val := by omega
    have h2 : pos ≠ fork.val := by omega
    simp [h, h1, h2, hv]

/-- The two read slots of a position (R172). -/
theorem readPair_ran {c : Config} (hc : c.wf = true) (rom : RomCode) (pos : Nat) {e : Engine} (he : e.crit = false)
    (ht : OnTime c e) :
    SlotsRan c (gap c e) (readPair c rom pos e) [.read (e.answer 0), .read (e.answer 1)] ∧
      (readPair c rom pos e).tr =
        { e.tr with
          pos := pos, prev := romBit rom pos, b := e.answer 0, nb := e.answer 1, timer := 0, v := e.answer 1 } := by
  have he1 : (gap c (startPosition rom pos e)).crit = false := he
  have ha1 : (gap c (startPosition rom pos e)).answer 0 = e.answer 0 := rfl
  have h1 := readSlot_slots hc he1 ht
  have t1 := (readSlot_ran hc he1 ht).2
  have h1' : SlotsRan c (gap c e) (takeTrue (readSlot c (gap c (startPosition rom pos e)))) [.read (e.answer 0)] := by
    rw [ha1] at h1
    exact (h1.ofTr (e := gap c e) rfl rfl).withTr rfl rfl
  have hv1 : (takeTrue (readSlot c (gap c (startPosition rom pos e)))).tr =
      { e.tr with pos := pos, prev := romBit rom pos, b := e.answer 0, timer := 0, v := e.answer 0 } := by
    simp only [takeTrue, t1, ha1]
    rfl
  rw [readPair]
  generalize takeTrue (readSlot c (gap c (startPosition rom pos e))) = e1 at h1' hv1 ⊢
  have he2 : (gap c e1).crit = false := h1'.closed
  have ha2 : (gap c e1).answer 0 = e.answer 1 := h1'.answer 0
  have h2 := readSlot_slots hc he2 (h1'.onTime ht)
  have t2 := (readSlot_ran hc he2 (h1'.onTime ht)).2
  rw [ha2] at h2 t2
  refine ⟨h1'.gap_trans (by simp) (by simp) (h2.withTr rfl rfl), ?_⟩
  simp only [takeComp, t2, gap_tr, hv1]

/-- The write slot of a position: the bit sent is the bit stored (R172, R176). -/
theorem answerPosition_ran {c : Config} (hc : c.wf = true) (d : Bool × Fin 66) {e : Engine} (he : e.crit = false)
    (ht : OnTime c e) :
    SlotsRan c (gap c e) (answerPosition c d e) [.write d.1] ∧
      (answerPosition c d e).tr =
        { e.tr with chosen := d.1, newFork := d.2, timer := 0, newRom := setRomBit e.tr.newRom e.tr.pos d.1 } := by
  have he1 : (gap c (takeDecision d e)).crit = false := he
  have h1 := writeSlot_slots hc d.1 he1 ht
  have t1 := (writeSlot_ran hc d.1 he1 ht).2
  refine ⟨(h1.ofTr (e := gap c e) rfl rfl).withTr rfl rfl, ?_⟩
  simp only [answerPosition, storeChosen, t1]
  rfl

/-- The pairs answered from now on, for `n` positions (R77). -/
def nextPairs (e : Engine) (n : Nat) : List (Bool × Bool) :=
  (List.range n).map fun i => (e.answer (2 * i), e.answer (2 * i + 1))

/-- The first pair apart. -/
theorem nextPairs_succ {e e1 : Engine} (n : Nat) (h : ∀ k, e1.answer k = e.answer (2 + k)) :
    nextPairs e (n + 1) = (e.answer 0, e.answer 1) :: nextPairs e1 n := by
  simp only [nextPairs, List.range_succ_eq_map, List.map_cons, List.map_map, h]
  congr 1
  refine List.map_congr_left fun i _ => ?_
  simp only [Function.comp_apply, Nat.succ_eq_add_one]
  congr 2 <;> omega

/-- A pass has slots for its first position at least. -/
theorem passSlots_ne_nil (rom : RomCode) (fork : Nat) (pair : Bool × Bool) (rest : List (Bool × Bool))
    (pos newFork : Nat) : passSlots rom fork (pair :: rest) pos newFork ≠ [] := by
  simp only [passSlots]
  split <;> simp

/-- The loop from position `64 - n` on: the slots are those of the pass over the pairs answered, and its end is the
pass's: the bits stored, the last fork point, or the abort of R175. -/
theorem searchLoop_ran {c : Config} (hc : c.wf = true) (rom : RomCode) (fork : Fin 66) (n : Nat) (hn : n ≤ 63)
    {e : Engine} (he : e.crit = false)
    (ht : OnTime c e) :
    ∃ e' done, searchLoop c rom fork (n + 1) e = (e', done) ∧
      SlotsRan c (gap c e) e' (passSlots rom fork.val (nextPairs e (n + 1)) (64 - n) e.tr.newFork.val) ∧
      match passOver rom fork.val (nextPairs e (n + 1)) (64 - n) e.tr.newFork.val with
      | none => done = false
      | some (bits, last) =>
        done = true ∧ e'.tr.newFork.val = last ∧ bits.length = n + 1 ∧
          ∀ q, 1 ≤ q → q ≤ 64 →
            romBit e'.tr.newRom q =
              if q < 64 - n then romBit e.tr.newRom q else bits.getD (q - (64 - n)) false := by
  induction n generalizing e with
  | zero =>
    obtain ⟨h1, t1⟩ := readPair_ran hc rom 64 he ht
    have hd := decideBit_eq_choice rom fork (Nat.le_refl 64) (e.answer 0) (e.answer 1) e.tr.newFork
    have hp : nextPairs e 1 = [(e.answer 0, e.answer 1)] := rfl
    rw [searchLoop]
    simp only [Nat.sub_zero, Nat.zero_add, hp]
    generalize readPair c rom 64 e = e1 at h1 t1 ⊢
    have hdp : decidePosition fork e1 =
        decideBit fork 64 (romBit rom 64) (e.answer 0) (e.answer 1) e.tr.newFork := by
      simp only [decidePosition, t1]
    rw [hdp]
    generalize decideBit fork 64 (romBit rom 64) (e.answer 0) (e.answer 1) e.tr.newFork = d at hd
    rcases d with _ | d
    · refine ⟨e1, false, rfl, ?_, ?_⟩
      · simpa only [passSlots, ← hd, Option.map_none] using h1
      · simp [passOver, ← hd]
    · obtain ⟨h2, t2⟩ := answerPosition_ran hc d h1.closed (h1.onTime ht)
      refine ⟨answerPosition c d e1, true, by simp [searchLoop], ?_, ?_⟩
      · simpa only [passSlots, ← hd, Option.map_some, List.cons_append, List.nil_append]
          using h1.gap_trans (by simp) (by simp) h2
      · simp only [passOver, ← hd, Option.map_some, t2, t1, List.length_cons, List.length_nil, true_and]
        intro q h1q h64q
        rw [romBit_setRomBit _ _ (by omega) (by omega) h1q h64q]
        by_cases hq : q = 64
        · subst hq; simp
        · rw [if_neg hq, if_pos (by omega)]
  | succ n ih =>
    obtain ⟨h1, t1⟩ := readPair_ran hc rom (64 - (n + 1)) he ht
    have hd := decideBit_eq_choice rom fork (pos := 64 - (n + 1)) (by omega) (e.answer 0) (e.answer 1) e.tr.newFork
    rw [searchLoop]
    generalize readPair c rom (64 - (n + 1)) e = e1 at h1 t1 ⊢
    have hdp : decidePosition fork e1 = decideBit fork (64 - (n + 1)) (romBit rom (64 - (n + 1))) (e.answer 0)
        (e.answer 1) e.tr.newFork := by
      simp only [decidePosition, t1]
    simp only [hdp]
    generalize decideBit fork (64 - (n + 1)) (romBit rom (64 - (n + 1))) (e.answer 0) (e.answer 1) e.tr.newFork = d
      at hd ⊢
    rcases d with _ | d
    · rw [nextPairs_succ (e := e) (e1 := e1) _ h1.answer]
      refine ⟨e1, false, rfl, ?_, ?_⟩
      · simpa only [passSlots, ← hd, Option.map_none] using h1
      · simp only [passOver, ← hd, Option.map_none]
    · obtain ⟨h2, t2⟩ := answerPosition_ran hc d h1.closed (h1.onTime ht)
      have h3 := h1.gap_trans (by simp) (by simp) h2
      have t3 : (answerPosition c d e1).tr.newFork = d.2 := by rw [t2]
      have t4 : (answerPosition c d e1).tr.newRom = setRomBit e.tr.newRom (64 - (n + 1)) d.1 := by rw [t2, t1]
      change ∃ e' done, searchLoop c rom fork (n + 1) (answerPosition c d e1) = (e', done) ∧ _
      generalize answerPosition c d e1 = e2 at h3 t3 t4 ⊢
      obtain ⟨e', done, h4, h5, h6⟩ := ih (by omega) h3.closed (h3.onTime ht)
      have hpos : 64 - (n + 1) + 1 = 64 - n := by omega
      rw [nextPairs_succ (e := e) (e1 := e2) _ h3.answer]
      refine ⟨e', done, h4, ?_, ?_⟩
      · have hne : passSlots rom fork.val (nextPairs e2 (n + 1)) (64 - n) e2.tr.newFork.val ≠ [] := by
          rw [nextPairs, List.range_succ_eq_map]
          exact passSlots_ne_nil _ _ _ _ _ _
        have h7 := h3.gap_trans (by simp) hne h5
        simpa only [passSlots, ← hd, Option.map_some, hpos, t3, List.cons_append, List.nil_append] using h7
      · simp only [passOver, ← hd, Option.map_some, hpos]
        rw [t3] at h6
        cases hpass : passOver rom fork.val (nextPairs e2 (n + 1)) (64 - n) d.2.val with
        | none => rw [hpass] at h6; exact h6
        | some r =>
          rw [hpass] at h6
          obtain ⟨h7, h8, h9, h10⟩ := h6
          refine ⟨h7, h8, by simp [h9], fun q h1q h64q => ?_⟩
          rw [h10 q h1q h64q, t4, romBit_setRomBit _ _ (by omega) (by omega) h1q h64q]
          rcases lt_trichotomy q (64 - (n + 1)) with hq | hq | hq
          · rw [if_pos (by omega), if_neg (by omega), if_pos hq]
          · rw [if_pos (by omega), if_pos hq, if_neg (by omega), hq]
            simp
          · rw [if_neg (by omega), if_neg (by omega)]
            obtain ⟨m, hm⟩ : ∃ m, q - (64 - (n + 1)) = m + 1 := ⟨q - (64 - (n + 1)) - 1, by omega⟩
            rw [hm, show q - (64 - n) = m by omega]
            simp

end Sys2Proof.Machine
end

