-- ==== Sys2Proof/Laws/Operations.lean ====
section
/-! SUPPORT. From what the primitives do to what the operations do: the end of an operation over a run of the engine, the
inner bus reset (R120, R150), and every arm of exec as a meaning under the parameters' check (R18). -/

namespace Sys2Proof.Machine

open Sys2Proof.Terms

/-- An operation that ends with these registers over a run of the engine. -/
theorem ended_of_ran {s : State} {e : Engine} {wave : Wave} {d n : Nat} (h : EngineRan s.eng e wave d n)
    (st : Status) (regs : Regs) :
    Ended s (endOperation st { s with eng := e, regs := regs }) { regs with status := st } wave d n where
  trace := by
    change e.log.reverse = s.eng.log.reverse ++ wave
    rw [h.log, List.reverse_append, List.reverse_reverse]
  clock := h.clock
  answers := h.answers
  sampled := h.sampled
  stalls := h.stalls
  delays := h.delays
  released := h.released
  closed := h.closed
  opReg := h.opReg
  argReg := h.argReg
  cfg := rfl
  host := rfl
  inner := rfl
  regs := rfl
  idle := rfl
  pulse := rfl

/-- A wire command byte or a bit primitive over a run of the engine. -/
theorem innerEnded_of_ran {s : State} {e : Engine} {wave : Wave} {d n : Nat} (h : EngineRan s.eng e wave d n) :
    InnerEnded s { s with eng := e } wave d n where
  trace := by
    change e.log.reverse = s.eng.log.reverse ++ wave
    rw [h.log, List.reverse_append, List.reverse_reverse]
  clock := h.clock
  answers := h.answers
  sampled := h.sampled
  stalls := h.stalls
  delays := h.delays
  released := h.released
  closed := h.closed
  opReg := h.opReg
  argReg := h.argReg
  cfg := rfl
  host := rfl
  inner := rfl
  regs := rfl
  seq := rfl
  pulse := rfl

/-- After a bus reset that succeeds the operation goes on, the gap having passed (R120, R136). -/
theorem afterReset_ok {s : State} {e : Engine} (h : resetPrim s.cfg s.eng = (e, .ok)) (failed : Status)
    (k : Engine → State) : afterReset failed s k = k (gap s.cfg e) := by
  simp [afterReset, h]

/-- A bus reset that fails ends the operation with the caller's outcome (R120, R150, R171). -/
theorem afterReset_failed {s : State} {e : Engine} {r : ResetResult} (h : resetPrim s.cfg s.eng = (e, r))
    (hr : r ≠ .ok) (failed : Status) (k : Engine → State) :
    afterReset failed s k = endOperation failed { s with eng := e } := by
  cases r
  · exact absurd rfl hr
  · simp [afterReset, h]
  · simp [afterReset, h]

/-- A bus reset, then slots after the gap, as one run. -/
theorem EngineRan.gap_slots {c : Config} {e e' e'' : Engine} {wave : Wave} {d n : Nat} {slots : List Slot}
    (h : EngineRan e e' wave d n) (h' : SlotsRan c (gap c e') e'' slots) :
    EngineRan e e'' (wave ++ slotsWave c slots (e.now + (d + c.gap))) (d + c.gap + slotsLength c slots)
      (n + slotReads slots) where
  log := by
    rw [h'.log, gap_log, h.log, gap_now, h.clock, List.reverse_append, List.append_assoc, Nat.add_assoc]
  clock := by rw [h'.clock, gap_now, h.clock]; omega
  answers := by rw [h'.answers, gap_wire, h.answers, List.drop_drop]
  sampled := by rw [h'.sampled, gap_samples, h.sampled, Nat.add_assoc]
  stalls := by
    rw [h'.stalls, gap_stalls, h.stalls, List.drop_drop, gap_now, h.clock, delaysIn_append, Nat.add_assoc]
  delays := by rw [h'.delays, gap_delays, h.delays, gap_now, h.clock, delaysIn_append, Nat.add_assoc, Nat.add_assoc]
  released := h'.released
  closed := h'.closed
  opReg := by rw [h'.opReg, gap_tr, h.opReg]
  argReg := by rw [h'.argReg, gap_tr, h.argReg]

/-- Every arm of `exec` runs some meaning under the check of the parameters (R18). -/
theorem exec_eq_perform (i : Instr) (s : State) : ∃ f : State → State, exec i s = perform s f := by
  cases i <;>
    simp only [exec, execInit, execReset, execSendByte, execReadByte, execSkipRom, execReadRom, execMatchRom,
      execSearchInit, execSearchNext, execIllegal9, execIllegalA, execIllegalB, execIllegalC, execIllegalD,
      execIllegalE, execIllegalF, execCmdSkipRom, execCmdReadRom, execCmdMatchRom, execCmdSearchRom, execWriteBit0,
      execWriteBit1, execReadBit] <;>
    exact ⟨_, rfl⟩

/-! ## What each meaning is, past the check of the parameters and the gate -/

section Meanings

variable {s : State} (hc : s.cfg.wf = true)

include hc

/-- `write_bit(0)` (R130). -/
theorem exec_writeBit0 : exec .writeBit0 s = .next { s with eng := writeSlot s.cfg false s.eng } := by
  simp only [exec, execWriteBit0, perform, hc, if_true]

/-- `write_bit(1)` (R131). -/
theorem exec_writeBit1 : exec .writeBit1 s = .next { s with eng := writeSlot s.cfg true s.eng } := by
  simp only [exec, execWriteBit1, perform, hc, if_true]

/-- `read_bit()` (R132). -/
theorem exec_readBit : exec .readBit s = .next { s with eng := readSlot s.cfg s.eng } := by
  simp only [exec, execReadBit, perform, hc, if_true]

/-- Wire command byte `0xCC`. -/
theorem exec_cmdSkipRom : exec .cmdSkipRom s = .next { s with eng := sendByteSlots s.cfg wireSkipRom s.eng } := by
  simp only [exec, execCmdSkipRom, perform, hc, if_true]

/-- Wire command byte `0x33`. -/
theorem exec_cmdReadRom : exec .cmdReadRom s = .next { s with eng := sendByteSlots s.cfg wireReadRom s.eng } := by
  simp only [exec, execCmdReadRom, perform, hc, if_true]

/-- Wire command byte `0x55`. -/
theorem exec_cmdMatchRom : exec .cmdMatchRom s = .next { s with eng := sendByteSlots s.cfg wireMatchRom s.eng } := by
  simp only [exec, execCmdMatchRom, perform, hc, if_true]

/-- Wire command byte `0xF0`. -/
theorem exec_cmdSearchRom : exec .cmdSearchRom s = .next { s with eng := sendByteSlots s.cfg wireSearchRom s.eng } := by
  simp only [exec, execCmdSearchRom, perform, hc, if_true]

/-- `init` (R100). -/
theorem exec_init (arg : BitVec 64) : exec (.init arg) s = .next (configureLine arg s) := by
  simp only [exec, execInit, perform, hc, if_true]

variable (hi : s.regs.initialized = true)

include hi

/-- `send_byte` (R140). -/
theorem exec_sendByte (byte : Byte) :
    exec (.sendByte byte) s = .next (endOperation .ok { s with eng := sendByteSlots s.cfg byte s.eng }) := by
  simp only [exec, execSendByte, perform, gated, hc, hi, if_true]

/-- `read_byte` (R141). -/
theorem exec_readByte :
    exec .readByte s = .next (endOperation .ok { s with
      eng := readByteSlots s.cfg s.eng
      regs := { s.regs with rdata := (readByteSlots s.cfg s.eng).tr.shift.setWidth 64 } }) := by
  simp only [exec, execReadByte, perform, gated, hc, hi, if_true]

/-- `reset` (R110). -/
theorem exec_reset {e : Engine} {r : ResetResult} (h : resetPrim s.cfg s.eng = (e, r)) :
    exec .reset s = .next (endOperation r.status { s with eng := e }) := by
  simp only [exec, execReset, perform, gated, hc, hi, if_true, h]

/-- `skip_rom` (R151). -/
theorem exec_skipRom : exec .skipRom s = .next (afterReset .noResponse s fun e =>
    endOperation .ok { s with eng := sendByteSlots s.cfg wireSkipRom e }) := by
  simp only [exec, execSkipRom, perform, gated, hc, hi, if_true]

/-- `read_rom` (R153). -/
theorem exec_readRom : exec .readRom s = .next (afterReset .noResponse s fun e =>
    finishReadRom { s with eng := readRomBytes s.cfg 8 (startReadRom (sendByteSlots s.cfg wireReadRom e)) }) := by
  simp only [exec, execReadRom, perform, gated, hc, hi, if_true]

/-- `match_rom` (R156). -/
theorem exec_matchRom (code : RomCode) : exec (.matchRom code) s = .next (afterReset .noResponse s fun e =>
    endOperation .ok { s with eng := sendCode s.cfg code 8 (startMatch (sendByteSlots s.cfg wireMatchRom e)) }) := by
  simp only [exec, execMatchRom, perform, gated, hc, hi, if_true]

/-- `search_next` with a fork point left (R172). -/
theorem exec_searchNext (hf : s.regs.forkBit ≠ 0) :
    exec .searchNext s = .next (afterReset .noneReturned s (searchPass s)) := by
  simp only [exec, execSearchNext, perform, gated, hc, hi, if_true, hf, if_false]

end Meanings

end Sys2Proof.Machine
end

