-- ==== Sys2Proof/Laws/PerInstr.lean ====
section
/-! SUPPORT. One lemma per constructor of Instr: the word of each instruction has the format, and the opcode, command
byte or operand bit, that its row of the opcode table gives it. -/

namespace Sys2Proof.Laws.HostOpcode

open Sys2Proof

/-- What a row of the opcode table fixes of a word (R66, R68, R69, R73). -/
inductive Row where
  /-- A host command with this opcode. -/
  | host (op : BitVec 4)
  /-- A wire command byte. -/
  | wire (b : Byte)
  /-- A bit primitive with this operand. -/
  | bit (v : BitVec 1)
  /-- The bit primitive without a word. -/
  | none

/-- The row of each instruction, as the opcode table has it. -/
def row : Instr → Row
  | .init _ => .host 0x0
  | .reset => .host 0x1
  | .sendByte _ => .host 0x2
  | .readByte => .host 0x3
  | .skipRom => .host 0x4
  | .readRom => .host 0x5
  | .matchRom _ => .host 0x6
  | .searchInit => .host 0x7
  | .searchNext => .host 0x8
  | .illegal9 => .host 0x9
  | .illegalA => .host 0xA
  | .illegalB => .host 0xB
  | .illegalC => .host 0xC
  | .illegalD => .host 0xD
  | .illegalE => .host 0xE
  | .illegalF => .host 0xF
  | .cmdSkipRom => .wire 0xCC
  | .cmdReadRom => .wire 0x33
  | .cmdMatchRom => .wire 0x55
  | .cmdSearchRom => .wire 0xF0
  | .writeBit0 => .bit 0
  | .writeBit1 => .bit 1
  | .readBit => .none

/-- The word has the row's format and fixed bits. -/
def Statement (i : Instr) : Prop :=
  match row i with
  | .host op => ∃ arg : BitVec 64, encode i = .host (hostWord op arg)
  | .wire b => encode i = .wire b
  | .bit v => encode i = .writeBit v
  | .none => encode i = .readBit

theorem init (lineId : BitVec 64) : Statement (.init lineId) := ⟨lineId, rfl⟩

theorem reset : Statement .reset := ⟨0, rfl⟩

theorem sendByte (byte : Byte) : Statement (.sendByte byte) := ⟨byte.setWidth 64, rfl⟩

theorem readByte : Statement .readByte := ⟨0, rfl⟩

theorem skipRom : Statement .skipRom := ⟨0, rfl⟩

theorem readRom : Statement .readRom := ⟨0, rfl⟩

theorem matchRom (code : RomCode) : Statement (.matchRom code) := ⟨pack code, rfl⟩

theorem searchInit : Statement .searchInit := ⟨0, rfl⟩

theorem searchNext : Statement .searchNext := ⟨0, rfl⟩

theorem illegal9 : Statement .illegal9 := ⟨0, rfl⟩

theorem illegalA : Statement .illegalA := ⟨0, rfl⟩

theorem illegalB : Statement .illegalB := ⟨0, rfl⟩

theorem illegalC : Statement .illegalC := ⟨0, rfl⟩

theorem illegalD : Statement .illegalD := ⟨0, rfl⟩

theorem illegalE : Statement .illegalE := ⟨0, rfl⟩

theorem illegalF : Statement .illegalF := ⟨0, rfl⟩

theorem cmdSkipRom : Statement .cmdSkipRom := rfl

theorem cmdReadRom : Statement .cmdReadRom := rfl

theorem cmdMatchRom : Statement .cmdMatchRom := rfl

theorem cmdSearchRom : Statement .cmdSearchRom := rfl

theorem writeBit0 : Statement .writeBit0 := rfl

theorem writeBit1 : Statement .writeBit1 := rfl

theorem readBit : Statement .readBit := rfl

end Sys2Proof.Laws.HostOpcode
end

