-- ==== Sys2Proof/Laws/Step.lean ====
section
/-! SUPPORT. Everything a step can do, said once, so that no invariant unfolds the step: the work the host's next input
gives, the beginning of a command, and one step of the sequencer. -/

namespace Sys2Proof.Machine

/-- What the host's next input asks for, with no inner call waiting: the power-on reset, a command run to completion, a
command begun, nothing in an idle block, an input spent on a busy block, or one step of the sequencer (R31, R33, R237). -/
theorem step_cases {s t : State} (hi : s.inner = none) (h : step s = .next t) :
    (∃ rest, s.host = .rst :: rest ∧ t = powerOnReset { s with rspValid := false, host := rest }) ∨
    (∃ w rest, s.host = .command w :: rest ∧ s.seq = .idle ∧
      exec (decodeHost w) (accept w { s with rspValid := false, host := rest }) = .next t) ∨
    (∃ w rest, s.host = .start w :: rest ∧ s.seq = .idle ∧
      startCommand (decodeHost w) (accept w { s with rspValid := false, host := rest }) = .next t) ∨
    (∃ rest, s.host = .wait :: rest ∧ s.seq = .idle ∧ t = { s with rspValid := false, host := rest }) ∨
    (s.host = [] ∧ s.seq = .idle ∧ t = { s with rspValid := false }) ∨
    (∃ op phase w rest, s.seq = .busy op phase ∧ (s.host = .command w :: rest ∨ s.host = .start w :: rest) ∧
      t = { s with rspValid := false, host := rest }) ∨
    (∃ op phase rest, s.seq = .busy op phase ∧ (s.host = .wait :: rest ∨ s.host = [] ∧ rest = []) ∧
      sequencerStep { s with rspValid := false, host := rest } = .next t) := by
  obtain ⟨cfg, regs, eng, seq, rspValid, host, inner⟩ := s
  subst hi
  rcases host with _ | ⟨_ | _ | _ | _, rest⟩ <;> rcases seq with _ | ⟨op, phase⟩ <;>
    simp [step, fetch, hostWork, Host.Outcome.next.injEq] at h ⊢ <;>
    first
      | exact h
      | exact h.symm

/-- A command begun: its first phase, or its completion at once (R33, R85). -/
theorem startCommand_cases {i : Instr} {s t : State} (h : startCommand i s = .next t) :
    (s.cfg.wf = true ∧ firstPhase i s = some t) ∨ (firstPhase i s = none ∧ exec i s = .next t) := by
  unfold startCommand at h
  split at h
  · rename_i s' hs
    unfold perform at h
    split at h
    · rename_i hwf
      have ht : s' = t := Host.Outcome.next.inj h
      subst ht
      refine .inl ⟨?_, hs⟩
      have hc : s'.cfg = s.cfg := by
        cases i <;> simp only [firstPhase, firstPhase.opened, goOn] at hs <;> (repeat' split at hs) <;> cases hs <;> rfl
      rwa [hc] at hwf
    · cases h
  · exact .inr ⟨‹_›, h⟩

/-- One step of the sequencer: nothing in `IDLE`, a tick of a running delay, or the event of the phase (R33, R218). -/
theorem sequencerStep_cases {s t : State} (h : sequencerStep s = .next t) :
    (s.seq = .idle ∧ t = s) ∨
    ∃ op phase, s.seq = .busy op phase ∧ s.cfg.wf = true ∧ hasPhase op phase = true ∧
      ((0 < s.eng.tr.timer ∧ t = { s with eng := tick s.eng }) ∨
        (s.eng.tr.timer = 0 ∧ phaseEvent op phase s = .next t)) := by
  unfold sequencerStep at h
  split at h
  · exact .inl ⟨‹_›, (Host.Outcome.next.inj h).symm⟩
  · rename_i op phase hs
    refine .inr ⟨op, phase, hs, ?_⟩
    split at h
    · cases h
    · rename_i hwf
      split at h
      · cases h
      · rename_i hp
        refine ⟨by simpa using hwf, by simpa using hp, ?_⟩
        split at h
        · exact .inl ⟨‹_›, (Host.Outcome.next.inj h).symm⟩
        · exact .inr ⟨by omega, h⟩

/-- The first phase of an operation changes no persistent register, no output, no clock and no trace (R33). -/
theorem firstPhase_frame {i : Instr} {s t : State} (h : firstPhase i s = some t) :
    t.regs = s.regs ∧ t.cfg = s.cfg ∧ t.host = s.host ∧ t.inner = s.inner ∧ t.rspValid = s.rspValid ∧
      t.eng.drv = s.eng.drv ∧ t.eng.crit = s.eng.crit ∧ t.eng.now = s.eng.now ∧ t.eng.log = s.eng.log ∧
      t.eng.wire = s.eng.wire ∧ t.eng.samples = s.eng.samples ∧ t.eng.stalls = s.eng.stalls ∧ t.eng.delays = s.eng.delays ∧
      t.eng.tr.opReg = s.eng.tr.opReg ∧
      t.eng.tr.argReg = s.eng.tr.argReg := by
  cases i <;> simp only [firstPhase, firstPhase.opened, goOn] at h <;> (repeat' split at h) <;> cases h <;> simp

end Sys2Proof.Machine
end

