-- ==== Sys2Proof/Laws/Timing.lean ====
section
/-! SUPPORT. The same run on two platforms that differ only in critical regions and in how well time is kept (R8, R222,
R239): everything but the times is the same, and on the second every `Delay` is a lower bound. -/

namespace Sys2Proof.Machine

open Sys2Proof.Terms

/-- The events that a platform shows; without critical regions those of R8 are omitted. -/
def shown (critical : Bool) (ev : Event) : Bool := critical || (ev != .critEnter && ev != .critExit)

/-- The parameters of the second platform. -/
def onPlatform (critical honoured : Bool) (c : Config) : Config :=
  { c with hasCritical := critical, honoursCrit := honoured }

/-- How long an event takes at least. -/
def leastTime : Event → Nat
  | .delay n => n
  | _ => 0

/-- Events, the newest first: each begins when the one before it is over, a `Delay(n)` at the earliest after `n`. -/
def InTurn : Wave → Nat → Prop
  | [], _ => True
  | (t, ev) :: older, now => t + leastTime ev ≤ now ∧ InTurn older t

/-- What holds now holds later. -/
theorem InTurn.later {wave : Wave} {now now' : Nat} (h : InTurn wave now) (hn : now ≤ now') : InTurn wave now' := by
  cases wave with
  | nil => trivial
  | cons x older => exact ⟨Nat.le_trans h.1 hn, h.2⟩

/-- After a `Delay(n)` nothing comes sooner than `n` after its beginning. -/
theorem InTurn.lowerBound {later early : Wave} {start n now : Nat}
    (h : InTurn (later ++ (start, .delay n) :: early) now) :
    start + n ≤ now ∧ ∀ x ∈ later, start + n ≤ x.1 := by
  induction later generalizing now with
  | nil => exact ⟨h.1, by simp⟩
  | cons y ys ih =>
    obtain ⟨h1, h2⟩ := ih h.2
    refine ⟨by have := h.1; omega, fun x hx => ?_⟩
    rcases List.mem_cons.1 hx with rfl | hx
    · exact h1
    · exact h2 x hx

/-- Two runs from engines with the same trace `past`, the second on a platform that shows the region's events or not:
the same line, the same answers and account of the time base used up, the same registers of R36, the same further events
in the same order, and on the second run every delay a lower bound. -/
structure SameButTime (critical : Bool) (past : Wave) (e e' : Engine) : Prop where
  drv : e'.drv = e.drv
  wire : e'.wire = e.wire
  samples : e'.samples = e.samples
  stalls : e'.stalls = e.stalls
  delays : e'.delays = e.delays
  tr : e'.tr = e.tr
  events : ∃ w w', e.log = w ++ past ∧ e'.log = w' ++ past ∧
    w'.map Prod.snd = (w.map Prod.snd).filter (shown critical) ∧ InTurn w' e'.now

/-- An engine beside itself, before anything has happened. -/
theorem SameButTime.refl (critical : Bool) (e : Engine) : SameButTime critical e.log e e :=
  ⟨rfl, rfl, rfl, rfl, rfl, rfl, [], [], rfl, rfl, rfl, trivial⟩

namespace SameButTime

variable {critical honoured : Bool} {past : Wave} {c : Config} {e e' : Engine}

/-- What the environment will answer is the same. -/
theorem answer (h : SameButTime critical past e e') (k : Nat) : e'.answer k = e.answer k :=
  answer_congr h.wire h.samples k

/-- An update of the registers of R36. -/
theorem withTr (h : SameButTime critical past e e') {f : Transients → Transients} :
    SameButTime critical past { e with tr := f e.tr } { e' with tr := f e'.tr } :=
  ⟨h.drv, h.wire, h.samples, h.stalls, h.delays, congrArg f h.tr, h.events⟩

/-- An event that both platforms show. -/
theorem emit (h : SameButTime critical past e e') {ev : Event} (hv : shown critical ev = true) (hl : leastTime ev = 0) :
    SameButTime critical past (emit ev e) (Machine.emit ev e') := by
  obtain ⟨w, w', h1, h2, h3, h4⟩ := h.events
  refine ⟨h.drv, h.wire, h.samples, h.stalls, h.delays, h.tr, (e.now, ev) :: w, (e'.now, ev) :: w', ?_, ?_, ?_, ?_, h4⟩
  · simp [Machine.emit, h1]
  · simp [Machine.emit, h2]
  · simp [h3, hv]
  · simp [hl]

/-- `DriveLow`. -/
theorem driveLow (h : SameButTime critical past e e') :
    SameButTime critical past (driveLow e) (Machine.driveLow e') :=
  let h1 := h.emit (ev := .driveLow) (by cases critical <;> rfl) rfl
  ⟨rfl, h1.wire, h1.samples, h1.stalls, h1.delays, h1.tr, h1.events⟩

/-- `Release`. -/
theorem release (h : SameButTime critical past e e') :
    SameButTime critical past (release e) (Machine.release e') :=
  let h1 := h.emit (ev := .release) (by cases critical <;> rfl) rfl
  ⟨rfl, h1.wire, h1.samples, h1.stalls, h1.delays, h1.tr, h1.events⟩

/-- `Sample`. -/
theorem sample (h : SameButTime critical past e e') : SameButTime critical past (sample e) (Machine.sample e') := by
  have h1 := h.emit (ev := .sample (e.answer 0)) (by cases critical <;> rfl) rfl
  have ha := h.answer 0
  refine ⟨h1.drv, ?_, ?_, h1.stalls, h1.delays, ?_, ?_⟩
  · simp [h.wire]
  · simp [h.samples]
  · simp [h.tr, ha]
  · rw [← ha] at h1
    simpa [Machine.sample, ha] using h1.events

/-- `Delay(n)`, exact on the first platform or not. -/
theorem delay (h : SameButTime critical past e e') (c c' : Config) (n : Nat) :
    SameButTime critical past (delay c n e) (Machine.delay c' n e') := by
  obtain ⟨w, w', h1, h2, h3, h4⟩ := h.events
  refine ⟨h.drv, h.wire, h.samples, ?_, ?_, ?_, (e.now, .delay n) :: w, (e'.now, .delay n) :: w', ?_, ?_, ?_, ?_, h4⟩
  · simp [h.stalls]
  · simp [h.delays]
  · simp [h.tr]
  · simp [h1]
  · simp [h2]
  · have hs : shown critical (.delay n) = true := by cases critical <;> rfl
    simp [h3, hs]
  · simp [leastTime]

/-- `CritEnter`, omitted where there are no regions (R8). -/
theorem critEnter (h : SameButTime critical past e e') (hc : c.hasCritical = true) :
    SameButTime critical past (critEnter c e) (Machine.critEnter (onPlatform critical honoured c) e') := by
  obtain ⟨w, w', h1, h2, h3, h4⟩ := h.events
  cases critical
  · exact ⟨by simpa [onPlatform, Machine.critEnter, hc] using h.drv, by simpa using h.wire, by simpa using h.samples,
      by simpa using h.stalls, by simpa using h.delays, by simpa using h.tr, (e.now, .critEnter) :: w, w',
      by simp [Machine.critEnter, hc, h1], h2, by simp [h3, shown], h4⟩
  · exact ⟨by simpa using h.drv, by simpa using h.wire, by simpa using h.samples, by simpa using h.stalls,
      by simpa using h.delays, by simpa using h.tr, (e.now, .critEnter) :: w, (e'.now, .critEnter) :: w',
      by simp [Machine.critEnter, hc, h1], by simp [Machine.critEnter, onPlatform, h2], by simp [h3, shown],
      by simp [leastTime], h4⟩

/-- `CritExit`, omitted where there are no regions (R8). -/
theorem critExit (h : SameButTime critical past e e') (hc : c.hasCritical = true) :
    SameButTime critical past (critExit c e) (Machine.critExit (onPlatform critical honoured c) e') := by
  obtain ⟨w, w', h1, h2, h3, h4⟩ := h.events
  cases critical
  · exact ⟨by simpa [onPlatform, Machine.critExit, hc] using h.drv, by simpa using h.wire, by simpa using h.samples,
      by simpa using h.stalls, by simpa using h.delays, by simpa using h.tr, (e.now, .critExit) :: w, w',
      by simp [Machine.critExit, hc, h1], h2, by simp [h3, shown], h4⟩
  · exact ⟨by simpa using h.drv, by simpa using h.wire, by simpa using h.samples, by simpa using h.stalls,
      by simpa using h.delays, by simpa using h.tr, (e.now, .critExit) :: w, (e'.now, .critExit) :: w',
      by simp [Machine.critExit, hc, h1], by simp [Machine.critExit, onPlatform, h2], by simp [h3, shown],
      by simp [leastTime], h4⟩

/-- The gap between primitives. -/
theorem gap (h : SameButTime critical past e e') (c c' : Config) :
    SameButTime critical past (gap c e) (Machine.gap c' e') := by
  obtain ⟨w, w', h1, h2, h3, h4⟩ := h.events
  exact ⟨h.drv, h.wire, h.samples, h.stalls, h.delays, h.tr, w, w', h1, h2, h3, h4.later (by simp)⟩

/-- A write slot (R130, R131). -/
theorem writeSlot (h : SameButTime critical past e e') (hc : c.hasCritical = true) (bit : Bool) :
    SameButTime critical past (writeSlot c bit e) (Machine.writeSlot (onPlatform critical honoured c) bit e') :=
  (((((h.critEnter hc).driveLow).delay _ _ _).release).delay _ _ _).critExit hc

/-- A read slot (R132). -/
theorem readSlot (h : SameButTime critical past e e') (hc : c.hasCritical = true) :
    SameButTime critical past (readSlot c e) (Machine.readSlot (onPlatform critical honoured c) e') :=
  ((((((h.critEnter hc).driveLow).delay _ _ _).release.delay _ _ _).sample).delay _ _ _).critExit hc

/-- The gap before a bit of a byte (R136). -/
theorem bitGap (h : SameButTime critical past e e') (c c' : Config) :
    SameButTime critical past (bitGap c e) (Machine.bitGap c' e') := by
  unfold Machine.bitGap
  rw [h.tr]
  split
  · exact h
  · exact h.gap c c'

/-- The write slots of a byte (R140). -/
theorem sendBits (hc : c.hasCritical = true) (n : Nat) (h : SameButTime critical past e e') :
    SameButTime critical past (sendBits c n e) (Machine.sendBits (onPlatform critical honoured c) n e') := by
  induction n generalizing e e' with
  | zero => exact h
  | succ n ih =>
    simp only [Machine.sendBits, h.tr]
    exact ih (((h.bitGap _ _).writeSlot hc _).withTr
      (f := fun tr => { tr with shift := shiftRight tr.shift, bitcnt := tr.bitcnt + 1 }))

/-- `send_byte` as a subroutine (R140). -/
theorem sendByteSlots (h : SameButTime critical past e e') (hc : c.hasCritical = true) (byte : Byte) :
    SameButTime critical past (sendByteSlots c byte e)
      (Machine.sendByteSlots (onPlatform critical honoured c) byte e') :=
  sendBits hc 8 (h.withTr (f := fun tr => { tr with shift := byte, bitcnt := 0 }))

/-- The read slots of a byte (R141). -/
theorem readBits (hc : c.hasCritical = true) (n : Nat) (h : SameButTime critical past e e') :
    SameButTime critical past (readBits c n e) (Machine.readBits (onPlatform critical honoured c) n e') := by
  induction n generalizing e e' with
  | zero => exact h
  | succ n ih =>
    exact ih (((h.bitGap _ _).readSlot hc).withTr
      (f := fun tr => { tr with shift := insertTop tr.v tr.shift, bitcnt := tr.bitcnt + 1 }))

/-- `read_byte` as a subroutine (R141). -/
theorem readByteSlots (h : SameButTime critical past e e') (hc : c.hasCritical = true) :
    SameButTime critical past (readByteSlots c e) (Machine.readByteSlots (onPlatform critical honoured c) e') :=
  readBits hc 8 (h.withTr (f := fun tr => { tr with shift := 0, bitcnt := 0 }))

/-- The bytes of `match_rom` (R156). -/
theorem sendCode (hc : c.hasCritical = true) (code : RomCode) (n : Nat) (h : SameButTime critical past e e') :
    SameButTime critical past (sendCode c code n e)
      (Machine.sendCode (onPlatform critical honoured c) code n e') := by
  induction n generalizing e e' with
  | zero => exact h
  | succ n ih =>
    simp only [Machine.sendCode, h.tr]
    exact ih (((h.gap _ _).sendByteSlots hc _).withTr (f := fun tr => { tr with bytecnt := tr.bytecnt + 1 }))

/-- The bytes of `read_rom` (R153). -/
theorem readRomBytes (hc : c.hasCritical = true) (n : Nat) (h : SameButTime critical past e e') :
    SameButTime critical past (readRomBytes c n e) (Machine.readRomBytes (onPlatform critical honoured c) n e') := by
  induction n generalizing e e' with
  | zero => exact h
  | succ n ih =>
    exact ih (((h.gap _ _).readByteSlots hc).withTr (f := fun tr => { tr with
      buf := tr.buf.setIfInBounds tr.bytecnt tr.shift
      crc := crc8Fold tr.crc tr.shift
      bytecnt := tr.bytecnt + 1 }))

/-- The positions of a search pass (R172). -/
theorem searchLoop (hc : c.hasCritical = true) (rom : RomCode) (fork : Fin 66) (n : Nat)
    (h : SameButTime critical past e e') :
    SameButTime critical past (searchLoop c rom fork n e).1
        (Machine.searchLoop (onPlatform critical honoured c) rom fork n e').1 ∧
      (Machine.searchLoop (onPlatform critical honoured c) rom fork n e').2 = (Machine.searchLoop c rom fork n e).2 := by
  induction n generalizing e e' with
  | zero => exact ⟨h, rfl⟩
  | succ n ih =>
    have h0 := h.withTr (f := fun tr => { tr with pos := 64 - n, prev := romBit rom (64 - n) })
    have h1 := ((h0.gap c (onPlatform critical honoured c)).readSlot hc (honoured := honoured)).withTr
      (f := fun tr => { tr with b := tr.v })
    have h2 : SameButTime critical past (readPair c rom (64 - n) e)
        (readPair (onPlatform critical honoured c) rom (64 - n) e') :=
      ((h1.gap _ _).readSlot hc).withTr (f := fun tr => { tr with nb := tr.v })
    have hd : decidePosition fork (readPair (onPlatform critical honoured c) rom (64 - n) e') =
        decidePosition fork (readPair c rom (64 - n) e) := by
      unfold decidePosition
      rw [h2.tr]
    simp only [Machine.searchLoop, hd]
    split
    · exact ⟨h2, rfl⟩
    · rename_i d _
      exact ih ((((h2.withTr (f := fun tr => { tr with chosen := d.1, newFork := d.2 })).gap _ _).writeSlot hc d.1).withTr
        (f := fun tr => { tr with newRom := setRomBit tr.newRom tr.pos tr.chosen }))

/-- The rise loop of the bus reset (R113). -/
theorem pollRise (n : Nat) (c : Config) (h : SameButTime critical past e e') :
    SameButTime critical past (pollRise c n e).1 (Machine.pollRise (onPlatform critical honoured c) n e').1 ∧
      (Machine.pollRise (onPlatform critical honoured c) n e').2 = (Machine.pollRise c n e).2 := by
  have hv := congrArg Transients.v h.sample.tr
  induction n generalizing e e' with
  | zero => exact ⟨h.sample, hv⟩
  | succ n ih =>
    simp only [Machine.pollRise, hv]
    split
    · exact ⟨h.sample, rfl⟩
    · have h1 := (h.sample.delay c (onPlatform critical honoured c) c.tPoll).withTr
        (f := fun tr => { tr with rise := tr.rise + 1 })
      exact ih h1 (congrArg Transients.v h1.sample.tr)

/-- The presence loop of the bus reset (R114). -/
theorem pollFall (n : Nat) (c : Config) (h : SameButTime critical past e e') :
    SameButTime critical past (pollFall c n e).1 (Machine.pollFall (onPlatform critical honoured c) n e').1 ∧
      (Machine.pollFall (onPlatform critical honoured c) n e').2 = (Machine.pollFall c n e).2 := by
  have hv := congrArg Transients.v h.sample.tr
  induction n generalizing e e' with
  | zero => exact ⟨h.sample, congrArg (!·) hv⟩
  | succ n ih =>
    simp only [Machine.pollFall, hv]
    split
    · have h1 := (h.sample.delay c (onPlatform critical honoured c) c.tPoll).withTr
        (f := fun tr => { tr with fall := tr.fall + 1 })
      exact ih h1 (congrArg Transients.v h1.sample.tr)
    · exact ⟨h.sample, rfl⟩

/-- The presence loop and the way out of it (R114 to R116). -/
theorem presencePart (hc : c.hasCritical = true) (h : SameButTime critical past e e') :
    SameButTime critical past (presencePart c e).1 (Machine.presencePart (onPlatform critical honoured c) e').1 ∧
      (Machine.presencePart (onPlatform critical honoured c) e').2 = (Machine.presencePart c e).2 := by
  obtain ⟨h1, h2⟩ := (h.withTr (f := fun tr => { tr with fall := 0 })).pollFall c.tPresMax c (honoured := honoured)
  unfold Machine.presencePart
  change SameButTime _ _ (Machine.pollFall c c.tPresMax (startFall e)).1
    (Machine.pollFall _ (onPlatform critical honoured c).tPresMax (startFall e')).1 at h1
  change (Machine.pollFall _ (onPlatform critical honoured c).tPresMax (startFall e')).2 =
    (Machine.pollFall c c.tPresMax (startFall e)).2 at h2
  generalize Machine.pollFall c c.tPresMax (startFall e) = r at h1 h2 ⊢
  generalize Machine.pollFall _ (onPlatform critical honoured c).tPresMax (startFall e') = r' at h1 h2 ⊢
  obtain ⟨x, fell⟩ := r
  obtain ⟨x', fell'⟩ := r'
  cases h2
  cases fell
  · exact ⟨h1.critExit hc, rfl⟩
  · have ht : x'.tr = x.tr := h1.tr
    simp only [ht]
    exact ⟨(h1.delay _ _ _).critExit hc, trivial⟩

/-- The pulse, the rise loop and the way out of it (R112 to R116). -/
theorem pulsePart (hc : c.hasCritical = true) (h : SameButTime critical past e e') :
    SameButTime critical past (pulsePart c e).1 (Machine.pulsePart (onPlatform critical honoured c) e').1 ∧
      (Machine.pulsePart (onPlatform critical honoured c) e').2 = (Machine.pulsePart c e).2 := by
  obtain ⟨h1, h2⟩ := (((h.driveLow.delay c (onPlatform critical honoured c) c.tRstl).release.delay c
    (onPlatform critical honoured c) c.tRec).withTr (f := fun tr => { tr with rise := 0 })).pollRise c.tRiseMax c
      (honoured := honoured)
  unfold Machine.pulsePart
  change SameButTime _ _ (Machine.pollRise c c.tRiseMax (startRise (resetPulse c e))).1
    (Machine.pollRise _ (onPlatform critical honoured c).tRiseMax (startRise (resetPulse _ e'))).1 at h1
  change (Machine.pollRise _ (onPlatform critical honoured c).tRiseMax (startRise (resetPulse _ e'))).2 =
    (Machine.pollRise c c.tRiseMax (startRise (resetPulse c e))).2 at h2
  generalize Machine.pollRise c c.tRiseMax (startRise (resetPulse c e)) = r at h1 h2 ⊢
  generalize Machine.pollRise _ (onPlatform critical honoured c).tRiseMax (startRise (resetPulse _ e')) = r' at h1 h2 ⊢
  obtain ⟨x, rose⟩ := r
  obtain ⟨x', rose'⟩ := r'
  cases h2
  cases rose
  · exact ⟨h1.critExit hc, rfl⟩
  · exact h1.presencePart hc

/-- The bus reset primitive, with its result (R110 to R116). -/
theorem resetPrim (hc : c.hasCritical = true) (h : SameButTime critical past e e') :
    SameButTime critical past (resetPrim c e).1 (Machine.resetPrim (onPlatform critical honoured c) e').1 ∧
      (Machine.resetPrim (onPlatform critical honoured c) e').2 = (Machine.resetPrim c e).2 := by
  have h1 := (h.critEnter hc (honoured := honoured)).sample
  simp only [Machine.resetPrim, congrArg Transients.v h1.tr]
  split
  · exact h1.pulsePart hc
  · exact ⟨h1.critExit hc, rfl⟩

end SameButTime
end Sys2Proof.Machine
end

