-- ==== Sys2Proof/Tests/Slice0.lean ====
section
/-! SUPPORT. Tests, their expected results from 95_test_vectors.md (the vector is named at each), the decoding of words
written out from 30_encoding.md, a refused ill-formed instruction, and for every statement with hypotheses a state and
operands that meet them. -/

namespace Sys2Proof.Tests

open Sys2Proof.Machine Sys2Proof.Terms

/-! ## Small states -/

/-- The source's parameters on a platform that accepts lines 4, 5 and 7, of 8-bit identifiers. -/
def board : Config := Config.canonical 8 [4, 5, 7]

/-- Right after the power-on reset, the environment giving these answers. -/
def fresh (answers : List Bool) : State := { State.reset with cfg := board, eng := { Engine.reset with wire := answers } }

/-- After `init(4)`. -/
def ready (answers : List Bool) : State :=
  { fresh answers with regs := { Regs.reset with initialized := true, lineId := 4, pullUp := true } }

/-- After `init(4)` and `search_init`. -/
def armed (answers : List Bool) : State :=
  { ready answers with regs := { (ready answers).regs with forkBit := 65 } }

/-- The host's next input is this command word. -/
def given (w : CmdWord) (s : State) : State := { s with host := [.command w] }

/-- A view of the next state, if there is one. -/
def seen {α : Type} (o : Host.Outcome State Fault Refusal) (view : State → α) : Option α :=
  match o with
  | .next t => some (view t)
  | .fault _ => none
  | .refused _ => none

/-- The reference environment's answers to a bus reset: idle 1, rise 1, 29 times 1, then the presence pulse (section 2). -/
def device : List Bool := [true, true] ++ (List.replicate 29 true ++ [false])

/-- Code A, `10 11 22 33 44 55 00 0B`. -/
def codeA : RomCode := #v[0x10, 0x11, 0x22, 0x33, 0x44, 0x55, 0x00, 0x0B]

/-- Code B, `28 FF 64 1E 0F 5A 00 A4`. -/
def codeB : RomCode := #v[0x28, 0xFF, 0x64, 0x1E, 0x0F, 0x5A, 0x00, 0xA4]

/-- Code C, `28 01 02 03 04 05 06 9E`. -/
def codeC : RomCode := #v[0x28, 0x01, 0x02, 0x03, 0x04, 0x05, 0x06, 0x9E]

/-- What one device answers in the two read slots of every position. -/
def pairsOf (code : RomCode) : List Bool := (codeBits code).flatMap fun b => [b, !b]

/-- The answers of several devices along a pass from a cursor, as the wire carries them. -/
def pairsAlong (devices : List RomCode) (rom : RomCode) (fork : Nat) : List Bool :=
  (devicePairs rom fork 64 1 0 devices).flatMap fun p => [p.1, p.2]

/-! ## Well-formed instructions -/

/-- A line identifier wider than `LINE_ID_W` is refused. -/
theorem test_wide_line_is_ill_formed : (Instr.init 256).wellFormed 8 = false := by decide

/-- One that fits is not. -/
theorem test_narrow_line_is_well_formed : (Instr.init 255).wellFormed 8 = true := by decide

/-! ## Decoding of words written out from the encodings (R65 to R69, R73) -/

/-- `op = 0000`, `arg = 4` (V-ENC-1). -/
theorem test_decode_init : decodeTableWord 68 0x00000000000000004 = some (.init 4) := by decide

/-- `op = 0001`, the argument ignored. -/
theorem test_decode_reset : decodeTableWord 68 0x1FFFFFFFFFFFFFFFF = some .reset := by decide

/-- `op = 0010`, `byte = arg[7:0]` (V-ENC-1, V-BYTE-5). -/
theorem test_decode_sendByte :
    decodeTableWord 68 0x2FFFFFFFFFFFFFF44 = some (.sendByte 0x44) ∧
      decodeTableWord 68 0x21234567890ABCDEF = some (.sendByte 0xEF) := by decide

/-- `op = 0011`. -/
theorem test_decode_readByte : decodeTableWord 68 0x30000000000000000 = some .readByte := by decide

/-- `op = 0100`. -/
theorem test_decode_skipRom : decodeTableWord 68 0x40000000000000000 = some .skipRom := by decide

/-- `op = 0101`. -/
theorem test_decode_readRom : decodeTableWord 68 0x50000000000000000 = some .readRom := by decide

/-- `op = 0110`, `code[i] = arg[8i+7:8i]` (V-ENC-1, V-ROM-4). -/
theorem test_decode_matchRom :
    decodeTableWord 68 0x60B00554433221110 = some (.matchRom codeA) ∧
      decodeTableWord 68 0x6A4005A0F1E64FF28 = some (.matchRom codeB) := by decide

/-- `op = 0111`. -/
theorem test_decode_searchInit : decodeTableWord 68 0x70000000000000000 = some .searchInit := by decide

/-- `op = 1000`, the argument ignored (V-ENC-1). -/
theorem test_decode_searchNext : decodeTableWord 68 0x8DEADBEEFDEADBEEF = some .searchNext := by decide

/-- The seven illegal opcodes (R68, V-ENC-2). -/
theorem test_decode_illegal :
    decodeTableWord 68 0x90000000000000000 = some .illegal9 ∧ decodeTableWord 68 0xA0000000000000000 = some .illegalA ∧
      decodeTableWord 68 0xB0000000000000000 = some .illegalB ∧
      decodeTableWord 68 0xC0000000000000000 = some .illegalC ∧
      decodeTableWord 68 0xD0000000000000000 = some .illegalD ∧
      decodeTableWord 68 0xE0000000000000000 = some .illegalE ∧
      decodeTableWord 68 0xF0000000000000000 = some .illegalF := by decide

/-- The four wire command bytes; another byte is none (R73, R79). -/
theorem test_decode_wire :
    decodeTableWord 8 0xCC = some .cmdSkipRom ∧ decodeTableWord 8 0x33 = some .cmdReadRom ∧
      decodeTableWord 8 0x55 = some .cmdMatchRom ∧ decodeTableWord 8 0xF0 = some .cmdSearchRom ∧
      decodeTableWord 8 0x44 = none := by decide

/-- The bit primitives (R69, log 10). -/
theorem test_decode_internal :
    decodeTableWord 1 0 = some .writeBit0 ∧ decodeTableWord 1 1 = some .writeBit1 ∧
      decodeTableWord 0 0 = some .readBit := by decide

/-! ## CRC (V-CRC) -/

/-- Spot checks of the table (V-CRC-1). -/
theorem test_crc_table :
    [0x00, 0x01, 0x02, 0x10, 0x80, 0xFF].map crc8Entry = [0x00, 0x5E, 0xBC, 0x9D, 0x8C, 0x35] := by decide

/-- Residuals of the reference codes, of eight bytes `FF`, and the published check value (V-CRC-2, 3, 5). -/
theorem test_crc_residual :
    [codeA, codeB, codeC, Vector.replicate 8 0xFF, #v[0x02, 0x1C, 0xB8, 0x01, 0x00, 0x00, 0x00, 0xA2]].map crcResidual =
      [0, 0, 0, 0xC9, 0] := by decide

/-! ## INIT (V-INIT) -/

/-- Accepted after the power-on reset (V-INIT-1). -/
theorem test_init_accepted :
    seen (step (given 0x00000000000000004 (fresh []))) (fun t => (t.trace, t.regs)) =
      some ([(0, .configure 4 true)], { Regs.reset with initialized := true, lineId := 4, pullUp := true }) := by
  decide

/-- Rejected on an initialised block: the handle stays (V-INIT-3). -/
theorem test_init_rejected :
    seen (step (given 0x00000000000000063 (ready []))) (fun t => (t.trace, t.regs.initialized, t.regs.lineId,
      t.statusPort)) = some ([(0, .configure 99 false)], true, 4, 2) := by
  decide

/-! ## RESET (V-RST) -/

/-- With a device: the last events, the counters, the time (V-RST-1). -/
theorem test_reset_ok :
    seen (step (given 0x10000000000000000 (ready device))) (fun t => (t.eng.log.take 3, t.eng.tr.rise, t.eng.tr.fall,
      t.eng.samples, t.statusPort, t.eng.now)) =
      some ([(961, .critExit), (510, .delay 451), (510, .sample false)], 0, 29, 32, 0, 961) := by
  decide

/-- Without one: 243 samples, `Timeout` at 721 (V-RST-2). -/
theorem test_reset_timeout :
    seen (step (given 0x10000000000000000 (ready (List.replicate 243 true)))) (fun t => (t.eng.log.take 3,
      t.eng.samples, t.statusPort, t.eng.now)) =
      some ([(721, .critExit), (721, .sample true), (720, .delay 1)], 243, 4, 721) := by
  decide +kernel

/-! ## Slots (V-BIT) -/

/-- `write_bit(0)` (V-BIT-1). -/
theorem test_writeBit0 :
    seen (step ((fresh []).withFetchWord 1 0)) State.trace =
      some [(0, .critEnter), (0, .driveLow), (0, .delay 120), (120, .release), (120, .delay 1), (121, .critExit)] := by
  decide

/-- `write_bit(1)` (V-BIT-2). -/
theorem test_writeBit1 :
    seen (step ((fresh []).withFetchWord 1 1)) State.trace =
      some [(0, .critEnter), (0, .driveLow), (0, .delay 1), (1, .release), (1, .delay 119), (120, .critExit)] := by
  decide

/-- `read_bit()` (V-BIT-3). -/
theorem test_readBit :
    seen (step ((fresh [true]).withFetchWord 0 0)) State.trace =
      some [(0, .critEnter), (0, .driveLow), (0, .delay 1), (1, .release), (1, .delay 14), (15, .sample true),
        (15, .delay 105), (120, .critExit)] := by
  decide

/-- A platform with `HAS_CRITICAL = 0` whose time base is 3 late in the first delay: the delay lasts at least 120, and no
region's event is there (R8, R239). -/
theorem test_writeBit0_late :
    seen (exec .writeBit0 { fresh [] with
        cfg := { board with hasCritical := false }, eng := { Engine.reset with stalls := [3, 0] } }) State.trace =
      some [(0, .driveLow), (0, .delay 120), (123, .release), (123, .delay 1)] := by
  decide

/-! ## Bytes (V-BYTE) -/

/-- The times of `DriveLow` in a trace. -/
def drives (t : State) : List Nat := t.trace.filterMap fun x => if x.2 = .driveLow then some x.1 else none

/-- `send_byte(0xA5)` (V-BYTE-1). -/
theorem test_sendByte :
    seen (step (given 0x200000000000000A5 (ready []))) (fun t => (drives t, t.eng.now, t.statusPort)) =
      some ([0, 120, 241, 361, 482, 603, 723, 844], 964, 0) := by
  decide

/-- `read_byte()` with answers 1,0,1,0,0,1,0,1 (V-BYTE-3). -/
theorem test_readByte :
    seen (step (given 0x30000000000000000 (ready [true, false, true, false, false, true, false, true])))
      (fun t => (t.regs.rdata, t.eng.now, t.statusPort)) = some (0xA5, 960, 0) := by
  decide

/-- `read_byte()` with answers 0,0,0,0,0,0,0,1 (V-BYTE-4). -/
theorem test_readByte_last :
    seen (step (given 0x30000000000000000 (ready [false, false, false, false, false, false, false, true])))
      (fun t => t.regs.rdata) = some 0x80 := by
  decide

/-- Uninitialised: an empty trace and status 1 (V-BYTE-6). -/
theorem test_sendByte_gate :
    seen (step (given 0x200000000000000A5 (fresh []))) (fun t => (t.trace, t.statusPort)) = some ([], 1) := by
  decide

/-- The wire command bytes last 964 each (V-BYTE-2). -/
theorem test_wire_bytes :
    [0xCC, 0x33, 0x55, 0xF0].map (fun w => seen (step ((fresh []).withFetchWord 8 w)) fun t => (drives t).length * 1000 +
      t.eng.now) = [some 8964, some 8964, some 8964, some 8964] := by
  decide

/-! ## ROM commands (V-ROM) -/

/-- `skip_rom()` (V-ROM-2): the release times of its byte give the bits 0,0,1,1,0,0,1,1. -/
theorem test_skipRom :
    seen (step (given 0x40000000000000000 (ready device))) (fun t => (t.statusPort, t.eng.now, (drives t).drop 1)) =
      some (0, 1925, [961, 1082, 1203, 1323, 1443, 1564, 1685, 1805]) := by
  set_option maxRecDepth 2000 in decide

/-- `skip_rom()` with the line held low (V-ROM-6). -/
theorem test_skipRom_noResponse :
    seen (step (given 0x40000000000000000 (ready [false]))) (fun t => (t.statusPort, t.eng.now, t.trace)) =
      some (5, 0, [(0, .critEnter), (0, .sample false), (0, .critExit)]) := by
  decide

/-- `read_rom()` with one device (V-ROM-1). -/
theorem test_readRom :
    seen (step (given 0x50000000000000000 (ready (device ++ codeBits codeA))))
      (fun t => (t.statusPort, t.regs.rdata, t.eng.now)) = some (0, 0x0B00554433221110, 9605) := by
  decide +kernel

/-- `read_rom()` with devices A and B (V-ROM-3). -/
theorem test_readRom_collision :
    seen (step (given 0x50000000000000000 (ready (device ++ List.zipWith and (codeBits codeA) (codeBits codeB)))))
      (fun t => (t.statusPort, t.regs.rdata, t.eng.now)) = some (6, 0x0000500412201100, 9605) := by
  decide +kernel

/-- `match_rom(B)` (V-ROM-4). -/
theorem test_matchRom :
    seen (step (given 0x6A4005A0F1E64FF28 (ready device))) (fun t => (t.statusPort, t.eng.now, (drives t).length)) =
      some (0, 9641, 73) := by
  decide +kernel

/-! ## Search (V-SRCH) -/

/-- `search_init()` (S2). -/
theorem test_searchInit :
    seen (step (given 0x70000000000000000 { ready [] with regs := { (ready []).regs with rom := codeC, forkBit := 10 } }))
      (fun t => (t.regs.rom, t.forkBitPort, t.trace, t.statusPort)) = some (zeroRom, 65, [], 0) := by
  decide

/-- The first pass over devices A, B and C (V-SRCH-1). -/
theorem test_searchNext_first :
    seen (step (given 0x80000000000000000 (armed (device ++ pairsAlong [codeA, codeB, codeC] zeroRom 65))))
      (fun t => (t.regs.rom, t.forkBitPort, t.eng.now, t.regs.rdata)) =
      some (codeA, 4, 25011, 0x0B00554433221110) := by
  decide +kernel

/-- The second pass, from A with fork 4 (V-SRCH-2). -/
theorem test_searchNext_second :
    seen (step (given 0x80000000000000000 { ready (device ++ pairsAlong [codeA, codeB, codeC] codeA 4) with
      regs := { (ready []).regs with rom := codeA, forkBit := 4 } }))
      (fun t => (t.regs.rom, t.forkBitPort, t.eng.now)) = some (codeC, 10, 25013) := by
  decide +kernel

/-- The nine outcomes in the order of their codes, 0 to 8 (R200). -/
theorem test_status_codes :
    [Status.ok, .notInitialized, .invalidArgument, .busBusy, .timeout, .noResponse, .invalidCrc, .noneReturned,
      .illegalCmd].map Status.code = [0, 1, 2, 3, 4, 5, 6, 7, 8] := by
  decide

/-- `reset` of a line held low, and `search_next` with no fork point left, on the port `status` (R111, R171, R200). -/
theorem test_busy_and_none_codes :
    seen (step (given 0x10000000000000000 (ready [false]))) State.statusPort = some 3 ∧
      seen (step (given 0x80000000000000000 (ready []))) State.statusPort = some 7 := by
  decide

/-- An illegal command (V-ENC-2). -/
theorem test_illegal :
    [0x9, 0xA, 0xB, 0xC, 0xD, 0xE, 0xF].map (fun op : BitVec 4 =>
      seen (step (given (hostWord op 0) (fresh []))) fun t => (t.trace, t.statusPort, t.regs.initialized)) =
      List.replicate 7 (some ([], 8, false)) := by
  decide

/-! ## The sequencer -/

/-- An operation in progress: `send_byte`, about to drive the line low for its first bit. -/
def sending : State :=
  { ready [] with
    eng := { Engine.reset with crit := true, log := [(0, .critEnter)] }
    seq := .busy .sendByte (.command .driveLow) }

/-- A command presented while busy is not accepted (V-ENC-3). -/
theorem test_command_while_busy :
    seen (step (given 0x10000000000000000 sending)) id = some { sending with host := [] } := by
  decide

/-- The next event of the operation: the line goes low, the delay is to come (R131, R33). -/
theorem test_event_of_busy_block :
    seen (step sending) (fun t => (t.lineOe, t.busy, t.trace)) =
      some (true, true, [(0, .critEnter), (0, .driveLow)]) := by
  decide

/-- The power-on reset in the middle of an operation (R230). -/
theorem test_reset_while_busy :
    seen (step { sending with host := [.rst] }) (fun t => (t.busy, t.critPort, t.regs)) =
      some (false, false, Regs.reset) := by
  decide

/-! ## Witnesses: for every statement with hypotheses, a state and operands that meet them together -/

/-- `ready` meets `Ready`, whatever the environment answers. -/
theorem ready_Ready (answers : List Bool) : Ready (ready answers) := ⟨rfl, rfl, rfl⟩

/-- `armed` meets `Ready`, whatever the environment answers. -/
theorem armed_Ready (answers : List Bool) : Ready (armed answers) := ⟨rfl, rfl, rfl⟩

/-- The reference platform keeps time, whatever the environment answers. -/
theorem ready_OnTime (answers : List Bool) : OnTime board (ready answers).eng := .inl ⟨rfl, rfl⟩

/-- And from an armed cursor. -/
theorem armed_OnTime (answers : List Bool) : OnTime board (armed answers).eng := .inl ⟨rfl, rfl⟩

/-- The reference environment is a bus with a device (V-RST-1). -/
theorem device_Presence : Presence board (ready device).eng 0 29 :=
  ⟨by decide, by decide, by decide, by decide, by decide, by decide, by decide⟩

/-- Both windows used to the end: `rise = 60`, `fall = 240` (R113, R114). -/
def lateDevice : List Bool := [true] ++ List.replicate 60 false ++ List.replicate 241 true ++ [false]

/-- That is still a bus with a device. -/
theorem lateDevice_Presence : Presence board (ready lateDevice).eng 60 240 :=
  ⟨by decide, by decide, by decide, by decide, by decide +kernel, by decide, by decide⟩

/-- A line that does not rise (V-RST-4). -/
theorem stuck_NoRise : NoRise board (ready ([true] ++ List.replicate 61 false)).eng :=
  ⟨by decide, by decide⟩

/-- An empty bus (V-RST-2). -/
theorem empty_NoPresence : NoPresence board (ready (List.replicate 243 true)).eng 0 :=
  ⟨by decide, by decide, by decide, by decide, by decide +kernel⟩

theorem witness_PowerOnResetAbandonsTheOperation :
    sending.inner = none ∧ ({ sending with host := [.rst] } : State).host = .rst :: [] := by decide

theorem witness_StepRunsThePresentedCommand :
    (given 5 (ready [])).seq = .idle ∧ (given 5 (ready [])).inner = none ∧
      (given 5 (ready [])).host = .command 5 :: [] := by decide

theorem witness_StepRunsAnInnerCall :
    ({ ready [] with inner := some (.wire 0xCC) } : State).seq = .idle ∧
      decode (.wire 0xCC) = .ok .cmdSkipRom ∧ decode .readBit = .ok .readBit := by decide

theorem witness_CommandWhileBusyHasNoEffect :
    sending.seq = .busy .sendByte (.command .driveLow) ∧ (given 5 sending).host = .command 5 :: [] ∧
      ({ sending with host := [.start 5] } : State).host = .start 5 :: [] := by decide

theorem witness_AcceptedCommandIsLatched :
    (ready []).seq = .idle ∧ (ready []).inner = none ∧ (ready []).cfg.wf = true ∧
      (ready []).regs.initialized = true ∧ (hostOp (hostWord 0x6 0)).toNat ≤ 6 := by decide

/-- `init` before any other. -/
theorem witness_AcceptedCommandIsLatched_init :
    (fresh []).seq = .idle ∧ (fresh []).inner = none ∧ (fresh []).cfg.wf = true ∧ hostOp (hostWord 0x0 4) = 0x0 := by
  decide

/-- `search_next` from an armed cursor. -/
theorem witness_AcceptedCommandIsLatched_search :
    (armed []).seq = .idle ∧ (armed []).inner = none ∧ (armed []).cfg.wf = true ∧
      (armed []).regs.initialized = true ∧ hostOp (hostWord 0x8 0) = 0x8 ∧ (armed []).regs.forkBit ≠ 0 := by decide

theorem witness_ArgumentFields :
    ((0x8 : BitVec 4) ≠ 0x0 ∧ (0x8 : BitVec 4) ≠ 0x2 ∧ (0x8 : BitVec 4) ≠ 0x6) ∧
      (0x104 : BitVec 64).toNat % 2 ^ (ready []).cfg.lineIdW.val =
        (0x4 : BitVec 64).toNat % 2 ^ (ready []).cfg.lineIdW.val := by decide

/-- Both ends of the code: position 1 is bit 0, position 64 bit 63 (R52). -/
theorem witness_PackedBitIsThePosition :
    (pack codeA).getLsbD 0 = romBit codeA 1 ∧ (pack codeA).getLsbD 63 = romBit codeA 64 := by decide

/-- Each constraint of R7 broken by one. -/
theorem witness_BadConfigurationIsRefused :
    ({ board with tRsth := 299 } : Config).tRsth < board.tRiseMax + board.tPresMax ∧
      ({ board with tLow1 := 15 } : Config).tSample ≤ ({ board with tLow1 := 15 } : Config).tLow1 ∧
      ({ board with tSlot := 15 } : Config).tSlot ≤ ({ board with tSlot := 15 } : Config).tSample := by decide

theorem witness_IllegalOpcodeOnlySetsStatus :
    9 ≤ (9 : BitVec 4).toNat ∧ 9 ≤ (15 : BitVec 4).toNat ∧ (fresh []).cfg.wf = true := by decide

theorem witness_GateStopsEverythingButInit :
    (fresh []).cfg.wf = true ∧ (fresh []).regs.initialized = false := by decide

/-- One identifier the platform accepts and one it does not. -/
theorem witness_InitConfiguresTheLine :
    Ready (ready []) ∧ BitVec.ofNat 64 ((4 : BitVec 64).toNat % 2 ^ (ready []).cfg.lineIdW.val) ∈ (ready []).cfg.lineValid ∧
      BitVec.ofNat 64 ((99 : BitVec 64).toNat % 2 ^ (ready []).cfg.lineIdW.val) ∉ (ready []).cfg.lineValid :=
  ⟨ready_Ready [], by decide, by decide⟩

/-- A watched `init` of an initialised block, its `Configure` event to come. -/
def configuring (arg : BitVec 64) : State :=
  { ready [] with
    eng := { Engine.reset with tr := { Engine.reset.tr with argReg := arg } }
    seq := .busy .init .configure }

/-- While the request is up the ports name the line asked for, pull-up and direction with it (R42, R100). -/
theorem test_configure_ports :
    (configuring 99).cfgReq = true ∧ (configuring 99).lineIdPort = 99 ∧ (configuring 99).cfgOk = false ∧
      (configuring 99).cfgPullUp = true ∧ seen (step (configuring 99)) State.lineIdPort = some 4 := by
  decide

/-- An identifier the platform accepts, and one it does not. -/
theorem witness_ConfigureRequestNamesTheLine (arg : BitVec 64) :
    (configuring arg).seq = .busy .init .configure ∧ (configuring arg).inner = none ∧ (configuring arg).host = [] ∧
      (configuring arg).cfg.wf = true ∧ (configuring arg).eng.tr.timer = 0 ∧ (configuring 5).cfgOk = true ∧
      (configuring 99).cfgOk = false :=
  ⟨rfl, rfl, rfl, rfl, rfl, by decide, by decide⟩

theorem witness_WriteZeroSlot : Ready (ready []) ∧ OnTime board (ready []).eng := ⟨ready_Ready [], ready_OnTime []⟩

theorem witness_WriteOneSlot : Ready (ready []) ∧ OnTime board (ready []).eng := ⟨ready_Ready [], ready_OnTime []⟩

theorem witness_ReadSlot : Ready (ready [true]) ∧ OnTime board (ready [true]).eng :=
  ⟨ready_Ready [true], ready_OnTime [true]⟩

theorem witness_SendByteWritesEightSlots :
    Ready (ready []) ∧ OnTime board (ready []).eng ∧ (ready []).regs.initialized = true :=
  ⟨ready_Ready [], ready_OnTime [], rfl⟩

theorem witness_ReadByteAssemblesEightSamples :
    Ready (ready [true, false]) ∧ OnTime board (ready [true, false]).eng ∧
      (ready [true, false]).regs.initialized = true := ⟨ready_Ready _, ready_OnTime _, rfl⟩

theorem witness_WireCommandBytes : Ready (ready []) ∧ OnTime board (ready []).eng := ⟨ready_Ready [], ready_OnTime []⟩

theorem witness_ResetOnABusyLine :
    Ready (ready [false]) ∧ (ready [false]).regs.initialized = true ∧ (ready [false]).eng.answer 0 = false :=
  ⟨ready_Ready _, rfl, rfl⟩

theorem witness_ResetWithoutRise :
    Ready (ready ([true] ++ List.replicate 61 false)) ∧ OnTime board (ready ([true] ++ List.replicate 61 false)).eng ∧
      (ready ([true] ++ List.replicate 61 false)).regs.initialized = true ∧
      NoRise board (ready ([true] ++ List.replicate 61 false)).eng := 
  ⟨ready_Ready _, ready_OnTime _, rfl, stuck_NoRise⟩

theorem witness_ResetWithoutPresence :
    Ready (ready (List.replicate 243 true)) ∧ OnTime board (ready (List.replicate 243 true)).eng ∧
      (ready (List.replicate 243 true)).regs.initialized = true ∧
      NoPresence board (ready (List.replicate 243 true)).eng 0 := 
  ⟨ready_Ready _, ready_OnTime _, rfl, empty_NoPresence⟩

theorem witness_ResetWithADevice :
    Ready (ready device) ∧ OnTime board (ready device).eng ∧ (ready device).regs.initialized = true ∧
      Presence board (ready device).eng 0 29 :=
  ⟨ready_Ready _, ready_OnTime _, rfl, device_Presence⟩

theorem witness_ResetWithADevice_late :
    Ready (ready lateDevice) ∧ OnTime board (ready lateDevice).eng ∧ (ready lateDevice).regs.initialized = true ∧
      Presence board (ready lateDevice).eng 60 240 :=
  ⟨ready_Ready _, ready_OnTime _, rfl, lateDevice_Presence⟩

/-- Each of the four ways a bus reset can end. -/
theorem witness_EveryAnswerIsAResetOutcome :
    (Ready (ready [false]) ∧ (ready [false]).regs.initialized = true ∧ (ready [false]).eng.answer 0 = false) ∧
    NoRise board (ready ([true] ++ List.replicate 61 false)).eng ∧
    NoPresence board (ready (List.replicate 243 true)).eng 0 ∧ Presence board (ready device).eng 0 29 :=
  ⟨⟨ready_Ready _, rfl, rfl⟩, stuck_NoRise, empty_NoPresence, device_Presence⟩

theorem witness_SkipRomSendsItsByte :
    Ready (ready device) ∧ OnTime board (ready device).eng ∧ (ready device).regs.initialized = true ∧
      Presence board (ready device).eng 0 29 :=
  ⟨ready_Ready _, ready_OnTime _, rfl, device_Presence⟩

theorem witness_ReadRomReturnsTheBytes :
    Ready (ready device) ∧ OnTime board (ready device).eng ∧ (ready device).regs.initialized = true ∧
      Presence board (ready device).eng 0 29 :=
  ⟨ready_Ready _, ready_OnTime _, rfl, device_Presence⟩

theorem witness_MatchRomSendsTheCode :
    Ready (ready device) ∧ OnTime board (ready device).eng ∧ (ready device).regs.initialized = true ∧
      Presence board (ready device).eng 0 29 :=
  ⟨ready_Ready _, ready_OnTime _, rfl, device_Presence⟩

/-- The three ways a bus reset fails. -/
theorem witness_FailedInnerReset :
    (Ready (ready [false]) ∧ (ready [false]).regs.initialized = true ∧ ResetFails board (ready [false]).eng) ∧
      ResetFails board (ready ([true] ++ List.replicate 61 false)).eng ∧
      ResetFails board (ready (List.replicate 243 true)).eng :=
  ⟨⟨ready_Ready _, rfl, .inl rfl⟩, .inr (.inl stuck_NoRise), .inr (.inr ⟨0, empty_NoPresence⟩)⟩

/-- The reference device's answers, then 64 times the same level. -/
def deviceThen (v : Bool) : List Bool := device ++ List.replicate 64 v

theorem deviceThen_Presence (v : Bool) : Presence board (ready (deviceThen v)).eng 0 29 := by
  cases v <;> exact ⟨by decide, by decide, by decide, by decide, by decide, by decide, by decide⟩

theorem witness_ReadRomOfASilentOrStuckLine (v : Bool) :
    Ready (ready (deviceThen v)) ∧ (ready (deviceThen v)).regs.initialized = true ∧
      Presence board (ready (deviceThen v)).eng 0 29 ∧
      ∀ k < 64, (ready (deviceThen v)).eng.answer (resetSamples 0 29 + k) = v :=
  ⟨ready_Ready _, rfl, deviceThen_Presence v, by cases v <;> decide⟩

/-- Code A is valid (V-CRC-2); both ends of its range of positions exist. -/
theorem witness_SingleBitErrorsAreDetected : crcResidual codeA = 0 ∧ 1 ≤ 1 ∧ 64 ≤ 64 := by decide

/-- Before `init` and after it. -/
theorem witness_SearchInitArmsTheCursor :
    (ready []).cfg.wf = true ∧ (ready []).regs.initialized = true ∧ (fresh []).cfg.wf = true ∧
      (fresh []).regs.initialized = false := by decide

/-- Each guard: before `init`, a finished cursor, a bus reset that fails. -/
theorem witness_SearchNextGuards :
    ((fresh []).cfg.wf = true ∧ (fresh []).regs.initialized = false) ∧
      ((ready []).cfg.wf = true ∧ (ready []).regs.forkBit = 0) ∧
      Ready (armed [false]) ∧ (armed [false]).regs.initialized = true ∧ (armed [false]).regs.forkBit ≠ 0 ∧
      ResetFails board (armed [false]).eng :=
  ⟨by decide, by decide, armed_Ready _, rfl, by decide, .inl rfl⟩

/-- The three cases of (0,0) at the ends of their ranges. -/
theorem witness_DecisionAtAPosition :
    (1 < (65 : Fin 66).val ∧ 64 < (65 : Fin 66).val) ∧ (1 = (1 : Fin 66).val ∧ 64 = (64 : Fin 66).val) ∧
      ((0 : Fin 66).val < 1 ∧ (63 : Fin 66).val < 64) := by decide

/-- Both ends: a code returned, and none. -/
theorem witness_SearchNextWritesAllOrOnlyStatus :
    seen (exec .searchNext (armed (device ++ pairsOf codeA))) (fun t => t.regs.status) = some .ok ∧
      seen (exec .searchNext (armed [false])) (fun t => t.regs.status) = some .noneReturned := by
  decide

/-- A bus on which a pass completes. -/
theorem witness_SearchNextMakesThePass :
    Ready (armed (device ++ pairsOf codeA)) ∧ OnTime board (armed (device ++ pairsOf codeA)).eng ∧
      (armed (device ++ pairsOf codeA)).regs.initialized = true ∧
      (armed (device ++ pairsOf codeA)).regs.forkBit ≠ 0 ∧
      Presence board (armed (device ++ pairsOf codeA)).eng 0 29 ∧
      passOver zeroRom 65 (answeredPairs (armed (device ++ pairsOf codeA)).eng (resetSamples 0 29)) 1 0 =
        some (codeBits codeA, 0) :=
  ⟨armed_Ready _, armed_OnTime _, rfl, by decide,
    ⟨by decide, by decide, by decide, by decide, by decide, by decide, by decide⟩,
    by decide⟩

/-- A bus on which it is aborted: nobody answers at the first position (R175). -/
theorem witness_SearchNextMakesThePass_aborted :
    Ready (armed (deviceThen true)) ∧ OnTime board (armed (deviceThen true)).eng ∧
      (armed (deviceThen true)).regs.initialized = true ∧
      (armed (deviceThen true)).regs.forkBit ≠ 0 ∧ Presence board (armed (deviceThen true)).eng 0 29 ∧
      passOver zeroRom 65 (answeredPairs (armed (deviceThen true)).eng (resetSamples 0 29)) 1 0 = none := by
  refine ⟨armed_Ready _, armed_OnTime _, rfl, by decide,
    ⟨by decide, by decide, by decide, by decide, by decide, by decide, by decide⟩, ?_⟩
  have h : (answeredPairs (armed (deviceThen true)).eng (resetSamples 0 29)).head? = some (true, true) := by
    decide
  generalize answeredPairs (armed (deviceThen true)).eng (resetSamples 0 29) = pairs at h
  cases pairs with
  | nil => cases h
  | cons p rest =>
    cases h
    rfl

/-- The answers of devices A, B and C to the first pass from an armed cursor (V-SRCH-1). -/
def firstPass : List Bool := device ++ pairsAlong [codeA, codeB, codeC] zeroRom 65

/-- A pass that meets forks: it returns A, with the last one at position 4 (V-SRCH-1). -/
theorem witness_ForkIsTheLastDeferredBranch :
    Ready (armed firstPass) ∧ (armed firstPass).regs.initialized = true ∧ (armed firstPass).regs.forkBit ≠ 0 ∧
      Presence board (armed firstPass).eng 0 29 :=
  ⟨armed_Ready _, rfl, by decide, by decide, by decide, by decide, by decide, by decide, by decide, by decide⟩

/-- The same bus, as the devices answer a pass from this cursor. -/
def passOf (devices : List RomCode) (rom : RomCode) (fork : Fin 66) : State :=
  { ready (device ++ pairsAlong devices rom fork.val) with
    regs := { (ready []).regs with rom := rom, forkBit := fork } }

theorem witness_SingleDeviceIsFoundAtOnce :
    Ready (passOf [codeB] codeA 4) ∧ (passOf [codeB] codeA 4).regs.initialized = true ∧
      (passOf [codeB] codeA 4).regs.forkBit ≠ 0 ∧ AnswersAsDevices [codeB] (passOf [codeB] codeA 4) :=
  ⟨⟨rfl, rfl, rfl⟩, rfl, by decide, 0, 29,
    ⟨by decide, by decide, by decide, by decide, by decide, by decide, by decide⟩, by decide⟩

/-- Devices A and B answering both passes of their enumeration: the second is from A with the fork at position 4. -/
def bothPasses : State :=
  armed (device ++ pairsAlong [codeA, codeB] zeroRom 65 ++ (device ++ pairsAlong [codeA, codeB] codeA 4))

/-- The second pass by itself, 160 answers having been used up. -/
def secondPass : State :=
  { passOf [codeA, codeB] codeA 4 with eng := { (passOf [codeA, codeB] codeA 4).eng with samples := 160 } }

/-- The bus answers it as its two devices. -/
theorem secondPass_answers : AnswersAsDevices [codeA, codeB] secondPass :=
  ⟨0, 29, ⟨by decide, by decide, by decide, by decide, by decide, by decide, by decide⟩, by decide⟩

/-- Between the passes: the cursor, and the answers still to come (V-SRCH-1 without device C). -/
theorem bothPasses_between :
    (afterSearches 1 bothPasses).cfg = board ∧ (afterSearches 1 bothPasses).regs.rom = codeA ∧
      (afterSearches 1 bothPasses).regs.forkBit = 4 ∧
      (afterSearches 1 bothPasses).eng.wire = secondPass.eng.wire ∧
      (afterSearches 1 bothPasses).eng.samples = 160 := by
  decide +kernel

/-- The bus's answers depend on the parameters, the cursor and the environment alone. -/
theorem answersAsDevices_congr {devices : List RomCode} {s t : State} (h : AnswersAsDevices devices s)
    (hc : t.cfg = s.cfg) (hr : t.regs.rom = s.regs.rom) (hf : t.regs.forkBit = s.regs.forkBit)
    (ha : ∀ k, t.eng.answer k = s.eng.answer k) : AnswersAsDevices devices t := by
  obtain ⟨rise, fall, hp, he⟩ := h
  refine ⟨rise, fall, ?_, ?_⟩
  · rw [hc]
    exact ⟨by rw [ha, hp.idle], fun k hk => by rw [ha, hp.low k hk], by rw [ha, hp.rose], hp.riseInWindow,
      fun j hj => by rw [ha, hp.high j hj], by rw [ha, hp.fell], hp.fallInWindow⟩
  · rw [hr, hf, ← he]
    simp only [answeredPairs, ha]

/-- Two devices, both passes. -/
theorem witness_EnumerationFindsEveryDeviceInOrder :
    [codeA, codeB] ≠ [] ∧ [codeA, codeB].Nodup ∧ Ready bothPasses ∧ bothPasses.regs.initialized = true ∧
      bothPasses.regs.rom = zeroRom ∧ bothPasses.regs.forkBit = 65 ∧
      ∀ k, k < [codeA, codeB].length → AnswersAsDevices [codeA, codeB] (afterSearches k bothPasses) := by
  refine ⟨by decide, by decide, armed_Ready _, rfl, rfl, rfl, fun k hk => ?_⟩
  obtain rfl | rfl : k = 0 ∨ k = 1 := by
    have : k < 2 := hk
    omega
  · exact ⟨0, 29, ⟨by decide, by decide, by decide, by decide, by decide, by decide, by decide⟩, by decide⟩
  · obtain ⟨hc, hr, hf, hw, hs⟩ := bothPasses_between
    exact answersAsDevices_congr secondPass_answers hc hr hf fun k => answer_congr hw hs k

/-- Every instruction answers a next state from `ready`. -/
theorem witness_WriteSetsOfTheOperations (i : Instr) : ∃ t, exec i (ready []) = .next t := by
  obtain ⟨f, h⟩ := exec_eq_perform i (ready [])
  exact ⟨f (ready []), by rw [h, perform_of_wf (by decide)]⟩

theorem witness_OutcomesOfTheOperations (i : Instr) : ∃ t, exec i (fresh []) = .next t := by
  obtain ⟨f, h⟩ := exec_eq_perform i (fresh [])
  exact ⟨f (fresh []), by rw [h, perform_of_wf (by decide)]⟩

theorem witness_OnlyDelaysTakeTime (i : Instr) :
    (ready []).cfg.gap = 0 ∧ OnTime board (ready []).eng ∧ ∃ t, exec i (ready []) = .next t :=
  ⟨rfl, ready_OnTime [], witness_WriteSetsOfTheOperations i⟩

/-- A time base that is late by nothing in the delays to come. -/
def steady : State := { ready [] with eng := { Engine.reset with stalls := [0, 0] } }

theorem witness_WithoutCriticalOnlyTheRegionEventsGo :
    steady.cfg.hasCritical = true ∧ ∃ t, exec .writeBit0 steady = .next t ∧
      ∀ k, k < t.eng.delays - steady.eng.delays → steady.eng.stall k = 0 :=
  ⟨rfl, _, rfl, by decide⟩

/-- On a platform that does not keep time. -/
theorem witness_DelaysAreLowerBounds (i : Instr) :
    (ready []).cfg.hasCritical = true ∧ ∃ t, exec i (ready []) = .next t :=
  ⟨rfl, witness_WriteSetsOfTheOperations i⟩

theorem witness_EveryInstructionEnds : (ready []).cfg.wf = true := by decide

/-- An uninitialised block, and an initialised one with each kind of answer to the bus reset. -/
theorem witness_DurationsWithTheSourceValues :
    (Ready (fresh []) ∧ (fresh []).cfg.Canonical ∧ (fresh []).regs.initialized = false) ∧
    (Ready (ready device) ∧ (ready device).cfg.Canonical ∧ (ready device).regs.initialized = true ∧
      Presence board (ready device).eng 0 29) ∧
    (ready [false]).eng.answer 0 = false ∧ NoRise board (ready ([true] ++ List.replicate 61 false)).eng ∧
    NoPresence board (ready (List.replicate 243 true)).eng 0 :=
  ⟨⟨⟨rfl, rfl, rfl⟩, rfl, rfl⟩, ⟨ready_Ready _, rfl, rfl, device_Presence⟩, rfl, stuck_NoRise, empty_NoPresence⟩

/-- A pass that ends with `OK`. -/
theorem witness_FullPassDuration :
    Ready (armed (device ++ pairsOf codeA)) ∧ (armed (device ++ pairsOf codeA)).cfg.Canonical ∧
      (armed (device ++ pairsOf codeA)).regs.initialized = true ∧
      (armed (device ++ pairsOf codeA)).regs.forkBit ≠ 0 ∧
      Presence board (armed (device ++ pairsOf codeA)).eng 0 29 ∧
      seen (exec .searchNext (armed (device ++ pairsOf codeA))) (fun t => t.regs.status) = some .ok :=
  ⟨armed_Ready _, rfl, rfl, by decide, witness_SearchNextMakesThePass.2.2.2.2.1, by decide⟩

/-- The invariant holds in an idle block after `init`. -/
theorem ready_Inv : Inv (ready []) where
  config := by decide
  noInner := rfl
  armedRom := by decide
  forkZero := by decide
  freshCursor := by decide
  quiet := by decide
  handle := by decide
  lineWidth := by decide
  pins := rfl
  ordered := by decide
  idlePins := fun _ => ⟨rfl, rfl⟩
  busy := fun _ _ h => by cases h

/-- The invariant holds in the middle of an operation. -/
theorem sending_Inv : Inv sending where
  config := by decide
  noInner := rfl
  armedRom := by decide
  forkZero := by decide
  freshCursor := by decide
  quiet := by decide
  handle := by decide
  lineWidth := by decide
  pins := rfl
  ordered := by decide
  idlePins := fun h => by cases h
  busy := fun op phase h => by
    cases h
    exact ⟨rfl, fun _ => rfl, by decide, rfl, rfl, rfl, rfl, by decide, show 0 < 8 by decide⟩

theorem witness_StepKeepsTheInvariant : Inv sending ∧ ∃ t, step sending = .next t := ⟨sending_Inv, _, rfl⟩

theorem witness_StepNeverStops : Inv sending ∧ Inv (ready []) := ⟨sending_Inv, ready_Inv⟩

theorem sending_CountersInRange : CountersInRange sending := by
  unfold CountersInRange
  decide

theorem witness_StepKeepsCountersInRange :
    Inv sending ∧ sending.cfg.Canonical ∧ CountersInRange sending ∧ ∃ t, step sending = .next t :=
  ⟨sending_Inv, rfl, sending_CountersInRange, _, rfl⟩

theorem witness_WatchedOperationEndsAsItsMeaningSays :
    (ready []).seq = .idle ∧ (ready []).inner = none ∧ (ready []).cfg.wf = true := by decide

theorem witness_BusyBlockBecomesIdle :
    Inv sending ∧ sending.cfg.Canonical ∧ CountersInRange sending ∧ sending.host = [] :=
  ⟨sending_Inv, rfl, sending_CountersInRange, rfl⟩

/-- The first clause: a step within an operation, an inner call and an idle block leave no pulse, a command does. -/
theorem witness_RegistersChangeOnlyAtCompletion :
    seen (step sending) State.rspValid = some false ∧
      seen (step ((ready []).withFetchWord 1 0)) State.rspValid = some false ∧
      seen (step (ready [])) State.rspValid = some false ∧
      seen (step (given 0x00000000000000004 (ready []))) State.rspValid = some true := by
  decide

/-- A watched `init` whose last event is the next: the block becomes idle. -/
theorem witness_RegistersChangeOnlyAtCompletion_ends :
    (configuring 5).busy = true ∧ (configuring 5).host = [] ∧
      seen (step (configuring 5)) (fun t => (t.busy, t.rspValid)) = some (false, true) := by
  decide

theorem witness_RegistersChangeOnlyAtCompletion_busy :
    ∃ t, step sending = .next t ∧ t.seq = .busy .sendByte (.command .lowDelay) := ⟨_, rfl, rfl⟩

/-- An idle block, waited for and with nothing left to come. -/
theorem witness_RegistersChangeOnlyAtCompletion_idle :
    (ready []).seq = .idle ∧ (ready []).inner = none ∧ (ready []).host = [] ∧
      ({ ready [] with host := [.wait] } : State).host = .wait :: [] := by
  decide

theorem witness_OnlyResetLeavesTheInitialisedMode :
    ∃ t, step { ready [] with host := [.rst] } = .next t ∧ (ready []).regs.initialized = true ∧
      t.regs.initialized = false := ⟨_, rfl, rfl, rfl⟩

theorem witness_CleanUpOnEveryWayOut (i : Instr) :
    (ready []).eng.drv = .released ∧ (ready []).eng.crit = false ∧ ∃ t, exec i (ready []) = .next t :=
  ⟨rfl, rfl, witness_WriteSetsOfTheOperations i⟩

end Sys2Proof.Tests
end

/-! Under insertion at the top a byte is a shift register of eight places (R16). -/

namespace Sys2Proof.Machine

open Sys2Proof.Terms

@[simp] theorem byteBits_length (b : Byte) : (byteBits b).length = 8 := by
  simp [byteBits]

theorem byteBits_getElem (b : Byte) {i : Nat} (hi : i < (byteBits b).length) :
    (byteBits b)[i] = b.getLsbD i := by
  simp [byteBits]

theorem insertTop_getLsbD (v : Bool) (acc : Byte) {j : Nat} (hj : j < 8) :
    (insertTop v acc).getLsbD j = if j = 7 then v else acc.getLsbD (j + 1) := by
  have top : (if v then 0x80 else 0 : Byte).getLsbD j = (decide (j = 7) && v) := by
    cases v
    · simp
    · have h : ∀ k : Fin 8, (0x80#8).getLsbD k.val = decide (k.val = 7) := by decide
      simpa using h ⟨j, hj⟩
  rw [insertTop, shiftRight, BitVec.getLsbD_or, BitVec.getLsbD_ushiftRight, top, Nat.add_comm 1 j]
  by_cases h : j = 7 <;> simp [h]

theorem insertTop_eq_append (v : Bool) (acc : Byte) :
    insertTop v acc = (BitVec.ofBool v ++ acc.extractLsb' 1 7 : BitVec (1 + 7)) := by
  refine BitVec.eq_of_getLsbD_eq fun j hj => ?_
  rw [insertTop_getLsbD v acc hj, BitVec.getLsbD_append]
  split
  · next h => simp [h]
  · next h =>
    have hlt : j < 7 := by omega
    simp [hlt, Nat.add_comm]

/-- One insertion drops the lowest bit and appends the bit inserted. -/
theorem byteBits_insertTop (v : Bool) (acc : Byte) : byteBits (insertTop v acc) = (byteBits acc).tail ++ [v] := by
  refine List.ext_getElem (by simp) fun j hj _ => ?_
  rw [byteBits_length] at hj
  rw [byteBits_getElem, insertTop_getLsbD v acc hj, List.getElem_append]
  split
  · next h => simp [h]
  · next h =>
    have hlt : j < 7 := by omega
    simp [hlt, byteBits_getElem]

/-- The bits inserted follow those of the start, and as many of the lowest are gone as were inserted. -/
theorem byteBits_foldl_insertTop (bs : List Bool) (acc : Byte) :
    byteBits (bs.foldl (fun a b => insertTop b a) acc) = (byteBits acc ++ bs).drop bs.length := by
  induction bs generalizing acc with
  | nil => simp
  | cons b bs ih =>
    have hne : byteBits acc ≠ [] := List.ne_nil_of_length_pos (by simp)
    calc byteBits (bs.foldl (fun a b => insertTop b a) (insertTop b acc))
        = ((byteBits acc).tail ++ b :: bs).drop bs.length := by rw [ih, byteBits_insertTop]; simp
      _ = (byteBits acc ++ b :: bs).drop (bs.length + 1) := by
        rw [← List.tail_append_of_ne_nil hne, List.drop_tail]

/-- After eight insertions the byte holds the bits inserted, the first lowest, and nothing of the start. -/
theorem byteBits_foldl_insertTop_eight {bs : List Bool} (h : bs.length = 8) (acc : Byte) :
    byteBits (bs.foldl (fun a b => insertTop b a) acc) = bs := by
  have hacc : (byteBits acc).length = bs.length := by simp [h]
  rw [byteBits_foldl_insertTop, ← hacc, List.drop_left]

/-- Settles O11: one insertion bit by bit, eight by the shift register, which then holds only what was inserted. -/
theorem eightInsertionsForgetTheStart : Obligations.EightInsertionsForgetTheStart := by
  unfold Obligations.EightInsertionsForgetTheStart
  refine ⟨fun acc v => insertTop_eq_append v acc, fun acc v i => ?_⟩
  have hbits := byteBits_foldl_insertTop_eight (List.length_ofFn (f := v)) acc
  rw [← byteBits_getElem _ (by simp), List.getElem_of_eq hbits, List.getElem_ofFn]

end Sys2Proof.Machine

/-! What the registers of R48 show on their ports, in every state that holds them, and the idle block with its line
released. -/

namespace Sys2Proof.Machine

open Sys2Proof.Terms

/-- The all-zero code is packed to the zero word (R52). -/
@[simp] theorem pack_zeroRom : pack zeroRom = 0 := by decide

section Ports

variable {s : State}

theorem statusPort_of_regs_reset (h : s.regs = Regs.reset) : s.statusPort = 0 := by
  rw [State.statusPort, h]; rfl

theorem forkBitPort_of_regs_reset (h : s.regs = Regs.reset) : s.forkBitPort = 0 := by
  rw [State.forkBitPort, h]; rfl

theorem romPort_of_regs_reset (h : s.regs = Regs.reset) : s.romPort = 0 := by
  rw [State.romPort, h]; exact pack_zeroRom

theorem lineOe_of_released (h : s.eng.drv = .released) : s.lineOe = false := by
  rw [State.lineOe, h]; rfl

theorem busy_of_idle (h : s.seq = .idle) : s.busy = false := by
  rw [State.busy, h]

end Ports

/-- Settles O1: the registers are R48's as `State.reset` is written, and the ports are those of any state with them. -/
theorem resetLeavesTheSpecValues : Obligations.ResetLeavesTheSpecValues := by
  unfold Obligations.ResetLeavesTheSpecValues
  have hregs : State.reset.regs = Regs.reset := rfl
  have hseq : State.reset.seq = .idle := rfl
  have hdrv : State.reset.eng.drv = .released := rfl
  exact ⟨rfl, rfl, rfl, statusPort_of_regs_reset hregs, rfl, hseq, hdrv, rfl, rfl,
    forkBitPort_of_regs_reset hregs, romPort_of_regs_reset hregs, lineOe_of_released hdrv, busy_of_idle hseq⟩

end Sys2Proof.Machine

/-! Encoding (R65 to R69): what of the argument an opcode reads, and what the illegal opcodes do. -/

namespace Sys2Proof

/-- Only opcodes 0x0, 0x2 and 0x6 have an argument (R67). -/
theorem decodeHost_hostWord_congr_arg {op : BitVec 4} (h0 : op ≠ 0x0) (h2 : op ≠ 0x2) (h6 : op ≠ 0x6)
    (a b : BitVec 64) : decodeHost (hostWord op a) = decodeHost (hostWord op b) := by
  unfold decodeHost
  simp only [hostOp_hostWord, hostArg_hostWord]
  split
  case h_1 h => exact absurd (BitVec.eq_of_toNat_eq h) h0
  case h_3 h => exact absurd (BitVec.eq_of_toNat_eq h) h2
  case h_7 h => exact absurd (BitVec.eq_of_toNat_eq h) h6
  all_goals rfl

theorem decodeHost_hostWord_init (arg : BitVec 64) : decodeHost (hostWord 0x0 arg) = .init arg := by
  simp [decodeHost]

theorem decodeHost_hostWord_sendByte (arg : BitVec 64) :
    decodeHost (hostWord 0x2 arg) = .sendByte (arg.extractLsb' 0 8) := by
  simp [decodeHost]

theorem decodeHost_hostWord_matchRom (arg : BitVec 64) :
    decodeHost (hostWord 0x6 arg) = .matchRom (unpack arg) := by
  simp [decodeHost]

/-- The instructions of the opcodes that select no operation (R68). -/
def illegalInstrs : List Instr := [.illegal9, .illegalA, .illegalB, .illegalC, .illegalD, .illegalE, .illegalF]

theorem decodeHost_hostWord_mem_illegalInstrs {op : BitVec 4} (h : 9 ≤ op.toNat) (arg : BitVec 64) :
    decodeHost (hostWord op arg) ∈ illegalInstrs := by
  unfold decodeHost
  rw [hostOp_hostWord]
  split
  case h_10 | h_11 | h_12 | h_13 | h_14 | h_15 | h_16 => simp [illegalInstrs]
  all_goals omega

end Sys2Proof

namespace Sys2Proof.Machine

section

variable {s : State}

/-- Under bad parameters no instruction has an effect (R18). -/
theorem exec_of_not_wf (h : s.cfg.wf = false) (i : Instr) : exec i s = .refused .badConfiguration := by
  obtain ⟨f, hf⟩ := exec_eq_perform i s
  rw [hf, perform_of_not_wf h]

/-- Of its argument `init` uses the line identifier and nothing else (R67, R100). -/
theorem configureLine_congr_arg {a b : BitVec 64} (h : lineIdOf s.cfg a = lineIdOf s.cfg b) :
    configureLine a s = configureLine b s := by
  rw [configureLine, h]; rfl

theorem exec_init_congr_arg {a b : BitVec 64} (h : lineIdOf s.cfg a = lineIdOf s.cfg b) :
    exec (.init a) s = exec (.init b) s := by
  cases hc : s.cfg.wf with
  | true => rw [exec_init hc, exec_init hc, configureLine_congr_arg h]
  | false => rw [exec_of_not_wf hc, exec_of_not_wf hc]

/-- All seven illegal opcodes have one meaning (R68). -/
theorem exec_of_mem_illegalInstrs (hc : s.cfg.wf = true) {i : Instr} (hi : i ∈ illegalInstrs) :
    exec i s = .next (illegalCommand s) := by
  have heq : exec i s = perform s illegalCommand := by
    simp only [illegalInstrs, List.mem_cons, List.not_mem_nil, or_false] at hi
    rcases hi with rfl | rfl | rfl | rfl | rfl | rfl | rfl <;> rfl
  rw [heq, perform_of_wf hc]

/-- The port `status` shows `ILLEGAL_CMD` (R68, R200). -/
@[simp] theorem illegalCommand_statusPort : (illegalCommand s).statusPort = 8 := rfl

end

/-- Settles O9: the decoder's equation for each opcode, and `init` through the line identifier its argument names. -/
theorem argumentFields : Obligations.ArgumentFields := by
  unfold Obligations.ArgumentFields
  refine ⟨fun op a b h0 h2 h6 => decodeHost_hostWord_congr_arg h0 h2 h6 a b, decodeHost_hostWord_sendByte,
    fun a => ⟨unpack a, decodeHost_hostWord_matchRom a, unpack_getElem a⟩, decodeHost_hostWord_init,
    fun a b s h => exec_init_congr_arg ?_⟩
  rw [lineIdOf, lineIdOf, h]

/-- Settles O13: such a word decodes to one of the illegal instructions, whose one meaning sets `status`. -/
theorem illegalOpcodeOnlySetsStatus : Obligations.IllegalOpcodeOnlySetsStatus := by
  unfold Obligations.IllegalOpcodeOnlySetsStatus
  intro s op arg hop hc
  have hexec := exec_of_mem_illegalInstrs hc (decodeHost_hostWord_mem_illegalInstrs hop arg)
  exact ⟨illegalCommand s, hexec, by simp⟩

end Sys2Proof.Machine

/-! Bus initialisation (R100 to R104): what the gate answers before `init`, and the two ways `init` ends. -/

namespace Sys2Proof.Machine

open Sys2Proof.Terms

/-- The state error of the instructions behind the gate (R104); the others have none. -/
def stateError : Instr → Option Status
  | .reset | .sendByte _ | .readByte | .skipRom | .readRom | .matchRom _ | .searchInit => some .notInitialized
  | .searchNext => some .noneReturned
  | _ => none

section

variable {s : State}

theorem exec_eq_perform_gated {i : Instr} {st : Status} (h : stateError i = some st) :
    ∃ k : State → State, exec i s = perform s (gated st · k) := by
  cases i
  case reset | sendByte | readByte | skipRom | readRom | matchRom | searchInit | searchNext =>
    cases h
    exact ⟨_, rfl⟩
  all_goals cases h

theorem exec_of_uninitialized (hc : s.cfg.wf = true) (hi : s.regs.initialized = false) {i : Instr} {st : Status}
    (h : stateError i = some st) : exec i s = .next (endOperation st s) := by
  obtain ⟨k, hk⟩ := exec_eq_perform_gated (s := s) h
  rw [hk, perform_of_wf hc, gated_closed hi]

theorem lineValid_eq_true_iff {c : Config} {id : BitVec 64} : lineValid c id = true ↔ id ∈ c.lineValid :=
  List.contains_iff_mem

/-- The platform accepts the identifier: the handle is recorded (R100). -/
theorem configureLine_of_mem {arg : BitVec 64} (h : lineIdOf s.cfg arg ∈ s.cfg.lineValid) :
    configureLine arg s = endOperation .ok { s with
      eng := emit (.configure (lineIdOf s.cfg arg) true) s.eng
      regs := { s.regs with lineId := lineIdOf s.cfg arg, pullUp := true, initialized := true } } := by
  simp only [configureLine, lineValid_eq_true_iff.mpr h, if_true]

/-- The platform rejects the identifier: only `status` tells (R101). -/
theorem configureLine_of_not_mem {arg : BitVec 64} (h : lineIdOf s.cfg arg ∉ s.cfg.lineValid) :
    configureLine arg s = endOperation .invalidArgument { s with
      eng := emit (.configure (lineIdOf s.cfg arg) false) s.eng } := by
  have hv : lineValid s.cfg (lineIdOf s.cfg arg) = false :=
    Bool.eq_false_iff.mpr (mt lineValid_eq_true_iff.mp h)
  simp only [configureLine, hv, Bool.false_eq_true, if_false]

/-- The event of `init` as a run of the engine: it takes no time and asks for no sample (R100, R102). -/
theorem engineRan_configure {e : Engine} (hr : e.drv = .released) (hc : e.crit = false) (id : BitVec 64) (ok : Bool) :
    EngineRan e (emit (.configure id ok) e) [(e.now, .configure id ok)] 0 0 where
  log := rfl
  clock := rfl
  answers := rfl
  sampled := rfl
  stalls := rfl
  delays := rfl
  released := hr
  closed := hc
  opReg := rfl
  argReg := rfl

end

/-- Settles O14: each of the eight operations is behind the gate, with its state error. -/
theorem gateStopsEverythingButInit : Obligations.GateStopsEverythingButInit := by
  unfold Obligations.GateStopsEverythingButInit
  intro s byte code hc hi
  have hseven : ∀ i ∈ [Instr.reset, .sendByte byte, .readByte, .skipRom, .readRom, .matchRom code, .searchInit],
      stateError i = some .notInitialized := by
    simp only [List.forall_mem_cons]
    exact ⟨rfl, rfl, rfl, rfl, rfl, rfl, rfl, List.forall_mem_nil _⟩
  exact ⟨fun i hmem => exec_of_uninitialized hc hi (hseven i hmem), exec_of_uninitialized hc hi rfl⟩

/-- Settles O15: by the driver's answer, each outcome an end of the operation over the run of one event. -/
theorem initConfiguresTheLine : Obligations.InitConfiguresTheLine := by
  unfold Obligations.InitConfiguresTheLine
  intro s arg hready
  have hran := engineRan_configure hready.released hready.closed (lineIdOf s.cfg arg)
  have hexec := exec_init hready.config arg
  refine ⟨decodeHost_hostWord_init arg, fun hmem => ?accepted, fun hmem => ?rejected⟩
  case accepted =>
    rw [configureLine_of_mem hmem] at hexec
    exact ⟨_, hexec, ended_of_ran (hran true) .ok _, rfl⟩
  case rejected =>
    rw [configureLine_of_not_mem hmem] at hexec
    exact ⟨_, hexec, ended_of_ran (hran false) .invalidArgument s.regs, rfl⟩

end Sys2Proof.Machine

/-! Bus reset (42_reset_presence.md): each outcome of `reset` is the end of the operation over the run of the primitive. -/

namespace Sys2Proof.Machine

open Sys2Proof.Terms

/-- Settles O23: on a line that reads low the primitive is one region around one low sample, and `reset` ends over it. -/
theorem resetOnABusyLine : Obligations.ResetOnABusyLine := by
  unfold Obligations.ResetOnABusyLine
  intro s hready hinit hlow
  obtain ⟨e, hprim, hran⟩ := resetPrim_busy s.cfg hready.released hready.closed hlow
  exact ⟨_, exec_reset hready.config hinit hprim, ended_of_ran hran .busBusy s.regs⟩

end Sys2Proof.Machine

/-! Bit transport (R130 to R132): each slot is a run of the engine, with its waveform under the source's values. -/

namespace Sys2Proof.Machine

open Sys2Proof.Terms

section

variable {c : Config} (hc : c.Canonical) (t : Nat)

include hc

/-- A write-0 slot with the source's values (R7, R130). -/
theorem write0Wave_of_canonical : write0Wave c t =
    [(t, .critEnter), (t, .driveLow), (t, .delay 120), (t + 120, .release), (t + 120, .delay 1),
      (t + 121, .critExit)] := by
  rw [hc]; rfl

/-- A write-1 slot with the source's values (R7, R131). -/
theorem write1Wave_of_canonical : write1Wave c t =
    [(t, .critEnter), (t, .driveLow), (t, .delay 1), (t + 1, .release), (t + 1, .delay 119),
      (t + 120, .critExit)] := by
  rw [hc]; rfl

/-- A read slot with the source's values (R7, R132). -/
theorem readWave_of_canonical (v : Bool) : readWave c v t =
    [(t, .critEnter), (t, .driveLow), (t, .delay 1), (t + 1, .release), (t + 1, .delay 14), (t + 15, .sample v),
      (t + 15, .delay 105), (t + 120, .critExit)] := by
  rw [hc]; rfl

end

/-! The name `readSlot` is the model's: what is settled of the slots has a namespace of its own. -/

namespace BitTransport

/-- Settles O17: the engine's run of the slot, ended as a primitive; its trace with the source's values. -/
theorem writeZeroSlot : Obligations.WriteZeroSlot := by
  unfold Obligations.WriteZeroSlot
  refine ⟨rfl, fun s hready htime => ?_⟩
  have hend := innerEnded_of_ran (writeSlot_ran hready.config false hready.closed htime).1
  exact ⟨_, exec_writeBit0 hready.config, hend,
    fun hcanon => hend.trace.trans (congrArg _ (write0Wave_of_canonical hcanon _))⟩

/-- Settles O18: as for a 0, with the waveform of a 1. -/
theorem writeOneSlot : Obligations.WriteOneSlot := by
  unfold Obligations.WriteOneSlot
  refine ⟨rfl, fun s hready htime => ?_⟩
  have hend := innerEnded_of_ran (writeSlot_ran hready.config true hready.closed htime).1
  exact ⟨_, exec_writeBit1 hready.config, hend,
    fun hcanon => hend.trace.trans (congrArg _ (write1Wave_of_canonical hcanon _))⟩

/-- Settles O19: the run of the read slot, after which the register `v` holds the level answered. -/
theorem readSlot : Obligations.ReadSlot := by
  unfold Obligations.ReadSlot
  refine ⟨rfl, fun s hready htime => ?_⟩
  obtain ⟨hran, htr⟩ := readSlot_ran hready.config hready.closed htime
  have hend := innerEnded_of_ran hran
  exact ⟨_, exec_readBit hready.config, hend, congrArg Transients.v htr,
    fun hcanon => hend.trace.trans (congrArg _ (readWave_of_canonical hcanon _ _))⟩

end BitTransport

end Sys2Proof.Machine

/-! ROM search (46_rom_search.md): what ends `search_init` and `search_next`, the outcome of the bus reset without a
clock, and the ports of the cursor. -/

namespace Sys2Proof.Machine

open Sys2Proof.Terms

section

variable {s : State}

/-- `fork_bit` is at most 65, so its 7-bit port shows it whole (R29, R42). -/
theorem forkBitPort_toNat (s : State) : s.forkBitPort.toNat = s.regs.forkBit.val := by
  have hlt : s.regs.forkBit.val < 66 := s.regs.forkBit.isLt
  rw [State.forkBitPort, BitVec.toNat_ofNat]
  omega

/-! What the two operations are, and how `search_next` can end. -/

/-- `search_init` past the gate (R170). -/
theorem exec_searchInit (hc : s.cfg.wf = true) (hi : s.regs.initialized = true) :
    exec .searchInit s =
      .next (endOperation .ok { s with regs := { s.regs with rom := zeroRom, forkBit := forkStart } }) := by
  simp only [exec, execSearchInit, perform_of_wf hc, gated_open hi]

/-- A finished cursor gives `NONE` whether or not the gate is open (R171). -/
theorem exec_searchNext_of_forkBit_eq_zero (hc : s.cfg.wf = true) (hf : s.regs.forkBit = 0) :
    exec .searchNext s = .next (endOperation .noneReturned s) := by
  cases hi : s.regs.initialized with
  | true => simp only [exec, execSearchNext, perform_of_wf hc, gated_open hi, if_pos hf]
  | false => exact exec_of_uninitialized hc hi rfl

/-- A bus reset that fails ends `search_next` with `NONE` (R171). -/
theorem exec_searchNext_of_reset_failed (hc : s.cfg.wf = true) (hi : s.regs.initialized = true)
    (hf : s.regs.forkBit ≠ 0) {e : Engine} {r : ResetResult} (hprim : resetPrim s.cfg s.eng = (e, r)) (hr : r ≠ .ok) :
    exec .searchNext s = .next (endOperation .noneReturned { s with eng := e }) := by
  rw [exec_searchNext hc hi hf, afterReset_failed hprim hr]

/-- An operation that begins with a bus reset goes on or ends with its outcome (R120, R171). -/
theorem afterReset_cases (failed : Status) (s : State) (k : Engine → State) :
    (∃ e, afterReset failed s k = k e) ∨ ∃ e, afterReset failed s k = endOperation failed { s with eng := e } := by
  unfold afterReset
  split
  case h_1 => exact .inl ⟨_, rfl⟩
  case h_2 | h_3 => exact .inr ⟨_, rfl⟩

/-- A pass commits or is aborted (R175, R177). -/
theorem searchPass_cases (s : State) (e : Engine) :
    (∃ e', searchPass s e = commitPass { s with eng := e' }) ∨
      ∃ e', searchPass s e = endOperation .noneReturned { s with eng := e' } := by
  unfold searchPass
  split
  case h_1 => exact .inl ⟨_, rfl⟩
  case h_2 => exact .inr ⟨_, rfl⟩

/-- `search_next` ends in the commit of R177, or with `NONE` and nothing else (R171, R175, R178). -/
theorem exec_searchNext_cases {t : State} (h : exec .searchNext s = .next t) :
    (∃ e, t = commitPass { s with eng := e }) ∨ ∃ e, t = endOperation .noneReturned { s with eng := e } := by
  rw [exec, execSearchNext] at h
  obtain ⟨-, rfl⟩ := perform_eq_next h
  cases hi : s.regs.initialized with
  | false => exact .inr ⟨s.eng, gated_closed hi _ _⟩
  | true =>
    rw [gated_open hi]
    split
    case isTrue => exact .inr ⟨s.eng, rfl⟩
    case isFalse =>
      obtain ⟨e, hpass⟩ | hfailed := afterReset_cases .noneReturned s (searchPass s)
      · rw [hpass]
        exact searchPass_cases s e
      · exact .inr hfailed

end

/-! The outcome of the bus reset depends on the answers alone: it is the one on a platform that keeps time. -/

section

variable (c : Config) (e : Engine)

/-- Whether regions are shown and honoured does not change how the bus reset ends (R8, R239). -/
theorem resetPrim_result_onPlatform (critical honoured : Bool) :
    (resetPrim (onPlatform critical honoured c) e).2 = (resetPrim (onPlatform true true c) e).2 :=
  ((SameButTime.refl critical e).resetPrim (c := onPlatform true true c) (honoured := honoured) rfl).2

theorem resetPrim_result_eq_timeKept : (resetPrim c e).2 = (resetPrim (onPlatform true true c) e).2 :=
  resetPrim_result_onPlatform c e c.hasCritical c.honoursCrit

variable {c e}

/-- On a bus where the reset must fail it does, however late the time base is (R111, R113, R114, R239). -/
theorem resetPrim_result_ne_ok (hr : e.drv = .released) (hc : e.crit = false) (h : ResetFails c e) :
    (resetPrim c e).2 ≠ .ok := by
  have htime : OnTime (onPlatform true true c) e := .inl ⟨rfl, rfl⟩
  rw [resetPrim_result_eq_timeKept]
  obtain hbusy | hnoRise | ⟨rise, hnoPresence⟩ := h
  · obtain ⟨e', hprim, -⟩ := resetPrim_busy (onPlatform true true c) hr hc hbusy
    simp [hprim]
  · obtain ⟨e', hprim, -⟩ := resetPrim_noRise (onPlatform true true c) hc htime ⟨hnoRise.idle, hnoRise.low⟩
    simp [hprim]
  · obtain ⟨hidle, hlow, hrose, hwindow, hhigh⟩ := hnoPresence
    obtain ⟨e', hprim, -⟩ :=
      resetPrim_noPresence (onPlatform true true c) hc htime ⟨hidle, hlow, hrose, hwindow, hhigh⟩
    simp [hprim]

end

/-- Settles O37: each guard ends the operation with `NONE`; a bus reset that fails does so over the engine that `reset`
leaves. -/
theorem searchNextGuards : Obligations.SearchNextGuards := by
  unfold Obligations.SearchNextGuards
  refine ⟨fun arg => by simp [decodeHost], fun s hc hguard => ?guard, fun s hready hi hf hfails => ?failedReset⟩
  case guard =>
    obtain hi | hf := hguard
    · exact exec_of_uninitialized hc hi rfl
    · exact exec_searchNext_of_forkBit_eq_zero hc hf
  case failedReset =>
    have hr := resetPrim_result_ne_ok hready.released hready.closed hfails
    exact ⟨_, exec_reset hready.config hi rfl, exec_searchNext_of_reset_failed hready.config hi hf rfl hr⟩

/-- Settles O39: the two ways `search_next` ends, with the registers each writes. -/
theorem searchNextWritesAllOrOnlyStatus : Obligations.SearchNextWritesAllOrOnlyStatus := by
  unfold Obligations.SearchNextWritesAllOrOnlyStatus
  intro s t h
  obtain ⟨e, rfl⟩ | ⟨e, rfl⟩ := exec_searchNext_cases h
  · exact .inl ⟨rfl, forkBitPort_toNat _, rfl, rfl⟩
  · exact .inr ⟨rfl, rfl, rfl, rfl⟩

/-- Settles O36: past the gate the cursor is armed, its ports 65 and the zero word; before `init` the gate answers. -/
theorem searchInitArmsTheCursor : Obligations.SearchInitArmsTheCursor := by
  unfold Obligations.SearchInitArmsTheCursor
  refine ⟨fun arg => by simp [decodeHost], fun s hc => ⟨fun hi => ?armed, fun hi => ?closed⟩⟩
  case armed => exact ⟨_, exec_searchInit hc hi, rfl, rfl, pack_zeroRom, rfl⟩
  case closed => exact ⟨_, exec_of_uninitialized hc hi rfl, rfl, rfl, rfl, rfl⟩

/-! The decision at a position, one equation for each pair and side of the fork point (R173, R174). -/

section

variable {fork newFork : Fin 66} {pos : Nat} {prev : Bool}

theorem decideBit_before_fork (h : pos < fork.val) :
    decideBit fork pos prev false false newFork = some (prev, if prev then newFork else Fin.ofNat 66 pos) :=
  if_pos h

theorem decideBit_at_fork (h : pos = fork.val) :
    decideBit fork pos prev false false newFork = some (true, newFork) := by
  simp only [decideBit, if_neg h.not_lt, if_pos h]

theorem decideBit_past_fork (h : fork.val < pos) :
    decideBit fork pos prev false false newFork = some (false, Fin.ofNat 66 pos) := by
  simp only [decideBit, if_neg h.not_gt, if_neg h.ne']

end

/-- Settles O38: the equation of each case. -/
theorem decisionAtAPosition : Obligations.DecisionAtAPosition := by
  unfold Obligations.DecisionAtAPosition
  exact fun fork newFork pos prev _ _ => ⟨fun h => ⟨decideBit_before_fork h, decideBit_before_fork h⟩,
    decideBit_at_fork, decideBit_past_fork, rfl, rfl⟩

end Sys2Proof.Machine

/-! How an instruction ends, through the operations its meaning is made of: what holds of the state at each way out
holds of the state answered. -/

namespace Sys2Proof.Machine

section

variable {s t : State} {P : State → Prop}

theorem perform_next_of {f : State → State} (h : perform s f = .next t) (hf : P (f s)) : P t :=
  (perform_eq_next h).2 ▸ hf

theorem gated_of {closed : Status} {k : State → State} (hclosed : P (endOperation closed s)) (hopen : P (k s)) :
    P (gated closed s k) := by
  unfold gated
  split
  · exact hopen
  · exact hclosed

/-- The bus reset goes first: the operation goes on from the engine it leaves or ends over it (R120, R150). -/
theorem afterReset_of {failed : Status} {k : Engine → State}
    (hfailed : P (endOperation failed { s with eng := (resetPrim s.cfg s.eng).1 }))
    (hok : P (k (gap s.cfg (resetPrim s.cfg s.eng).1))) : P (afterReset failed s k) := by
  generalize hprim : resetPrim s.cfg s.eng = prim at hfailed hok
  obtain ⟨e, r⟩ := prim
  by_cases hr : r = .ok
  · subst hr
    rw [afterReset_ok hprim]
    exact hok
  · rw [afterReset_failed hprim hr]
    exact hfailed

theorem configureLine_of {arg : BitVec 64}
    (haccepted : P (endOperation .ok { s with
      eng := emit (.configure (lineIdOf s.cfg arg) true) s.eng
      regs := { s.regs with lineId := lineIdOf s.cfg arg, pullUp := true, initialized := true } }))
    (hrejected : P (endOperation .invalidArgument { s with
      eng := emit (.configure (lineIdOf s.cfg arg) false) s.eng })) : P (configureLine arg s) := by
  by_cases h : lineIdOf s.cfg arg ∈ s.cfg.lineValid
  · rw [configureLine_of_mem h]
    exact haccepted
  · rw [configureLine_of_not_mem h]
    exact hrejected

end

end Sys2Proof.Machine

/-! The line released and no region open (R213): every primitive keeps it, and with it every instruction. -/

namespace Sys2Proof.Machine

/-- The line is released and no region is open (R213). -/
def Engine.AtRest (e : Engine) : Prop := e.drv = .released ∧ e.crit = false

/-- The line is released, and no region is open but one that `CritExit` closes (R116). -/
def Engine.AtRestInside (c : Config) (e : Engine) : Prop :=
  e.drv = .released ∧ (c.hasCritical = false → e.crit = false)

section

variable {c : Config} {e : Engine}

theorem critEnter_atRestInside (h : e.AtRest) : (critEnter c e).AtRestInside c :=
  ⟨by simpa using h.1, fun hc => by simpa [hc] using h.2⟩

theorem critExit_atRest (h : e.AtRestInside c) : (critExit c e).AtRest := by
  obtain ⟨hreleased, hclosed⟩ := h
  refine ⟨by simpa using hreleased, ?_⟩
  cases hc : c.hasCritical with
  | true => simp [hc]
  | false => simpa [hc] using hclosed hc

/-! The bus reset (R110 to R116): within its region the line is released from the end of the pulse on. -/

theorem pollRise_atRestInside (n : Nat) (h : e.AtRestInside c) : (pollRise c n e).1.AtRestInside c := by
  induction n generalizing e with
  | zero => exact h
  | succ n ih =>
    simp only [pollRise]
    split
    · exact h
    · exact ih h

theorem pollFall_atRestInside (n : Nat) (h : e.AtRestInside c) : (pollFall c n e).1.AtRestInside c := by
  induction n generalizing e with
  | zero => exact h
  | succ n ih =>
    simp only [pollFall]
    split
    · exact ih h
    · exact h

theorem presencePart_atRest (h : e.AtRestInside c) : (presencePart c e).1.AtRest := by
  have hpoll := pollFall_atRestInside c.tPresMax (e := startFall e) h
  unfold presencePart
  split
  case h_1 heq | h_2 heq =>
    rw [heq] at hpoll
    exact critExit_atRest hpoll

theorem pulsePart_atRest (h : e.AtRestInside c) : (pulsePart c e).1.AtRest := by
  have hpoll := pollRise_atRestInside c.tRiseMax (e := startRise (resetPulse c e)) ⟨rfl, h.2⟩
  unfold pulsePart
  split
  case h_1 heq =>
    rw [heq] at hpoll
    exact critExit_atRest hpoll
  case h_2 heq =>
    rw [heq] at hpoll
    exact presencePart_atRest hpoll

theorem resetPrim_atRest (h : e.AtRest) : (resetPrim c e).1.AtRest := by
  have hsampled : (sample (critEnter c e)).AtRestInside c := critEnter_atRestInside h
  simp only [resetPrim]
  split
  · exact pulsePart_atRest hsampled
  · exact critExit_atRest hsampled

/-! Slots, bytes and codes (R130 to R132, R140, R141, R153, R156). -/

theorem writeSlot_atRest (bit : Bool) (h : e.AtRest) : (writeSlot c bit e).AtRest :=
  critExit_atRest ⟨rfl, (critEnter_atRestInside h).2⟩

theorem readSlot_atRest (h : e.AtRest) : (readSlot c e).AtRest :=
  critExit_atRest ⟨rfl, (critEnter_atRestInside h).2⟩

theorem bitGap_atRest (h : e.AtRest) : (bitGap c e).AtRest := by
  unfold bitGap
  split <;> exact h

theorem sendBits_atRest (n : Nat) (h : e.AtRest) : (sendBits c n e).AtRest := by
  induction n generalizing e with
  | zero => exact h
  | succ n ih => exact ih (writeSlot_atRest _ (bitGap_atRest h))

theorem sendByteSlots_atRest (byte : Byte) (h : e.AtRest) : (sendByteSlots c byte e).AtRest :=
  sendBits_atRest 8 h

theorem readBits_atRest (n : Nat) (h : e.AtRest) : (readBits c n e).AtRest := by
  induction n generalizing e with
  | zero => exact h
  | succ n ih => exact ih (readSlot_atRest (bitGap_atRest h))

theorem readByteSlots_atRest (h : e.AtRest) : (readByteSlots c e).AtRest :=
  readBits_atRest 8 h

theorem sendCode_atRest (code : RomCode) (n : Nat) (h : e.AtRest) : (sendCode c code n e).AtRest := by
  induction n generalizing e with
  | zero => exact h
  | succ n ih => exact ih (sendByteSlots_atRest _ h)

theorem readRomBytes_atRest (n : Nat) (h : e.AtRest) : (readRomBytes c n e).AtRest := by
  induction n generalizing e with
  | zero => exact h
  | succ n ih => exact ih (readByteSlots_atRest h)

/-! The search pass (R172 to R176), committed or aborted. -/

theorem readPair_atRest (rom : RomCode) (pos : Nat) (h : e.AtRest) : (readPair c rom pos e).AtRest :=
  readSlot_atRest (e := gap c _) (readSlot_atRest (e := gap c (startPosition rom pos e)) h)

theorem answerPosition_atRest (d : Bool × Fin 66) (h : e.AtRest) : (answerPosition c d e).AtRest :=
  writeSlot_atRest (e := gap c (takeDecision d e)) d.1 h

theorem searchLoop_atRest (rom : RomCode) (fork : Fin 66) (n : Nat) (h : e.AtRest) :
    (searchLoop c rom fork n e).1.AtRest := by
  induction n generalizing e with
  | zero => exact h
  | succ n ih =>
    have hpair := readPair_atRest (c := c) rom (64 - n) h
    simp only [searchLoop]
    split
    · exact hpair
    · exact ih (answerPosition_atRest _ hpair)

end

/-- The same of a whole state. -/
def State.AtRest (s : State) : Prop := s.eng.AtRest

section

variable {s t : State}

theorem searchPass_atRest {e : Engine} (h : e.AtRest) : (searchPass s e).AtRest := by
  have hloop := searchLoop_atRest (c := s.cfg) s.regs.rom s.regs.forkBit 64
    (e := startPass (sendByteSlots s.cfg wireSearchRom e)) (sendByteSlots_atRest _ h)
  unfold searchPass
  split
  case h_1 heq | h_2 heq =>
    rw [heq] at hloop
    exact hloop

/-- An operation that begins with a bus reset ends at rest if what follows the reset keeps it. -/
theorem gated_afterReset_atRest {closed failed : Status} {k : State → Engine → State} (h : s.AtRest)
    (hk : ∀ e : Engine, e.AtRest → (k s e).AtRest) :
    (gated closed s fun s => afterReset failed s (k s)).AtRest :=
  have hreset : (resetPrim s.cfg s.eng).1.AtRest := resetPrim_atRest h
  gated_of h (afterReset_of hreset (hk _ hreset))

/-- Clean-up on every way out (R213). -/
theorem exec_atRest {i : Instr} (h : s.AtRest) (hx : exec i s = .next t) : t.AtRest := by
  cases i <;> rw [exec] at hx
  case init => exact perform_next_of hx (configureLine_of h h)
  case reset => exact perform_next_of hx (gated_of h (resetPrim_atRest h))
  case sendByte byte => exact perform_next_of hx (gated_of h (sendByteSlots_atRest byte h))
  case readByte => exact perform_next_of hx (gated_of h (readByteSlots_atRest h))
  case skipRom =>
    exact perform_next_of hx (gated_afterReset_atRest h fun e he => sendByteSlots_atRest wireSkipRom he)
  case readRom =>
    exact perform_next_of hx (gated_afterReset_atRest h fun e he =>
      readRomBytes_atRest 8 (sendByteSlots_atRest wireReadRom he))
  case matchRom code =>
    exact perform_next_of hx (gated_afterReset_atRest h fun e he =>
      sendCode_atRest code 8 (sendByteSlots_atRest wireMatchRom he))
  case searchInit =>
    exact perform_next_of hx (gated_of h h)
  case searchNext =>
    refine perform_next_of hx (gated_of h ?_)
    split
    · exact h
    · have hreset : (resetPrim s.cfg s.eng).1.AtRest := resetPrim_atRest h
      exact afterReset_of hreset (searchPass_atRest hreset)
  case illegal9 | illegalA | illegalB | illegalC | illegalD | illegalE | illegalF => exact perform_next_of hx h
  case cmdSkipRom | cmdReadRom | cmdMatchRom | cmdSearchRom =>
    exact perform_next_of hx (sendByteSlots_atRest _ h)
  case writeBit0 | writeBit1 => exact perform_next_of hx (writeSlot_atRest _ h)
  case readBit => exact perform_next_of hx (readSlot_atRest h)

end

/-- Settles O60: every instruction keeps the engine at rest, and the two ports show it. -/
theorem cleanUpOnEveryWayOut : Obligations.CleanUpOnEveryWayOut := by
  unfold Obligations.CleanUpOnEveryWayOut
  intro i s t hreleased hclosed hx
  obtain ⟨hreleased', hclosed'⟩ := exec_atRest ⟨hreleased, hclosed⟩ hx
  exact ⟨hreleased', hclosed', lineOe_of_released hreleased', hclosed'⟩

end Sys2Proof.Machine

/-! Which operation can end with which outcome (R201), and what has none. -/

namespace Sys2Proof.Machine

/-- The status is one of these outcomes. -/
def EndsWith (outcomes : List Status) (s : State) : Prop := s.regs.status ∈ outcomes

/-- The outcomes that R201 lists for a host command; the illegal opcodes share one
meaning, and the instructions of the inner port have no outcome. -/
def listedOutcomes : Instr → Option (List Status)
  | .init _ => some [.ok, .invalidArgument]
  | .reset => some [.ok, .notInitialized, .busBusy, .timeout]
  | .sendByte _ | .readByte | .searchInit => some [.ok, .notInitialized]
  | .skipRom | .matchRom _ => some [.ok, .notInitialized, .noResponse]
  | .readRom => some [.ok, .notInitialized, .noResponse, .invalidCrc]
  | .searchNext => some [.ok, .noneReturned]
  | _ => none

/-- What only runs the engine: the bit primitives (R134). -/
def primitiveInstrs : List Instr := [.writeBit0, .writeBit1, .readBit]

section

variable {s t : State} {outcomes : List Status}

theorem endOperation_endsWith {st : Status} (h : st ∈ outcomes := by decide) :
    EndsWith outcomes (endOperation st s) := h

theorem endOperation_reset_endsWith (r : ResetResult) :
    EndsWith [.ok, .notInitialized, .busBusy, .timeout] (endOperation r.status s) := by
  cases r <;> exact endOperation_endsWith

/-- After its eight bytes `read_rom` ends by the residual (R154). -/
theorem finishReadRom_endsWith : EndsWith [.ok, .notInitialized, .noResponse, .invalidCrc] (finishReadRom s) := by
  unfold finishReadRom
  split
  · exact endOperation_endsWith
  · exact endOperation_endsWith

theorem exec_endsWith {i : Instr} (hi : listedOutcomes i = some outcomes) (hx : exec i s = .next t) :
    EndsWith outcomes t := by
  cases i <;> cases hi <;> rw [exec] at hx
  case init => exact perform_next_of hx (configureLine_of endOperation_endsWith endOperation_endsWith)
  case reset => exact perform_next_of hx (gated_of endOperation_endsWith (endOperation_reset_endsWith _))
  case sendByte | readByte | searchInit =>
    exact perform_next_of hx (gated_of endOperation_endsWith endOperation_endsWith)
  case skipRom | matchRom =>
    exact perform_next_of hx (gated_of endOperation_endsWith
      (afterReset_of endOperation_endsWith endOperation_endsWith))
  case readRom =>
    exact perform_next_of hx (gated_of endOperation_endsWith
      (afterReset_of endOperation_endsWith finishReadRom_endsWith))
  case searchNext =>
    obtain ⟨e, rfl⟩ | ⟨e, rfl⟩ := exec_searchNext_cases hx
    · exact endOperation_endsWith
    · exact endOperation_endsWith

/-- The port shows the outcome's code (R200). -/
theorem exec_outcome_mem {i : Instr} {shown : List (Status × BitVec 4)}
    (hi : (listedOutcomes i).map (List.map fun st => (st, st.code)) = some shown) (hx : exec i s = .next t) :
    (t.regs.status, t.statusPort) ∈ shown := by
  obtain ⟨outcomes, hlisted, rfl⟩ := Option.map_eq_some_iff.mp hi
  exact List.mem_map_of_mem (exec_endsWith hlisted hx)

/-- What answers a next state runs under good parameters (R18). -/
theorem config_wf_of_exec {i : Instr} (hx : exec i s = .next t) : s.cfg.wf = true := by
  obtain ⟨f, hf⟩ := exec_eq_perform i s
  exact (perform_eq_next (hf.symm.trans hx)).1

theorem exec_illegal_eq {i : Instr} (hi : i ∈ illegalInstrs) (hx : exec i s = .next t) : t = illegalCommand s :=
  Host.Outcome.next.inj (hx.symm.trans (exec_of_mem_illegalInstrs (config_wf_of_exec hx) hi))

/-- A bit primitive writes nothing but the engine's state (R134). -/
theorem exec_primitive_eq {i : Instr} (hi : i ∈ primitiveInstrs) (hx : exec i s = .next t) :
    ∃ e, t = { s with eng := e } := by
  have hc := config_wf_of_exec hx
  simp only [primitiveInstrs, List.mem_cons, List.not_mem_nil, or_false] at hi
  rcases hi with rfl | rfl | rfl
  · exact ⟨_, Host.Outcome.next.inj (hx.symm.trans (exec_writeBit0 hc))⟩
  · exact ⟨_, Host.Outcome.next.inj (hx.symm.trans (exec_writeBit1 hc))⟩
  · exact ⟨_, Host.Outcome.next.inj (hx.symm.trans (exec_readBit hc))⟩

end

/-- Settles O45: by the table of R201's lists, each outcome beside its code; the illegal opcodes have one meaning, and a
bit primitive leaves `status`. -/
theorem outcomesOfTheOperations : Obligations.OutcomesOfTheOperations := by
  unfold Obligations.OutcomesOfTheOperations
  intro s t arg byte code
  refine ⟨exec_outcome_mem rfl, exec_outcome_mem rfl, exec_outcome_mem rfl, exec_outcome_mem rfl,
    exec_outcome_mem rfl, exec_outcome_mem rfl, exec_outcome_mem rfl, exec_outcome_mem rfl, exec_outcome_mem rfl,
    fun i hi hx => ?illegal, fun i hi hx => ?primitive⟩
  case illegal =>
    cases exec_illegal_eq hi hx
    rfl
  case primitive =>
    obtain ⟨e, rfl⟩ := exec_primitive_eq hi hx
    rfl

end Sys2Proof.Machine

/-! Encoding (R52, R65 to R69, R73): every instruction through its word and back, and fixed words. -/

namespace Sys2Proof

/-- The low byte of a widened byte is the byte (R67). -/
theorem extractLsb'_setWidth_byte (b : Byte) : (b.setWidth 64).extractLsb' 0 8 = b := by
  refine BitVec.eq_of_getLsbD_eq fun i hi => ?_
  simp [hi, show i < 64 by omega]

/-- Settles O8: the host commands by the decoder's equation for their opcode, the other rows by their fixed words. -/
theorem decodeOfEncodeIsTheInstruction : Obligations.DecodeOfEncodeIsTheInstruction := by
  unfold Obligations.DecodeOfEncodeIsTheInstruction
  intro i
  cases i
  case init lineId => rw [encode, decode, decodeHost_hostWord_init]
  case sendByte byte => rw [encode, decode, decodeHost_hostWord_sendByte, extractLsb'_setWidth_byte]
  case matchRom code => rw [encode, decode, decodeHost_hostWord_matchRom, unpack_pack]
  case reset | readByte | skipRom | readRom | searchInit | searchNext | illegal9 | illegalA | illegalB | illegalC
      | illegalD | illegalE | illegalF =>
    simp [encode, decode, decodeHost]
  case cmdSkipRom | cmdReadRom | cmdMatchRom | cmdSearchRom | writeBit0 | writeBit1 | readBit => rfl

/-- Settles O7: the decoder run on each word. -/
theorem wordsOfTheTableDecode : Obligations.WordsOfTheTableDecode := by
  unfold Obligations.WordsOfTheTableDecode
  decide

/-- Settles O10: bit `p - 1` of the packed code is the bit of its byte that the position names. -/
theorem packedBitIsThePosition : Obligations.PackedBitIsThePosition := by
  unfold Obligations.PackedBitIsThePosition
  intro r p h1 h64
  exact pack_getLsbD r (p - 1) (by omega)

end Sys2Proof

/-! The parameters' check (R18), and that every instruction answers under good ones (R23). -/

namespace Sys2Proof.Machine

/-- Settles O12: each broken inequality fails the check, and then no instruction has an effect. -/
theorem badConfigurationIsRefused : Obligations.BadConfigurationIsRefused := by
  unfold Obligations.BadConfigurationIsRefused
  intro i s hbad
  refine exec_of_not_wf (Bool.eq_false_iff.mpr fun hwf => ?_) i
  obtain ⟨hlow, hsample, hwindow⟩ := (config_wf_iff s.cfg).mp hwf
  omega

/-- Settles O49: every arm is a function of the state behind the parameters' check. -/
theorem everyInstructionEnds : Obligations.EveryInstructionEnds := by
  unfold Obligations.EveryInstructionEnds
  intro i s hwf
  obtain ⟨f, hf⟩ := exec_eq_perform i s
  exact ⟨f s, hf.trans (perform_of_wf hwf f)⟩

end Sys2Proof.Machine

/-! The CRC unit (R91 to R94): an entry is eight steps of a shift register that can be run backwards, so a fold never
forgets a difference. -/

namespace Sys2Proof.Machine

/-- One shift of the generating rule (R91). -/
def crcStep (c : Byte) : Byte := if c.getLsbD 0 then (c >>> 1) ^^^ 0x8C else c >>> 1

/-- The shift backwards: the top bit tells which way it went. -/
def crcUnstep (c : Byte) : Byte := if c.msb then ((c ^^^ 0x8C) <<< 1) ||| 1 else c <<< 1

theorem crcUnstep_crcStep : Function.LeftInverse crcUnstep crcStep := by
  unfold Function.LeftInverse
  decide

/-- The table against its generating rule, entry by entry (R91). -/
theorem crc8Entry_eq_foldl_crcStep (i : Byte) : crc8Entry i = (List.range 8).foldl (fun c _ => crcStep c) i := by
  revert i
  decide +kernel

/-- Settles O33: the generating rule is eight shifts. -/
theorem crcTableFollowsItsRule : Obligations.CrcTableFollowsItsRule := by
  unfold Obligations.CrcTableFollowsItsRule
  exact crc8Entry_eq_foldl_crcStep

theorem crc8Entry_injective : Function.Injective crc8Entry := by
  have heq : crc8Entry = crcStep^[8] := funext fun i => crc8Entry_eq_foldl_crcStep i
  rw [heq]
  exact crcUnstep_crcStep.injective.iterate 8

/-- The accumulator is 0 after a byte exactly when the byte is what it was before (R92, R93). -/
theorem crc8Fold_eq_zero_iff (crc byte : Byte) : crc8Fold crc byte = 0 ↔ byte = crc := by
  have hzero : crc8Entry 0#8 = 0#8 := rfl
  change crc8Entry (crc ^^^ byte) = 0#8 ↔ _
  rw [← hzero, crc8Entry_injective.eq_iff, BitVec.xor_eq_zero_iff, eq_comm]

theorem crc8Fold_injective_left (byte : Byte) : Function.Injective fun crc => crc8Fold crc byte :=
  fun _ _ h => (BitVec.xor_left_inj _).mp (crc8Entry_injective h)

theorem crc8Fold_injective_right (crc : Byte) : Function.Injective (crc8Fold crc) :=
  fun _ _ h => (BitVec.xor_right_inj _).mp (crc8Entry_injective h)

/-- Accumulators that differ stay different under the same further bytes (R92). -/
theorem foldl_crc8Fold_injective (bytes : List Byte) : Function.Injective fun crc => bytes.foldl crc8Fold crc := by
  induction bytes with
  | nil => exact fun _ _ h => h
  | cons byte bytes ih => exact ih.comp (crc8Fold_injective_left byte)

/-- One byte replaced by another gives another accumulator (R92, R94). -/
theorem foldl_crc8Fold_set_ne {bytes : List Byte} {i : Nat} (hi : i < bytes.length) {byte : Byte}
    (hne : byte ≠ bytes[i]) (crc : Byte) : (bytes.set i byte).foldl crc8Fold crc ≠ bytes.foldl crc8Fold crc := by
  rw [List.set_eq_take_append_cons_drop, if_pos hi]
  conv_rhs => rw [← List.take_append_drop i bytes, List.drop_eq_getElem_cons hi]
  simp only [List.foldl_append, List.foldl_cons]
  exact fun h => hne (crc8Fold_injective_right _ (foldl_crc8Fold_injective _ h))

/-- Settles O34: the residual folds byte 7 last, which gives 0 for the accumulator's own value alone. -/
theorem validCodeEndsInItsCrc : Obligations.ValidCodeEndsInItsCrc := by
  unfold Obligations.ValidCodeEndsInItsCrc
  intro r
  have hbytes : r.toList = r.toList.take 7 ++ [r[7]] := by
    have hlen : 7 < r.toList.length := by simp
    conv_lhs => rw [← List.take_append_drop 7 r.toList, List.drop_eq_getElem_cons hlen]
    simp
  rw [crcResidual, hbytes, List.foldl_append, List.foldl_cons, List.foldl_nil, crc8Fold_eq_zero_iff, ← hbytes]

/-- Settles O35: the flipped bit replaces one byte by another. -/
theorem singleBitErrorsAreDetected : Obligations.SingleBitErrorsAreDetected := by
  unfold Obligations.SingleBitErrorsAreDetected
  intro r p h1 h64 hvalid
  have hi : (p - 1) / 8 < 8 := by omega
  have hbits := romBit_setRomBit r (!romBit r p) h1 h64 h1 h64
  rw [if_pos rfl] at hbits
  rw [← hvalid, crcResidual, crcResidual, setRomBit, Vector.toList_setIfInBounds]
  refine foldl_crc8Fold_set_ne (by simpa using hi) (fun hsame => ?_) crcInit
  have hcode : setRomBit r p (!romBit r p) = r := by
    rw [setRomBit, hsame]
    ext j hj : 1
    rw [Vector.getElem_setIfInBounds]
    split
    · next h => simp [← h]
    · rfl
  rw [hcode] at hbits
  simp at hbits

end Sys2Proof.Machine

/-! One step (R31, R33, R230, R237): what the host's next input asks for. -/

namespace Sys2Proof.Machine

section

variable {s : State}

/-- With no inner call waiting a step asserts the power-on reset when the host does (R230). -/
theorem step_of_rst (hinner : s.inner = none) {rest : List HostInput} (hhost : s.host = .rst :: rest) :
    step s = .next (powerOnReset { s with host := rest, rspValid := false }) := by
  obtain ⟨cfg, regs, eng, seq, rspValid, host, inner⟩ := s
  cases hinner
  cases hhost
  rfl

/-- An idle block runs the command presented (R31). -/
theorem step_of_command (hseq : s.seq = .idle) (hinner : s.inner = none) {w : CmdWord} {rest : List HostInput}
    (hhost : s.host = .command w :: rest) :
    step s = exec (decodeHost w) (accept w { s with host := rest, rspValid := false }) := by
  obtain ⟨cfg, regs, eng, seq, rspValid, host, inner⟩ := s
  cases hseq
  cases hinner
  cases hhost
  rfl

/-- An idle block begins the command it is to be watched at (R31, R33). -/
theorem step_of_start (hseq : s.seq = .idle) (hinner : s.inner = none) {w : CmdWord} {rest : List HostInput}
    (hhost : s.host = .start w :: rest) :
    step s = startCommand (decodeHost w) (accept w { s with host := rest, rspValid := false }) := by
  obtain ⟨cfg, regs, eng, seq, rspValid, host, inner⟩ := s
  cases hseq
  cases hinner
  cases hhost
  rfl

/-- A busy block to which nothing is presented takes its next step (R33). -/
theorem step_of_busy (hseq : s.seq ≠ .idle) (hinner : s.inner = none) (hhost : s.host = []) :
    step s = sequencerStep { s with rspValid := false } := by
  obtain ⟨cfg, regs, eng, seq, rspValid, host, inner⟩ := s
  cases hinner
  cases hhost
  cases seq with
  | idle => exact absurd rfl hseq
  | busy op phase => rfl

end

open Sys2Proof.Terms

/-- Settles O2: the state is the power-on reset's, whose registers are R48's and whose trace is empty. -/
theorem powerOnResetAbandonsTheOperation : Obligations.PowerOnResetAbandonsTheOperation := by
  unfold Obligations.PowerOnResetAbandonsTheOperation
  intro s rest hinner hhost
  have hregs : (powerOnReset { s with host := rest, rspValid := false }).regs = Regs.reset := rfl
  exact ⟨_, step_of_rst hinner hhost, rfl, rfl, rfl, statusPort_of_regs_reset hregs, rfl, rfl, rfl, rfl, rfl, rfl,
    List.forall_mem_nil _, rfl, rfl, rfl, rfl, forkBitPort_of_regs_reset hregs, romPort_of_regs_reset hregs,
    lineOe_of_released rfl, busy_of_idle rfl⟩

/-- Settles O3: the instruction runs from the state that has accepted the word. -/
theorem stepRunsThePresentedCommand : Obligations.StepRunsThePresentedCommand := by
  unfold Obligations.StepRunsThePresentedCommand
  intro s w rest hseq hinner hhost
  exact ⟨_, step_of_command hseq hinner hhost, rfl, rfl, hseq, rfl, hinner, rfl, rfl⟩

/-- Settles O4: an idle block looks into the inner latch first. -/
theorem stepRunsAnInnerCall : Obligations.StepRunsAnInnerCall := by
  unfold Obligations.StepRunsAnInnerCall
  intro s tw i hseq hinner hdecode
  simp only [step, fetch, hinner, hseq, hdecode]

/-- Settles O5: in either way of presenting it, and whether or not the inner latch is filled. -/
theorem commandWhileBusyHasNoEffect : Obligations.CommandWhileBusyHasNoEffect := by
  unfold Obligations.CommandWhileBusyHasNoEffect
  intro s op phase w rest hseq hhost
  obtain ⟨cfg, regs, eng, seq, rspValid, host, inner⟩ := s
  cases hseq
  obtain hhost | hhost := hhost <;> cases hhost <;> cases inner <;> rfl

/-! The first phase of a command (R33, R85, R104, R171). -/

/-- Does the host command have an event? Every one but `init` needs the gate open, `search_next` a fork point. -/
def hasEvent (regs : Regs) : Instr → Bool
  | .init _ => true
  | .reset | .sendByte _ | .readByte | .skipRom | .readRom | .matchRom _ => regs.initialized
  | .searchNext => regs.initialized && decide (regs.forkBit ≠ 0)
  | .searchInit | .illegal9 | .illegalA | .illegalB | .illegalC | .illegalD | .illegalE | .illegalF => false
  | .cmdSkipRom | .cmdReadRom | .cmdMatchRom | .cmdSearchRom | .writeBit0 | .writeBit1 | .readBit => false

theorem firstPhase_isSome (i : Instr) (s : State) : (firstPhase i s).isSome = hasEvent s.regs i := by
  cases i
  case searchNext =>
    rw [hasEvent, firstPhase, firstPhase.opened]
    by_cases hf : s.regs.forkBit = 0
    · rw [if_pos hf, decide_eq_false (not_not_intro hf), Bool.and_false]
      rfl
    · rw [if_neg hf, decide_eq_true hf, Bool.and_true]
      cases s.regs.initialized <;> rfl
  all_goals
    simp only [firstPhase, firstPhase.opened, hasEvent]
    cases s.regs.initialized <;> rfl

/-- A first phase is one of the operation's own, its first event outside any region, the block busy with it. -/
theorem firstPhase_seq {i : Instr} {s t : State} (h : firstPhase i s = some t) :
    ∃ op phase, t.seq = .busy op phase ∧ hasPhase op phase = true ∧ phase.inRegion = false := by
  cases i <;> simp only [firstPhase, firstPhase.opened] at h <;> (repeat' split at h) <;> cases h <;>
    exact ⟨_, _, rfl, rfl, rfl⟩

/-- A command with events begins (R33). -/
theorem startCommand_of_firstPhase {i : Instr} {s t : State} (hwf : s.cfg.wf = true) (h : firstPhase i s = some t) :
    startCommand i s = .next t := by
  obtain ⟨-, hcfg, -⟩ := firstPhase_frame h
  rw [startCommand, h]
  exact perform_of_wf (hcfg ▸ hwf) id

/-- Which opcodes select a command with events, past the gate and with a fork point left (R66). -/
theorem hasEvent_decodeHost {regs : Regs} {w : CmdWord}
    (h : hostOp w = 0x0 ∨ (regs.initialized = true ∧ ((hostOp w).toNat ≤ 6 ∨ (hostOp w = 0x8 ∧ regs.forkBit ≠ 0)))) :
    hasEvent regs (decodeHost w) = true := by
  unfold decodeHost
  generalize hostOp w = op at h ⊢
  obtain rfl | ⟨hi, hop | ⟨rfl, hf⟩⟩ := h
  · rfl
  · interval_cases hn : op.toNat
    · rfl
    all_goals exact hi
  · exact (Bool.and_eq_true _ _).mpr ⟨hi, decide_eq_true hf⟩

/-- Settles O6: such a command has a first phase, which the step enters and which changes nothing else. -/
theorem acceptedCommandIsLatched : Obligations.AcceptedCommandIsLatched := by
  unfold Obligations.AcceptedCommandIsLatched
  intro s w rest hseq hinner hhost hwf hop
  obtain ⟨t, ht⟩ := Option.isSome_iff_exists.mp
    ((firstPhase_isSome (decodeHost w) (accept w { s with host := rest, rspValid := false })).trans
      (hasEvent_decodeHost hop))
  obtain ⟨op, phase, hbusy, -⟩ := firstPhase_seq ht
  obtain ⟨hregs, -, -, -, -, -, -, hnow, hlog, -, -, -, -, hopReg, hargReg⟩ := firstPhase_frame ht
  have hb : t.busy = true := by rw [State.busy, hbusy]
  exact ⟨t, (step_of_start hseq hinner hhost).trans (startCommand_of_firstPhase hwf ht), hb,
    by rw [State.cmdReady, hb]; rfl, hopReg, hargReg, hregs, congrArg List.reverse hlog, hnow⟩

/-! The `Configure` request (R42, R100). -/

/-- Without a request the port shows the register (log 20). -/
theorem cfgReq_of_idle {s : State} (h : s.seq = .idle) : s.cfgReq = false := by
  rw [State.cfgReq, h]

/-- The `Configure` event of `init` leaves the block idle (R100). -/
theorem configureLine_seq (arg : BitVec 64) (s : State) : (configureLine arg s).seq = .idle :=
  configureLine_of (P := fun t => t.seq = .idle) rfl rfl

/-- Settles O16: the request is up in this phase, and the step is the event of the phase, by the platform's answer. -/
theorem configureRequestNamesTheLine : Obligations.ConfigureRequestNamesTheLine := by
  unfold Obligations.ConfigureRequestNamesTheLine
  intro s hseq hinner hhost hwf htimer
  have hreq : s.cfgReq = true := by rw [State.cfgReq, hseq]
  have hport : s.lineIdPort = lineIdOf s.cfg s.eng.tr.argReg := by rw [State.lineIdPort, hreq, if_pos rfl]
  have hok : s.cfgOk = true ↔ lineIdOf s.cfg s.eng.tr.argReg ∈ s.cfg.lineValid := lineValid_eq_true_iff
  have hstep : step s = .next (configureLine s.eng.tr.argReg { s with rspValid := false }) := by
    rw [step_of_busy (by simp [hseq]) hinner hhost, sequencerStep]
    simp [hseq, hwf, hasPhase, htimer, phaseEvent]
  have hidle : (configureLine s.eng.tr.argReg { s with rspValid := false }).cfgReq = false :=
    cfgReq_of_idle (configureLine_seq _ _)
  refine ⟨hreq, rfl, by rw [State.cfgPullUp, hreq]; rfl, hport, hport ▸ hok, _, hstep, ?_, hidle, ?_, ?_⟩
  · rw [hport]
    by_cases h : lineIdOf s.cfg s.eng.tr.argReg ∈ s.cfg.lineValid
    · rw [configureLine_of_mem (s := { s with rspValid := false }) h, hok.mpr h]
      simp [State.trace, Engine.trace]
    · rw [configureLine_of_not_mem (s := { s with rspValid := false }) h, Bool.eq_false_iff.mpr (mt hok.mp h)]
      simp [State.trace, Engine.trace]
  · rw [State.cfgPullUp, hidle, Bool.false_or]
  · rw [State.lineIdPort, hidle, hport]
    by_cases h : lineIdOf s.cfg s.eng.tr.argReg ∈ s.cfg.lineValid
    · rw [configureLine_of_mem (s := { s with rspValid := false }) h, hok.mpr h]
      rfl
    · rw [configureLine_of_not_mem (s := { s with rspValid := false }) h, Bool.eq_false_iff.mpr (mt hok.mp h)]
      rfl

end Sys2Proof.Machine

/-! Two runs of one instruction side by side (R8, R239): what each event keeps, every instruction keeps. -/

namespace Sys2Proof.Machine

open Sys2Proof.Terms

/-- A relation between the engines of two runs, `closed` outside a critical region and `opened` inside one, that every
event and every update of the registers of R36 keeps; the second run is on another platform. -/
structure Lockstep (c : Config) (critical honoured : Bool) (closed opened : Engine → Engine → Prop) : Prop where
  closed_tr : ∀ {e e'}, closed e e' → e'.tr = e.tr
  opened_tr : ∀ {e e'}, opened e e' → e'.tr = e.tr
  configure : ∀ {e e'} (id : BitVec 64) (ok : Bool),
    closed e e' → closed (emit (.configure id ok) e) (emit (.configure id ok) e')
  gap : ∀ {e e'}, closed e e' → closed (gap c e) (gap c e')
  closed_withTr : ∀ {e e'} {tr : Transients}, closed e e' → tr.opReg = e.tr.opReg → tr.argReg = e.tr.argReg →
    closed { e with tr := tr } { e' with tr := tr }
  opened_withTr : ∀ {e e'} {tr : Transients}, opened e e' → tr.opReg = e.tr.opReg → tr.argReg = e.tr.argReg →
    opened { e with tr := tr } { e' with tr := tr }
  critEnter : ∀ {e e'}, closed e e' → opened (critEnter c e) (critEnter (onPlatform critical honoured c) e')
  critExit : ∀ {e e'}, opened e e' → closed (critExit c e) (critExit (onPlatform critical honoured c) e')
  driveLow : ∀ {e e'}, opened e e' → opened (driveLow e) (driveLow e')
  release : ∀ {e e'}, opened e e' → opened (release e) (release e')
  sample : ∀ {e e'}, opened e e' → opened (sample e) (sample e')
  delay : ∀ {e e'} (n : Nat), opened e e' → opened (delay c n e) (delay (onPlatform critical honoured c) n e')

namespace Lockstep

section Engine

variable {c : Config} {critical honoured : Bool} {closed opened : Engine → Engine → Prop}
  (l : Lockstep c critical honoured closed opened) {e e' : Engine}

include l

/-- An update of the registers of R36 outside a region, the same in both runs. -/
theorem closed_update (h : closed e e') (f : Transients → Transients) (ho : (f e.tr).opReg = e.tr.opReg)
    (ha : (f e.tr).argReg = e.tr.argReg) : closed { e with tr := f e.tr } { e' with tr := f e'.tr } := by
  rw [l.closed_tr h]
  exact l.closed_withTr h ho ha

/-- The same inside a region. -/
theorem opened_update (h : opened e e') (f : Transients → Transients) (ho : (f e.tr).opReg = e.tr.opReg)
    (ha : (f e.tr).argReg = e.tr.argReg) : opened { e with tr := f e.tr } { e' with tr := f e'.tr } := by
  rw [l.opened_tr h]
  exact l.opened_withTr h ho ha

/-! Slots and bytes (R130 to R132, R140, R141). -/

theorem writeSlot (bit : Bool) (h : closed e e') :
    closed (writeSlot c bit e) (Machine.writeSlot (onPlatform critical honoured c) bit e') :=
  l.critExit (l.delay _ (l.release (l.delay _ (l.driveLow (l.critEnter h)))))

theorem readSlot (h : closed e e') :
    closed (readSlot c e) (Machine.readSlot (onPlatform critical honoured c) e') :=
  l.critExit (l.delay _ (l.sample (l.delay _ (l.release (l.delay _ (l.driveLow (l.critEnter h)))))))

theorem bitGap (h : closed e e') :
    closed (bitGap c e) (Machine.bitGap (onPlatform critical honoured c) e') := by
  unfold Machine.bitGap
  rw [l.closed_tr h]
  split
  · exact h
  · exact l.gap h

theorem sendBits (n : Nat) (h : closed e e') :
    closed (sendBits c n e) (Machine.sendBits (onPlatform critical honoured c) n e') := by
  induction n generalizing e e' with
  | zero => exact h
  | succ n ih =>
    simp only [Machine.sendBits, l.closed_tr h]
    exact ih (l.closed_update (l.writeSlot _ (l.bitGap h))
      (fun tr => { tr with shift := shiftRight tr.shift, bitcnt := tr.bitcnt + 1 }) rfl rfl)

theorem sendByteSlots (byte : Byte) (h : closed e e') :
    closed (sendByteSlots c byte e) (Machine.sendByteSlots (onPlatform critical honoured c) byte e') :=
  l.sendBits 8 (l.closed_update h (fun tr => { tr with shift := byte, bitcnt := 0 }) rfl rfl)

theorem readBits (n : Nat) (h : closed e e') :
    closed (readBits c n e) (Machine.readBits (onPlatform critical honoured c) n e') := by
  induction n generalizing e e' with
  | zero => exact h
  | succ n ih =>
    exact ih (l.closed_update (l.readSlot (l.bitGap h))
      (fun tr => { tr with shift := insertTop tr.v tr.shift, bitcnt := tr.bitcnt + 1 }) rfl rfl)

theorem readByteSlots (h : closed e e') :
    closed (readByteSlots c e) (Machine.readByteSlots (onPlatform critical honoured c) e') :=
  l.readBits 8 (l.closed_update h (fun tr => { tr with shift := 0, bitcnt := 0 }) rfl rfl)

theorem sendCode (code : RomCode) (n : Nat) (h : closed e e') :
    closed (sendCode c code n e) (Machine.sendCode (onPlatform critical honoured c) code n e') := by
  induction n generalizing e e' with
  | zero => exact h
  | succ n ih =>
    simp only [Machine.sendCode, l.closed_tr h]
    exact ih (l.closed_update (l.sendByteSlots _ (l.gap h)) (fun tr => { tr with bytecnt := tr.bytecnt + 1 }) rfl rfl)

theorem startMatch (h : closed e e') : closed (startMatch e) (Machine.startMatch e') :=
  l.closed_update h (fun tr => { tr with bytecnt := 0 }) rfl rfl

theorem readRomBytes (n : Nat) (h : closed e e') :
    closed (readRomBytes c n e) (Machine.readRomBytes (onPlatform critical honoured c) n e') := by
  induction n generalizing e e' with
  | zero => exact h
  | succ n ih =>
    exact ih (l.closed_update (l.readByteSlots (l.gap h)) (fun tr => { tr with
      buf := tr.buf.setIfInBounds tr.bytecnt tr.shift
      crc := crc8Fold tr.crc tr.shift
      bytecnt := tr.bytecnt + 1 }) rfl rfl)

theorem startReadRom (h : closed e e') : closed (startReadRom e) (Machine.startReadRom e') :=
  l.closed_update h (fun tr => { tr with crc := crcInit, bytecnt := 0 }) rfl rfl

/-! The search pass (R172 to R176). -/

theorem readPair (rom : RomCode) (pos : Nat) (h : closed e e') :
    closed (readPair c rom pos e) (Machine.readPair (onPlatform critical honoured c) rom pos e') :=
  have hstart := l.closed_update h (fun tr => { tr with pos := pos, prev := romBit rom pos }) rfl rfl
  have htrue := l.closed_update (l.readSlot (l.gap hstart)) (fun tr => { tr with b := tr.v }) rfl rfl
  l.closed_update (l.readSlot (l.gap htrue)) (fun tr => { tr with nb := tr.v }) rfl rfl

theorem answerPosition (d : Bool × Fin 66) (h : closed e e') :
    closed (answerPosition c d e) (Machine.answerPosition (onPlatform critical honoured c) d e') :=
  have hdecided := l.closed_update h (fun tr => { tr with chosen := d.1, newFork := d.2 }) rfl rfl
  l.closed_update (l.writeSlot d.1 (l.gap hdecided))
    (fun tr => { tr with newRom := setRomBit tr.newRom tr.pos tr.chosen }) rfl rfl

theorem searchLoop (rom : RomCode) (fork : Fin 66) (n : Nat) (h : closed e e') :
    closed (searchLoop c rom fork n e).1 (Machine.searchLoop (onPlatform critical honoured c) rom fork n e').1 ∧
      (Machine.searchLoop (onPlatform critical honoured c) rom fork n e').2 = (Machine.searchLoop c rom fork n e).2 := by
  induction n generalizing e e' with
  | zero => exact ⟨h, rfl⟩
  | succ n ih =>
    have hpair := l.readPair rom (64 - n) h
    simp only [Machine.searchLoop, decidePosition, l.closed_tr hpair]
    split
    · exact ⟨hpair, rfl⟩
    · exact ih (l.answerPosition _ hpair)

/-! The bus reset (R110 to R116). -/

theorem pollRise (n : Nat) (h : opened e e') :
    opened (pollRise c n e).1 (Machine.pollRise (onPlatform critical honoured c) n e').1 ∧
      (Machine.pollRise (onPlatform critical honoured c) n e').2 = (Machine.pollRise c n e).2 := by
  induction n generalizing e e' with
  | zero => exact ⟨l.sample h, congrArg Transients.v (l.opened_tr (l.sample h))⟩
  | succ n ih =>
    simp only [Machine.pollRise, l.opened_tr (l.sample h)]
    split
    · exact ⟨l.sample h, rfl⟩
    · exact ih (l.opened_update (l.delay _ (l.sample h)) (fun tr => { tr with rise := tr.rise + 1 }) rfl rfl)

theorem pollFall (n : Nat) (h : opened e e') :
    opened (pollFall c n e).1 (Machine.pollFall (onPlatform critical honoured c) n e').1 ∧
      (Machine.pollFall (onPlatform critical honoured c) n e').2 = (Machine.pollFall c n e).2 := by
  induction n generalizing e e' with
  | zero => exact ⟨l.sample h, congrArg (fun tr => !Transients.v tr) (l.opened_tr (l.sample h))⟩
  | succ n ih =>
    simp only [Machine.pollFall, l.opened_tr (l.sample h)]
    split
    · exact ih (l.opened_update (l.delay _ (l.sample h)) (fun tr => { tr with fall := tr.fall + 1 }) rfl rfl)
    · exact ⟨l.sample h, rfl⟩

theorem presencePart (h : opened e e') :
    closed (presencePart c e).1 (Machine.presencePart (onPlatform critical honoured c) e').1 ∧
      (Machine.presencePart (onPlatform critical honoured c) e').2 = (Machine.presencePart c e).2 := by
  obtain ⟨hpoll, hfell⟩ := l.pollFall c.tPresMax (l.opened_update h (fun tr => { tr with fall := 0 }) rfl rfl)
  change opened (Machine.pollFall c c.tPresMax (startFall e)).1
    (Machine.pollFall _ (onPlatform critical honoured c).tPresMax (startFall e')).1 at hpoll
  change (Machine.pollFall _ (onPlatform critical honoured c).tPresMax (startFall e')).2 =
    (Machine.pollFall c c.tPresMax (startFall e)).2 at hfell
  unfold Machine.presencePart
  generalize Machine.pollFall c c.tPresMax (startFall e) = r at hpoll hfell ⊢
  generalize Machine.pollFall _ (onPlatform critical honoured c).tPresMax (startFall e') = r' at hpoll hfell ⊢
  obtain ⟨x, fell⟩ := r
  obtain ⟨x', fell'⟩ := r'
  cases hfell
  cases fell with
  | false => exact ⟨l.critExit hpoll, rfl⟩
  | true =>
    have htr : x'.tr = x.tr := l.opened_tr hpoll
    simp only [htr]
    exact ⟨l.critExit (l.delay _ hpoll), trivial⟩

theorem pulsePart (h : opened e e') :
    closed (pulsePart c e).1 (Machine.pulsePart (onPlatform critical honoured c) e').1 ∧
      (Machine.pulsePart (onPlatform critical honoured c) e').2 = (Machine.pulsePart c e).2 := by
  obtain ⟨hpoll, hrose⟩ := l.pollRise c.tRiseMax
    (l.opened_update (l.delay c.tRec (l.release (l.delay c.tRstl (l.driveLow h)))) (fun tr => { tr with rise := 0 })
      rfl rfl)
  change opened (Machine.pollRise c c.tRiseMax (startRise (resetPulse c e))).1
    (Machine.pollRise _ (onPlatform critical honoured c).tRiseMax (startRise (resetPulse _ e'))).1 at hpoll
  change (Machine.pollRise _ (onPlatform critical honoured c).tRiseMax (startRise (resetPulse _ e'))).2 =
    (Machine.pollRise c c.tRiseMax (startRise (resetPulse c e))).2 at hrose
  unfold Machine.pulsePart
  generalize Machine.pollRise c c.tRiseMax (startRise (resetPulse c e)) = r at hpoll hrose ⊢
  generalize Machine.pollRise _ (onPlatform critical honoured c).tRiseMax (startRise (resetPulse _ e')) = r'
    at hpoll hrose ⊢
  obtain ⟨x, rose⟩ := r
  obtain ⟨x', rose'⟩ := r'
  cases hrose
  cases rose with
  | false => exact ⟨l.critExit hpoll, rfl⟩
  | true => exact l.presencePart hpoll

theorem resetPrim (h : closed e e') :
    closed (resetPrim c e).1 (Machine.resetPrim (onPlatform critical honoured c) e').1 ∧
      (Machine.resetPrim (onPlatform critical honoured c) e').2 = (Machine.resetPrim c e).2 := by
  have hsampled := l.sample (l.critEnter h)
  simp only [Machine.resetPrim, l.opened_tr hsampled]
  split
  · exact l.pulsePart hsampled
  · exact ⟨l.critExit hsampled, rfl⟩

end Engine

/-! Whole instructions. -/

/-- The same state on the second platform, with its engine and what its host does next. -/
def beside (critical honoured : Bool) (host : List HostInput) (e : Engine) (s : State) : State :=
  { s with cfg := onPlatform critical honoured s.cfg, eng := e, host := host }

/-- What the first run ends in, the second ends in, the engines related. -/
def Follows (critical honoured : Bool) (host : List HostInput) (closed : Engine → Engine → Prop) (t t' : State) : Prop :=
  ∃ e', t' = beside critical honoured host e' t ∧ closed t.eng e'

section State

variable {critical honoured : Bool} {host : List HostInput} {closed opened : Engine → Engine → Prop} {s : State}
  {e' : Engine}

/-- The check of the parameters does not ask for the platform (R18). -/
theorem perform {f : State → State} {t : State}
    (hf : Follows critical honoured host closed (f s) (f (beside critical honoured host e' s)))
    (h : perform s f = .next t) :
    ∃ t', Machine.perform (beside critical honoured host e' s) f = .next t' ∧
      Follows critical honoured host closed t t' := by
  obtain ⟨hwf, rfl⟩ := perform_eq_next h
  exact ⟨_, perform_of_wf (s := beside critical honoured host e' s) hwf f, hf⟩

theorem endOperation (st : Status) (regs : Regs) {e e' : Engine} (h : closed e e') :
    Follows critical honoured host closed (endOperation st { s with eng := e, regs := regs })
      (Machine.endOperation st { beside critical honoured host e' s with regs := regs }) :=
  ⟨e', rfl, h⟩

theorem gated {st : Status} {k : State → State} (h : closed s.eng e')
    (hk : Follows critical honoured host closed (k s) (k (beside critical honoured host e' s))) :
    Follows critical honoured host closed (gated st s k)
      (Machine.gated st (beside critical honoured host e' s) k) := by
  cases hi : s.regs.initialized with
  | true => rwa [gated_open hi, gated_open (s := beside critical honoured host e' s) hi]
  | false =>
    rw [gated_closed hi, gated_closed (s := beside critical honoured host e' s) hi]
    exact endOperation st s.regs h

theorem configureLine (l : Lockstep s.cfg critical honoured closed opened) (arg : BitVec 64) (h : closed s.eng e') :
    Follows critical honoured host closed (configureLine arg s)
      (Machine.configureLine arg (beside critical honoured host e' s)) := by
  have hid : lineIdOf (onPlatform critical honoured s.cfg) arg = lineIdOf s.cfg arg := rfl
  by_cases hv : lineIdOf s.cfg arg ∈ s.cfg.lineValid
  · rw [configureLine_of_mem hv, configureLine_of_mem (s := beside critical honoured host e' s) hv]
    exact ⟨_, rfl, l.configure _ _ h⟩
  · rw [configureLine_of_not_mem hv, configureLine_of_not_mem (s := beside critical honoured host e' s) hv]
    exact ⟨_, rfl, l.configure _ _ h⟩

variable (l : Lockstep s.cfg critical honoured closed opened)

include l

theorem searchPass {e1 e1' : Engine} (h1 : closed e1 e1') :
    Follows critical honoured host closed (searchPass s e1)
      (Machine.searchPass (beside critical honoured host e' s) e1') := by
  obtain ⟨hloop, hdone⟩ := l.searchLoop s.regs.rom s.regs.forkBit 64
    (l.closed_update (l.sendByteSlots wireSearchRom h1) (fun tr => { tr with newFork := 0 }) rfl rfl)
  change closed (Machine.searchLoop s.cfg s.regs.rom s.regs.forkBit 64
    (startPass (Machine.sendByteSlots s.cfg wireSearchRom e1))).1 (Machine.searchLoop _ s.regs.rom s.regs.forkBit 64
    (startPass (Machine.sendByteSlots (onPlatform critical honoured s.cfg) wireSearchRom e1'))).1 at hloop
  change (Machine.searchLoop _ s.regs.rom s.regs.forkBit 64
    (startPass (Machine.sendByteSlots (onPlatform critical honoured s.cfg) wireSearchRom e1'))).2 =
    (Machine.searchLoop s.cfg s.regs.rom s.regs.forkBit 64
    (startPass (Machine.sendByteSlots s.cfg wireSearchRom e1))).2 at hdone
  unfold Machine.searchPass beside
  dsimp only
  generalize Machine.searchLoop s.cfg s.regs.rom s.regs.forkBit 64
    (startPass (Machine.sendByteSlots s.cfg wireSearchRom e1)) = r at hloop hdone ⊢
  generalize Machine.searchLoop (onPlatform critical honoured s.cfg) s.regs.rom s.regs.forkBit 64
    (startPass (Machine.sendByteSlots (onPlatform critical honoured s.cfg) wireSearchRom e1')) = r' at hloop hdone ⊢
  obtain ⟨x, done⟩ := r
  obtain ⟨x', done'⟩ := r'
  cases hdone
  cases done with
  | false => exact ⟨x', rfl, hloop⟩
  | true =>
    have htr : x'.tr = x.tr := l.closed_tr hloop
    refine ⟨x', ?_, hloop⟩
    simp only [commitPass, htr]
    rfl

theorem finishReadRom {e1 e1' : Engine} (h1 : closed e1 e1') :
    Follows critical honoured host closed (finishReadRom { s with eng := e1 })
      (Machine.finishReadRom { beside critical honoured host e' s with eng := e1' }) := by
  have htr : e1'.tr = e1.tr := l.closed_tr h1
  refine ⟨e1', ?_, h1⟩
  simp only [Machine.finishReadRom, htr]
  rfl

variable (h : closed s.eng e')

include h

theorem afterReset {failed : Status} {k k' : Engine → State}
    (hk : ∀ e e', closed e e' → Follows critical honoured host closed (k e) (k' e')) :
    Follows critical honoured host closed (afterReset failed s k)
      (Machine.afterReset failed (beside critical honoured host e' s) k') := by
  obtain ⟨hprim, hres⟩ := l.resetPrim h
  generalize hr : Machine.resetPrim s.cfg s.eng = p at hprim hres
  generalize hr' : Machine.resetPrim (onPlatform critical honoured s.cfg) e' = p' at hprim hres
  obtain ⟨e1, r⟩ := p
  obtain ⟨e1', r'⟩ := p'
  cases hres
  by_cases hok : r = .ok
  · subst hok
    rw [afterReset_ok hr, afterReset_ok (s := beside critical honoured host e' s) hr']
    exact hk _ _ (l.gap hprim)
  · rw [afterReset_failed hr hok, afterReset_failed (s := beside critical honoured host e' s) hr' hok]
    exact endOperation failed s.regs hprim

/-- What every event keeps, every instruction keeps. -/
theorem exec {i : Instr} {t : State} (hx : exec i s = .next t) :
    ∃ t', Machine.exec i (beside critical honoured host e' s) = .next t' ∧
      Follows critical honoured host closed t t' := by
  cases i <;> rw [Machine.exec] at hx ⊢
  case init arg => exact perform (l.configureLine arg h) hx
  case reset =>
    obtain ⟨hprim, hres⟩ := l.resetPrim h
    exact perform (gated h ⟨_, congrArg (fun r => Machine.endOperation (ResetResult.status r) _) hres, hprim⟩) hx
  case sendByte byte => exact perform (gated h (endOperation .ok s.regs (l.sendByteSlots byte h))) hx
  case readByte =>
    have hread := l.readByteSlots h
    have htr := l.closed_tr hread
    refine perform (gated h ⟨_, ?_, hread⟩) hx
    simp only [beside]
    rw [htr]
    rfl
  case skipRom =>
    exact perform (gated h (l.afterReset h fun e1 e1' h1 => endOperation .ok s.regs (l.sendByteSlots _ h1))) hx
  case readRom =>
    exact perform (gated h (l.afterReset h fun e1 e1' h1 =>
      l.finishReadRom (l.readRomBytes 8 (l.startReadRom (l.sendByteSlots _ h1))))) hx
  case matchRom code =>
    refine perform (gated h (l.afterReset h fun e1 e1' h1 => ?_)) hx
    have hsent := l.sendCode code 8 (l.startMatch (l.sendByteSlots wireMatchRom h1))
    generalize Machine.sendCode s.cfg code 8 _ = x at hsent ⊢
    dsimp only [beside]
    generalize Machine.sendCode (onPlatform critical honoured s.cfg) code 8 _ = x' at hsent ⊢
    exact endOperation .ok s.regs hsent
  case searchInit => exact perform (gated h (endOperation .ok { s.regs with rom := zeroRom, forkBit := forkStart } h)) hx
  case searchNext =>
    rw [execSearchNext] at hx ⊢
    refine perform (gated h ?_) hx
    have hregs : (beside critical honoured host e' s).regs.forkBit = s.regs.forkBit := rfl
    by_cases hf : s.regs.forkBit = 0
    · rw [if_pos hf, if_pos (hregs.trans hf)]
      exact endOperation .noneReturned s.regs h
    · rw [if_neg hf, if_neg (hregs ▸ hf)]
      exact l.afterReset h fun e1 e1' h1 => l.searchPass h1
  case illegal9 | illegalA | illegalB | illegalC | illegalD | illegalE | illegalF =>
    exact perform (endOperation .illegalCmd s.regs h) hx
  case cmdSkipRom | cmdReadRom | cmdMatchRom | cmdSearchRom => exact perform ⟨_, rfl, l.sendByteSlots _ h⟩ hx
  case writeBit0 | writeBit1 => exact perform ⟨_, rfl, l.writeSlot _ h⟩ hx
  case readBit => exact perform ⟨_, rfl, l.readSlot h⟩ hx

end State

end Lockstep

end Sys2Proof.Machine

/-! What an instruction may write (R38): how its registers come out, and that nothing else of the state changes. -/

namespace Sys2Proof.Machine

open Sys2Proof.Terms

/-- The rows without a host opcode (R69). -/
def innerInstrs : List Instr := [.cmdSkipRom, .cmdReadRom, .cmdMatchRom, .cmdSearchRom, .writeBit0, .writeBit1, .readBit]

/-- The registers an operation may leave, `status` aside (R38): `init` records the handle, `search_init` arms the
cursor, `read_byte` and `read_rom` write the data register, `search_next` the cursor with it. -/
def Written (i : Instr) (regs regs' : Regs) : Prop :=
  regs' = regs ∨ match i with
    | .init _ => ∃ id, regs' = { regs with lineId := id, pullUp := true, initialized := true }
    | .searchInit => regs' = { regs with rom := zeroRom, forkBit := forkStart }
    | .readByte | .readRom => ∃ data, regs' = { regs with rdata := data }
    | .searchNext => ∃ rom fork, regs' = { regs with rom := rom, forkBit := fork, rdata := pack rom }
    | _ => False

/-- What is left of the registers by an operation that may not write them (R38). -/
theorem Written.frame {i : Instr} {regs regs' : Regs} (h : Written i regs regs') :
    ((∀ a, i ≠ .init a) → regs'.initialized = regs.initialized ∧ regs'.lineId = regs.lineId ∧
      regs'.pullUp = regs.pullUp) ∧
    (i ≠ .searchInit → i ≠ .searchNext → regs'.rom = regs.rom ∧ regs'.forkBit = regs.forkBit) ∧
    (i ≠ .readByte → i ≠ .readRom → i ≠ .searchNext → regs'.rdata = regs.rdata) := by
  obtain rfl | h := h
  · exact ⟨fun _ => ⟨rfl, rfl, rfl⟩, fun _ _ => ⟨rfl, rfl⟩, fun _ _ _ => rfl⟩
  · cases i
    case init =>
      obtain ⟨id, rfl⟩ := h
      exact ⟨fun hne => absurd rfl (hne _), fun _ _ => ⟨rfl, rfl⟩, fun _ _ _ => rfl⟩
    case searchInit =>
      cases h
      exact ⟨fun _ => ⟨rfl, rfl, rfl⟩, fun hne => absurd rfl hne, fun _ _ _ => rfl⟩
    case readByte =>
      obtain ⟨data, rfl⟩ := h
      exact ⟨fun _ => ⟨rfl, rfl, rfl⟩, fun _ _ => ⟨rfl, rfl⟩, fun hne => absurd rfl hne⟩
    case readRom =>
      obtain ⟨data, rfl⟩ := h
      exact ⟨fun _ => ⟨rfl, rfl, rfl⟩, fun _ _ => ⟨rfl, rfl⟩, fun _ hne => absurd rfl hne⟩
    case searchNext =>
      obtain ⟨rom, fork, rfl⟩ := h
      exact ⟨fun _ => ⟨rfl, rfl, rfl⟩, fun _ hne => absurd rfl hne, fun _ _ hne => absurd rfl hne⟩
    all_goals cases h

/-- An operation ended with such registers. -/
def EndedBy (i : Instr) (s t : State) : Prop :=
  ∃ st e regs, t = endOperation st { s with eng := e, regs := regs } ∧ Written i s.regs regs

section

variable {s t : State}

theorem endedBy_same {i : Instr} (st : Status) (e : Engine) : EndedBy i s (endOperation st { s with eng := e }) :=
  ⟨st, e, s.regs, rfl, .inl rfl⟩

/-- A host command ends in `endOperation`, with the registers it may write; a row without a host opcode only runs the
engine (R33, R38, R134, R142). -/
theorem exec_cases {i : Instr} (hx : exec i s = .next t) :
    (i ∈ innerInstrs ∧ ∃ e, t = { s with eng := e }) ∨ (i ∉ innerInstrs ∧ EndedBy i s t) := by
  have hc := config_wf_of_exec hx
  by_cases hmem : i ∈ innerInstrs
  · refine .inl ⟨hmem, ?_⟩
    simp only [innerInstrs, List.mem_cons, List.not_mem_nil, or_false] at hmem
    rcases hmem with rfl | rfl | rfl | rfl | rfl | rfl | rfl <;> rw [exec] at hx <;>
      exact perform_next_of (P := fun t => ∃ e, t = { s with eng := e }) hx ⟨_, rfl⟩
  · refine .inr ⟨hmem, ?_⟩
    cases i
    case init arg =>
      rw [exec_init hc] at hx
      cases hx
      exact configureLine_of (P := EndedBy _ s) ⟨_, _, _, rfl, .inr ⟨_, rfl⟩⟩ (endedBy_same _ _)
    case reset | sendByte =>
      rw [exec] at hx
      exact perform_next_of hx (gated_of (endedBy_same _ _) (endedBy_same _ _))
    case readByte =>
      rw [exec] at hx
      exact perform_next_of hx (gated_of (endedBy_same _ _) ⟨_, _, _, rfl, .inr ⟨_, rfl⟩⟩)
    case skipRom | matchRom =>
      rw [exec] at hx
      exact perform_next_of hx (gated_of (endedBy_same _ _) (afterReset_of (endedBy_same _ _) (endedBy_same _ _)))
    case readRom =>
      rw [exec] at hx
      exact perform_next_of hx (gated_of (endedBy_same _ _) (afterReset_of (endedBy_same _ _)
        ⟨_, _, _, rfl, .inr ⟨_, rfl⟩⟩))
    case searchInit =>
      rw [exec] at hx
      exact perform_next_of hx (gated_of (endedBy_same _ s.eng) ⟨.ok, s.eng, _, rfl, .inr rfl⟩)
    case searchNext =>
      obtain ⟨e, rfl⟩ | ⟨e, rfl⟩ := exec_searchNext_cases hx
      · exact ⟨.ok, e, _, rfl, .inr ⟨_, _, rfl⟩⟩
      · exact endedBy_same _ _
    case illegal9 | illegalA | illegalB | illegalC | illegalD | illegalE | illegalF =>
      rw [exec_illegal_eq (by simp [illegalInstrs]) hx]
      exact endedBy_same .illegalCmd s.eng
    all_goals exact absurd (by simp [innerInstrs]) hmem

/-- No event touches the latched command, and no update of an operation does (R31). -/
theorem latched_lockstep (c : Config) (op : BitVec 4) (arg : BitVec 64) :
    Lockstep c c.hasCritical c.honoursCrit (fun e e' => e' = e ∧ e.tr.opReg = op ∧ e.tr.argReg = arg)
      (fun e e' => e' = e ∧ e.tr.opReg = op ∧ e.tr.argReg = arg) where
  closed_tr := fun h => congrArg Engine.tr h.1
  opened_tr := fun h => congrArg Engine.tr h.1
  configure := fun _ _ ⟨heq, h⟩ => ⟨heq ▸ rfl, h⟩
  gap := fun ⟨heq, h⟩ => ⟨heq ▸ rfl, h⟩
  closed_withTr := fun ⟨heq, h⟩ ho ha => ⟨heq ▸ rfl, ho.trans h.1, ha.trans h.2⟩
  opened_withTr := fun ⟨heq, h⟩ ho ha => ⟨heq ▸ rfl, ho.trans h.1, ha.trans h.2⟩
  critEnter := fun ⟨heq, h⟩ => ⟨heq ▸ rfl, by simpa using h⟩
  critExit := fun ⟨heq, h⟩ => ⟨heq ▸ rfl, by simpa using h⟩
  driveLow := fun ⟨heq, h⟩ => ⟨heq ▸ rfl, h⟩
  release := fun ⟨heq, h⟩ => ⟨heq ▸ rfl, h⟩
  sample := fun ⟨heq, h⟩ => ⟨heq ▸ rfl, h⟩
  delay := fun _ ⟨heq, h⟩ => ⟨heq ▸ rfl, h⟩

/-- The latched command is the same after an instruction (R31). -/
theorem exec_latched {i : Instr} (hx : exec i s = .next t) :
    t.eng.tr.opReg = s.eng.tr.opReg ∧ t.eng.tr.argReg = s.eng.tr.argReg := by
  obtain ⟨t', -, e, -, -, h⟩ := (latched_lockstep s.cfg s.eng.tr.opReg s.eng.tr.argReg).exec (host := s.host)
    ⟨rfl, rfl, rfl⟩ hx
  exact h

/-- What the host will do plays no part in an instruction (R31). -/
theorem exec_withHost {i : Instr} (host : List HostInput) (hx : exec i s = .next t) :
    exec i { s with host := host } = .next { t with host := host } := by
  obtain ⟨t', hx', e, rfl, rfl, -⟩ := (latched_lockstep s.cfg s.eng.tr.opReg s.eng.tr.argReg).exec (host := host)
    ⟨rfl, rfl, rfl⟩ hx
  have hcfg : t.cfg = s.cfg := by
    obtain ⟨-, e, rfl⟩ | ⟨-, st, e, regs, rfl, -⟩ := exec_cases hx <;> rfl
  obtain ⟨cfg, regs, eng, seq, rspValid, host', inner⟩ := t
  cases hcfg
  exact hx'

end

/-- Settles O44: by the two ways an instruction ends, and the registers each operation may leave. -/
theorem writeSetsOfTheOperations : Obligations.WriteSetsOfTheOperations := by
  unfold Obligations.WriteSetsOfTheOperations
  intro i s t hx
  have hlatched := exec_latched hx
  obtain ⟨hmem, e, rfl⟩ | ⟨hmem, st, e, regs, rfl, hregs⟩ := exec_cases hx
  · exact ⟨fun _ => ⟨rfl, rfl, rfl⟩, fun _ _ => ⟨rfl, rfl⟩, fun _ _ _ => rfl, fun _ => ⟨rfl, rfl, rfl⟩, rfl, rfl, rfl,
      hlatched⟩
  · obtain ⟨hhandle, hcursor, hdata⟩ := hregs.frame
    exact ⟨hhandle, hcursor, hdata, fun h => absurd h hmem, rfl, rfl, rfl, hlatched⟩

end Sys2Proof.Machine

/-! Time (R8, R13, R239): what an instruction's clock and trace have to do with each other, on one platform and on
two. -/

namespace Sys2Proof.Machine

open Sys2Proof.Terms

section

variable {c : Config} {e e' : Engine}

/-- The time base's account decides whether time is kept, and only a delay touches it. -/
theorem OnTime.of_drop {m : Nat} (h : OnTime c e) (hs : e'.stalls = e.stalls.drop m) (hd : e'.delays = e.delays + m) :
    OnTime c e' :=
  h.imp_right fun h0 k => by rw [stall_drop hs hd, h0]

theorem OnTime.same (h : OnTime c e) (hs : e'.stalls = e.stalls) (hd : e'.delays = e.delays) : OnTime c e' :=
  OnTime.of_drop (m := 0) h (by simpa using hs) (by simpa using hd)

/-- Time is kept, in what is left of a region too. -/
def KeptInside (c : Config) (e : Engine) : Prop := OnTime c e ∧ Steady c e

theorem KeptInside.same (h : KeptInside c e) (hc : e'.crit = e.crit) (hs : e'.stalls = e.stalls)
    (hd : e'.delays = e.delays) : KeptInside c e' :=
  ⟨OnTime.same h.1 hs hd, h.2.same hc hs hd⟩

theorem KeptInside.delay (h : KeptInside c e) (n : Nat) : KeptInside c (delay c n e) :=
  ⟨OnTime.of_drop (m := 1) h.1 (by simp) rfl, h.2.delay n⟩

theorem KeptInside.enter (h : OnTime c e) : KeptInside c (critEnter c e) :=
  ⟨OnTime.same h (by simp) (by simp), OnTime.steady h⟩

theorem KeptInside.exit (h : KeptInside c e) : OnTime c (critExit c e) :=
  OnTime.same h.1 (by simp) (by simp)

end

/-! The clock as the sum of the delays recorded (R13). -/

/-- Since the clock stood at `start` and the trace was `past`, the clock has advanced by the delays recorded. -/
def Accounted (start : Nat) (past : Wave) (e : Engine) : Prop :=
  ∃ w, e.log = w ++ past ∧ e.now = start + (w.map fun x => leastTime x.2).sum

section

variable {start : Nat} {past : Wave} {e e' : Engine}

/-- An event with the time it takes. -/
theorem Accounted.event (h : Accounted start past e) {ev : Event} (hl : e'.log = (e.now, ev) :: e.log)
    (hn : e'.now = e.now + leastTime ev) : Accounted start past e' := by
  obtain ⟨w, hlog, hnow⟩ := h
  refine ⟨(e.now, ev) :: w, by rw [hl, hlog, List.cons_append], ?_⟩
  rw [hn, hnow, List.map_cons, List.sum_cons, Nat.add_assoc, Nat.add_comm (leastTime ev)]

theorem Accounted.critEnter (c : Config) (h : Accounted start past e) : Accounted start past (critEnter c e) := by
  unfold Machine.critEnter
  split
  · exact h.event rfl rfl
  · exact h

theorem Accounted.critExit (c : Config) (h : Accounted start past e) : Accounted start past (critExit c e) := by
  unfold Machine.critExit
  split
  · exact h.event rfl rfl
  · exact h

/-- With no gap and time kept, every event accounts for itself (R13). -/
theorem accounted_lockstep {c : Config} (hgap : c.gap = 0) (start : Nat) (past : Wave) :
    Lockstep c c.hasCritical c.honoursCrit (fun e e' => e' = e ∧ OnTime c e ∧ Accounted start past e)
      (fun e e' => e' = e ∧ KeptInside c e ∧ Accounted start past e) where
  closed_tr := fun h => congrArg Engine.tr h.1
  opened_tr := fun h => congrArg Engine.tr h.1
  configure := fun _ _ ⟨heq, ht, h⟩ => ⟨heq ▸ rfl, ht, h.event rfl rfl⟩
  gap := fun ⟨heq, ht, h⟩ => ⟨heq ▸ rfl, ht, by simpa [Accounted, hgap] using h⟩
  closed_withTr := fun ⟨heq, ht, h⟩ _ _ => ⟨heq ▸ rfl, ht, h⟩
  opened_withTr := fun ⟨heq, ht, h⟩ _ _ => ⟨heq ▸ rfl, ht.same rfl rfl rfl, h⟩
  critEnter := fun ⟨heq, ht, h⟩ => ⟨heq ▸ rfl, KeptInside.enter ht, h.critEnter c⟩
  critExit := fun ⟨heq, ht, h⟩ => ⟨heq ▸ rfl, ht.exit, h.critExit c⟩
  driveLow := fun ⟨heq, ht, h⟩ => ⟨heq ▸ rfl, ht.same rfl rfl rfl, h.event rfl rfl⟩
  release := fun ⟨heq, ht, h⟩ => ⟨heq ▸ rfl, ht.same rfl rfl rfl, h.event rfl rfl⟩
  sample := fun ⟨heq, ht, h⟩ => ⟨heq ▸ rfl, ht.same rfl rfl rfl, h.event rfl rfl⟩
  delay := fun n ⟨heq, ht, h⟩ =>
    ⟨heq ▸ rfl, ht.delay n, h.event (ev := .delay n) rfl (by rw [delay_now, ht.2.late]; rfl)⟩

end

/-- A trace is its past with the later events after it. -/
theorem trace_of_log {s t : State} {w : Wave} (h : t.eng.log = w ++ s.eng.log) : t.trace = s.trace ++ w.reverse := by
  rw [State.trace, State.trace, Engine.trace, Engine.trace, h, List.reverse_append]

/-- Settles O46: the account is kept by every event, and so by every instruction. -/
theorem onlyDelaysTakeTime : Obligations.OnlyDelaysTakeTime := by
  unfold Obligations.OnlyDelaysTakeTime
  intro i s t hgap htime hx
  obtain ⟨-, -, -, -, -, -, w, hlog, hnow⟩ := (accounted_lockstep hgap s.eng.now s.eng.log).exec (host := s.host)
    ⟨rfl, htime, [], rfl, rfl⟩ hx
  refine ⟨w.reverse, trace_of_log hlog, ?_⟩
  rw [List.map_reverse, List.sum_reverse]
  exact hnow

/-! Two platforms, the second late by any amount (R239). -/

section

variable {c : Config} {critical honoured : Bool} {past : Wave} {kept : Prop}

/-- Side by side with a platform that keeps time, if `kept` says that it does, the second is never earlier. -/
theorem noEarlier_lockstep (hc : c.hasCritical = true) :
    Lockstep c critical honoured
      (fun e e' => SameButTime critical past e e' ∧ (kept → OnTime c e ∧ e.now ≤ e'.now))
      (fun e e' => SameButTime critical past e e' ∧ (kept → KeptInside c e ∧ e.now ≤ e'.now)) where
  closed_tr := fun h => h.1.tr
  opened_tr := fun h => h.1.tr
  configure := fun _ _ ⟨h, ht⟩ => ⟨h.emit (by cases critical <;> rfl) rfl, ht⟩
  gap := fun ⟨h, ht⟩ => ⟨h.gap _ _, fun hk => ⟨(ht hk).1, Nat.add_le_add_right (ht hk).2 _⟩⟩
  closed_withTr := fun {_ _ tr} ⟨h, ht⟩ _ _ => ⟨h.withTr (f := fun _ => tr), ht⟩
  opened_withTr := fun {_ _ tr} ⟨h, ht⟩ _ _ =>
    ⟨h.withTr (f := fun _ => tr), fun hk => ⟨(ht hk).1.same rfl rfl rfl, (ht hk).2⟩⟩
  critEnter := fun ⟨h, ht⟩ => ⟨h.critEnter hc, fun hk => ⟨KeptInside.enter (ht hk).1, by simpa using (ht hk).2⟩⟩
  critExit := fun ⟨h, ht⟩ => ⟨h.critExit hc, fun hk => ⟨(ht hk).1.exit, by simpa using (ht hk).2⟩⟩
  driveLow := fun ⟨h, ht⟩ => ⟨h.driveLow, fun hk => ⟨(ht hk).1.same rfl rfl rfl, (ht hk).2⟩⟩
  release := fun ⟨h, ht⟩ => ⟨h.release, fun hk => ⟨(ht hk).1.same rfl rfl rfl, (ht hk).2⟩⟩
  sample := fun ⟨h, ht⟩ => ⟨h.sample, fun hk => ⟨(ht hk).1.same rfl rfl rfl, (ht hk).2⟩⟩
  delay := fun n ⟨h, ht⟩ => ⟨h.delay _ _ n, fun hk => ⟨(ht hk).1.delay n, by
    have hnow := (ht hk).2
    rw [delay_now, delay_now, (ht hk).1.2.late]
    omega⟩⟩

/-- Every instruction does the same on the second platform, times aside (R239). -/
theorem exec_onPlatform {i : Instr} {s t : State} (critical honoured : Bool) (hc : s.cfg.hasCritical = true)
    (hx : exec i s = .next t) :
    ∃ e', exec i { s with cfg := onPlatform critical honoured s.cfg } =
        .next { t with cfg := onPlatform critical honoured s.cfg, eng := e' } ∧
      SameButTime critical s.eng.log t.eng e' ∧ (OnTime s.cfg s.eng → t.eng.now ≤ e'.now) := by
  obtain ⟨t', hx', e', rfl, hsame, htime⟩ :=
    (noEarlier_lockstep (honoured := honoured) (kept := OnTime s.cfg s.eng) hc).exec (host := s.host)
      ⟨SameButTime.refl critical s.eng, fun h => ⟨h, Nat.le_refl _⟩⟩ hx
  have hframe : t.cfg = s.cfg ∧ t.host = s.host := by
    obtain ⟨-, e, rfl⟩ | ⟨-, st, e, regs, rfl, -⟩ := exec_cases hx <;> exact ⟨rfl, rfl⟩
  obtain ⟨cfg, regs, eng, seq, rspValid, host, inner⟩ := t
  obtain ⟨hcfg, hhost⟩ := hframe
  cases hcfg
  cases hhost
  exact ⟨e', hx', hsame, fun h => (htime h).2⟩

end

/-- Settles O48: the two runs in lockstep; that each delay is a lower bound is said of the second run's events in
turn. -/
theorem delaysAreLowerBounds : Obligations.DelaysAreLowerBounds := by
  unfold Obligations.DelaysAreLowerBounds
  intro i s t critical honoured hc hx
  obtain ⟨e', hx', hsame, htime⟩ := exec_onPlatform critical honoured hc hx
  obtain ⟨w, w', hlog, hlog', hevents, hturn⟩ := hsame.events
  refine ⟨_, w.reverse, w'.reverse, hx', trace_of_log hlog, trace_of_log (s := s) hlog', ?_, ?_, htime, rfl, rfl, rfl,
    hsame.drv, hsame.wire, hsame.samples, hsame.stalls, hsame.delays, hsame.tr⟩
  · rw [List.map_reverse, List.map_reverse, List.filter_reverse, hevents]
    rfl
  · intro early start n later hwave
    rw [List.reverse_eq_iff] at hwave
    simp only [List.reverse_append, List.reverse_cons, List.append_assoc, List.singleton_append] at hwave
    rw [hwave] at hturn
    obtain ⟨hend, hlater⟩ := hturn.lowerBound
    exact ⟨hend, fun x hx => hlater x (List.mem_reverse.mpr hx)⟩

/-! Without critical regions, the time base late by nothing (R8). -/

/-- The trace and the clock of a run without regions are those of the run with them, the two events left out. -/
structure RegionsOmitted (past : Wave) (e e' : Engine) : Prop where
  clock : e'.now = e.now
  events : ∃ w, e.log = w ++ past ∧ e'.log = w.filter (fun x => shown false x.2) ++ past

section

variable {past : Wave} {e e' x x' : Engine}

/-- An event that both runs record. -/
theorem RegionsOmitted.both (h : RegionsOmitted past e e') {ev : Event} {d : Nat} (hv : shown false ev = true)
    (hl : x.log = (e.now, ev) :: e.log) (hl' : x'.log = (e'.now, ev) :: e'.log) (hn : x.now = e.now + d)
    (hn' : x'.now = e'.now + d) : RegionsOmitted past x x' := by
  obtain ⟨hclock, w, hlog, hlog'⟩ := h
  refine ⟨by rw [hn, hn', hclock], (e.now, ev) :: w, by rw [hl, hlog, List.cons_append], ?_⟩
  rw [hl', hlog', List.filter_cons_of_pos (by exact hv), hclock, List.cons_append]

/-- An event of the region. -/
theorem RegionsOmitted.first (h : RegionsOmitted past e e') {ev : Event} (hv : shown false ev = false)
    (hl : x.log = (e.now, ev) :: e.log) (hn : x.now = e.now) : RegionsOmitted past x e' := by
  obtain ⟨hclock, w, hlog, hlog'⟩ := h
  refine ⟨by rw [hn, hclock], (e.now, ev) :: w, by rw [hl, hlog, List.cons_append], ?_⟩
  rw [hlog', List.filter_cons_of_neg (by simp [hv])]

/-- No event, the same time in both. -/
theorem RegionsOmitted.pass (h : RegionsOmitted past e e') {d : Nat} (hl : x.log = e.log) (hl' : x'.log = e'.log)
    (hn : x.now = e.now + d) (hn' : x'.now = e'.now + d) : RegionsOmitted past x x' :=
  ⟨by rw [hn, hn', h.clock], by rw [hl, hl']; exact h.events⟩

end

/-- Both runs have come `m` delays far from `e0`, and, if that is not past the `n` delays the time base is known to keep,
they agree on the times. -/
def OmittedUpTo (e0 : Engine) (n : Nat) (e e' : Engine) : Prop :=
  SameButTime false e0.log e e' ∧
    ∃ m, e.stalls = e0.stalls.drop m ∧ e.delays = e0.delays + m ∧ (m ≤ n → RegionsOmitted e0.log e e')

section

variable {e0 e e' x x' : Engine} {n : Nat}

/-- A change that is no delay. -/
theorem OmittedUpTo.change (h : OmittedUpTo e0 n e e') (hsame : SameButTime false e0.log x x')
    (hs : x.stalls = e.stalls) (hd : x.delays = e.delays)
    (hr : RegionsOmitted e0.log e e' → RegionsOmitted e0.log x x') : OmittedUpTo e0 n x x' := by
  obtain ⟨-, m, hstalls, hdelays, homit⟩ := h
  exact ⟨hsame, m, hs.trans hstalls, hd.trans hdelays, fun hm => hr (homit hm)⟩

/-- A time base late by nothing delays exactly, in a region or not. -/
theorem late_of_stall {c : Config} (h : e.stall 0 = 0) : late c e = 0 := by
  unfold late
  split
  · rfl
  · exact h

theorem OmittedUpTo.delay (h0 : ∀ k, k < n → e0.stall k = 0) (h : OmittedUpTo e0 n e e') (c c' : Config) (d : Nat) :
    OmittedUpTo e0 n (delay c d e) (Machine.delay c' d e') := by
  obtain ⟨hsame, m, hstalls, hdelays, homit⟩ := h
  refine ⟨hsame.delay c c' d, m + 1, ?_, ?_, fun hm => ?_⟩
  · rw [delay_stalls, hstalls, List.tail_drop]
  · rw [delay_delays, hdelays, Nat.add_assoc]
  · have hstall : e.stall 0 = 0 := by rw [stall_drop hstalls hdelays]; exact h0 m hm
    have hstall' : e'.stall 0 = 0 := by
      rw [stall_drop (e := e) (m := 0) (by simpa using hsame.stalls) (by simpa using hsame.delays)]; exact hstall
    exact (homit (by omega)).both (ev := .delay d) (d := d) rfl rfl rfl
      (by rw [delay_now, late_of_stall hstall, Nat.add_zero]) (by rw [delay_now, late_of_stall hstall', Nat.add_zero])

/-- Every event keeps it (R8). -/
theorem omitted_lockstep {c : Config} (hc : c.hasCritical = true) (h0 : ∀ k, k < n → e0.stall k = 0) :
    Lockstep c false c.honoursCrit (OmittedUpTo e0 n) (OmittedUpTo e0 n) where
  closed_tr := fun h => h.1.tr
  opened_tr := fun h => h.1.tr
  configure := fun _ _ h => h.change (h.1.emit rfl rfl) rfl rfl fun hr => hr.both (d := 0) rfl rfl rfl rfl rfl
  gap := fun h => h.change (h.1.gap _ _) rfl rfl fun hr => hr.pass rfl rfl rfl rfl
  closed_withTr := fun {_ _ tr} h _ _ =>
    h.change (h.1.withTr (f := fun _ => tr)) rfl rfl fun hr => hr.pass (d := 0) rfl rfl rfl rfl
  opened_withTr := fun {_ _ tr} h _ _ =>
    h.change (h.1.withTr (f := fun _ => tr)) rfl rfl fun hr => hr.pass (d := 0) rfl rfl rfl rfl
  critEnter := fun h => h.change (h.1.critEnter hc) (by simp) (by simp) fun hr =>
    hr.first (ev := .critEnter) rfl (by simp [hc]) (by simp)
  critExit := fun h => h.change (h.1.critExit hc) (by simp) (by simp) fun hr =>
    hr.first (ev := .critExit) rfl (by simp [hc]) (by simp)
  driveLow := fun h => h.change h.1.driveLow rfl rfl fun hr => hr.both (d := 0) rfl rfl rfl rfl rfl
  release := fun h => h.change h.1.release rfl rfl fun hr => hr.both (d := 0) rfl rfl rfl rfl rfl
  sample := fun h => h.change h.1.sample rfl rfl fun hr =>
    hr.both (ev := .sample _) (d := 0) rfl rfl (by rw [sample_log, h.1.answer 0]) rfl rfl
  delay := fun d h => h.delay h0 _ _ d

end

/-- Settles O47: the two runs in lockstep, up to as many delays as the instruction has. -/
theorem withoutCriticalOnlyTheRegionEventsGo : Obligations.WithoutCriticalOnlyTheRegionEventsGo := by
  unfold Obligations.WithoutCriticalOnlyTheRegionEventsGo
  intro i s t hc hx hstall
  have hself : OmittedUpTo s.eng (t.eng.delays - s.eng.delays) s.eng s.eng :=
    ⟨SameButTime.refl false s.eng, 0, rfl, rfl, fun _ => ⟨rfl, [], rfl, rfl⟩⟩
  obtain ⟨t', hx', e', rfl, hsame, m, -, hdelays, homit⟩ :=
    (omitted_lockstep hc hstall).exec (host := s.host) hself hx
  obtain ⟨hclock, w, hlog, hlog'⟩ := homit (by omega)
  exact ⟨_, w.reverse, _, hx', trace_of_log hlog, trace_of_log (s := s) hlog', (List.filter_reverse ..).symm, rfl, rfl,
    rfl, hclock, hsame.drv, hsame.wire, hsame.samples, hsame.tr⟩

end Sys2Proof.Machine

/-! Byte transport (44_byte_transport.md): the operations as ends over the runs of the engine. -/

namespace Sys2Proof.Machine

open Sys2Proof.Terms

/-- Write slots read nothing. -/
@[simp] theorem slotReads_map_write (bits : List Bool) : slotReads (bits.map .write) = 0 := by
  induction bits with
  | nil => rfl
  | cons b bits ih => rw [List.map_cons, slotReads_write, ih]

/-- Read slots read once each. -/
@[simp] theorem slotReads_map_read (bits : List Bool) : slotReads (bits.map .read) = bits.length := by
  induction bits with
  | nil => rfl
  | cons b bits ih => rw [List.map_cons, slotReads_read, ih, List.length_cons]

/-- The bits of a byte assembled from eight answers are the answers, the first lowest (R141). -/
theorem byteBits_answeredByte (e : Engine) (first : Nat) :
    byteBits (answeredByte e first) = (List.range 8).map fun i => e.answer (first + i) := by
  have hfold : answeredByte e first =
      ((List.range 8).map fun i => e.answer (first + i)).foldl (fun acc b => insertTop b acc) 0 := by
    rw [answeredByte, ← insertTop_eight, List.foldl_map]
  rw [hfold, byteBits_foldl_insertTop_eight (by simp)]

theorem answeredByte_getLsbD (e : Engine) (first : Nat) {i : Nat} (hi : i < 8) :
    (answeredByte e first).getLsbD i = e.answer (first + i) := by
  rw [← byteBits_getElem _ (by simpa using hi), List.getElem_of_eq (byteBits_answeredByte e first)]
  simp

/-- The bits of a code assembled from 64 answers are the answers, the first at position 1 (R78, R153). -/
theorem romBit_answeredCode (e : Engine) (first : Nat) {k : Nat} (hk : k < 64) :
    romBit (answeredCode e first) (k + 1) = e.answer (first + k) := by
  obtain ⟨i, j, hi, hj, rfl⟩ : ∃ i j, i < 8 ∧ j < 8 ∧ k = 8 * i + j := ⟨k / 8, k % 8, by omega, by omega, by omega⟩
  rw [romBit_eq _ hi hj, answeredCode, Vector.getElem_ofFn, answeredByte_getLsbD _ _ hj, Nat.add_assoc]

/-- What a piece of an operation leaves to be answered, as bytes. -/
theorem Recorded.answeredCode {e e' : Engine} {wave : Wave} {d n : Nat} (h : Recorded e e' wave d n) (first : Nat) :
    answeredCode e' first = answeredCode e (n + first) :=
  romCode_ext fun p h1 h64 => by
    obtain ⟨k, rfl⟩ : ∃ k, p = k + 1 := ⟨p - 1, by omega⟩
    rw [romBit_answeredCode _ _ (by omega), romBit_answeredCode _ _ (by omega), h.answer, Nat.add_assoc]

/-- Settles O20: the run of the eight slots, ended with `OK`. -/
theorem sendByteWritesEightSlots : Obligations.SendByteWritesEightSlots := by
  unfold Obligations.SendByteWritesEightSlots
  intro s byte hready htime hinit
  have hran := (sendByteSlots_ran hready.config byte hready.closed htime).1
  rw [SlotsRan, slotReads_map_write] at hran
  exact ⟨_, exec_sendByte hready.config hinit byte, ended_of_ran hran .ok s.regs⟩

/-- Settles O21: the run of the eight slots leaves the byte answered in `shift`. -/
theorem readByteAssemblesEightSamples : Obligations.ReadByteAssemblesEightSamples := by
  unfold Obligations.ReadByteAssemblesEightSamples
  intro s hready htime hinit
  obtain ⟨hran, htr⟩ := readByteSlots_ran hready.config hready.closed htime
  have hshift : (readByteSlots s.cfg s.eng).tr.shift = answeredByte s.eng 0 := by rw [htr]
  have hexec := exec_readByte hready.config hinit
  rw [hshift] at hexec
  exact ⟨_, answeredByte s.eng 0, hexec, fun i hi => by rw [answeredByte_getLsbD _ _ hi, Nat.zero_add],
    ended_of_ran hran .ok _⟩

/-- Settles O22: each of the four runs its byte's slots and nothing else. -/
theorem wireCommandBytes : Obligations.WireCommandBytes := by
  unfold Obligations.WireCommandBytes
  intro s hready htime
  have hends : ∀ byte, InnerEnded s { s with eng := sendByteSlots s.cfg byte s.eng }
      (slotsWave s.cfg ((byteBits byte).map .write) s.eng.now) (slotsLength s.cfg ((byteBits byte).map .write)) 0 :=
    fun byte => by
      have hran := (sendByteSlots_ran hready.config byte hready.closed htime).1
      rw [SlotsRan, slotReads_map_write] at hran
      exact innerEnded_of_ran hran
  simp only [List.forall_mem_cons]
  exact ⟨⟨_, exec_cmdSkipRom hready.config, hends _⟩, ⟨_, exec_cmdReadRom hready.config, hends _⟩,
    ⟨_, exec_cmdMatchRom hready.config, hends _⟩, ⟨_, exec_cmdSearchRom hready.config, hends _⟩,
    List.forall_mem_nil _⟩

end Sys2Proof.Machine

/-! Bus reset (42_reset_presence.md): the four outcomes, where time is kept and where it is not. -/

namespace Sys2Proof.Machine

open Sys2Proof.Terms

/-- Settles O24: the run of the primitive up to the limit of the rise poll, ended with `Timeout`. -/
theorem resetWithoutRise : Obligations.ResetWithoutRise := by
  unfold Obligations.ResetWithoutRise
  intro s hready htime hinit hline
  obtain ⟨e, hprim, hran⟩ := resetPrim_noRise s.cfg hready.closed htime hline
  exact ⟨_, exec_reset hready.config hinit hprim, ended_of_ran hran .timeout s.regs⟩

/-- Settles O25: the run of the primitive up to the limit of the presence poll, ended with `Timeout`. -/
theorem resetWithoutPresence : Obligations.ResetWithoutPresence := by
  unfold Obligations.ResetWithoutPresence
  intro s rise hready htime hinit hline
  obtain ⟨e, hprim, hran⟩ := resetPrim_noPresence s.cfg hready.closed htime hline
  exact ⟨_, exec_reset hready.config hinit hprim, ended_of_ran hran .timeout s.regs⟩

/-- Settles O26: the run of the primitive to its end, with the counters it leaves. -/
theorem resetWithADevice : Obligations.ResetWithADevice := by
  unfold Obligations.ResetWithADevice
  intro s rise fall hready htime hinit hline
  obtain ⟨e, hprim, hrise, hfall, hran⟩ := resetPrim_ok s.cfg hready.closed htime hline
  exact ⟨_, exec_reset hready.config hinit hprim, hrise, hfall, ended_of_ran hran .ok s.regs⟩

/-! What the environment answers is one of the four cases (R111, R113, R114). -/

/-- The first of the polls up to `n` that sees a level, or none. -/
theorem first_poll (f : Nat → Bool) (v : Bool) (n : Nat) :
    (∀ k, k ≤ n → f k = !v) ∨ ∃ m, m ≤ n ∧ f m = v ∧ ∀ k, k < m → f k = !v := by
  by_cases h : ∃ k, k ≤ n ∧ f k = v
  · have hlast : ∀ k, k < Nat.find h → f k = !v := fun k hk =>
      Bool.eq_not.mpr fun hv => Nat.find_min h hk ⟨Nat.le_trans (Nat.le_of_lt hk) (Nat.find_spec h).1, hv⟩
    exact .inr ⟨Nat.find h, (Nat.find_spec h).1, (Nat.find_spec h).2, hlast⟩
  · exact .inl fun k hk => Bool.eq_not.mpr fun hv => h ⟨k, hk, hv⟩

theorem resetAnswers_cases (c : Config) (e : Engine) :
    e.answer 0 = false ∨ NoRise c e ∨ (∃ rise, NoPresence c e rise) ∨ ∃ rise fall, Presence c e rise fall := by
  cases hidle : e.answer 0 with
  | false => exact .inl rfl
  | true =>
    refine .inr ?_
    obtain hlow | ⟨rise, hrise, hrose, hlow⟩ := first_poll (fun k => e.answer (1 + k)) true c.tRiseMax
    · exact .inl ⟨hidle, hlow⟩
    · obtain hhigh | ⟨fall, hfall, hfell, hhigh⟩ := first_poll (fun j => e.answer (2 + rise + j)) false c.tPresMax
      · exact .inr (.inl ⟨rise, hidle, hlow, hrose, hrise, hhigh⟩)
      · exact .inr (.inr ⟨rise, fall, hidle, hlow, hrose, hrise, hhigh, hfell, hfall⟩)

/-! The same state on a platform that keeps time: what an instruction does to the registers can be seen there. -/

/-- The state on a platform with critical regions that honours them (R8, R239). -/
def State.timeKept (s : State) : State := { s with cfg := onPlatform true true s.cfg }

section

variable {s : State}

theorem timeKept_ready (h : Ready s) : Ready s.timeKept := ⟨h.config, h.released, h.closed⟩

theorem timeKept_onTime : OnTime s.timeKept.cfg s.timeKept.eng := .inl ⟨rfl, rfl⟩

theorem timeKept_noRise (h : NoRise s.cfg s.eng) : NoRise s.timeKept.cfg s.timeKept.eng := ⟨h.idle, h.low⟩

theorem timeKept_noPresence {rise : Nat} (h : NoPresence s.cfg s.eng rise) :
    NoPresence s.timeKept.cfg s.timeKept.eng rise := ⟨h.idle, h.low, h.rose, h.riseInWindow, h.high⟩

theorem timeKept_presence {rise fall : Nat} (h : Presence s.cfg s.eng rise fall) :
    Presence s.timeKept.cfg s.timeKept.eng rise fall :=
  ⟨h.idle, h.low, h.rose, h.riseInWindow, h.high, h.fell, h.fallInWindow⟩

/-- What an instruction does where time is kept it does here, times aside (R239). -/
theorem exec_of_timeKept {i : Instr} {t : State} (hx : exec i s.timeKept = .next t) :
    ∃ e, exec i s = .next { t with cfg := s.cfg, eng := e } ∧ SameButTime s.cfg.hasCritical s.eng.log t.eng e := by
  obtain ⟨e, hx', hsame, -⟩ := exec_onPlatform s.cfg.hasCritical s.cfg.honoursCrit (s := s.timeKept) rfl hx
  exact ⟨e, hx', hsame⟩

/-- The operation answers a next state, idle and signalling completion, with these registers. -/
def EndsIn (s : State) (i : Instr) (regs : Regs) : Prop :=
  ∃ t, exec i s = .next t ∧ t.regs = regs ∧ t.cfg = s.cfg ∧ t.seq = .idle ∧ t.rspValid = true

/-- An operation that ends where time is kept with these registers ends with them here. -/
theorem endsIn_of_timeKept {i : Instr} {t : State} {regs : Regs} {wave : Wave} {d n : Nat}
    (hx : exec i s.timeKept = .next t) (hend : Ended s.timeKept t regs wave d n) : EndsIn s i regs := by
  obtain ⟨e, hx', -⟩ := exec_of_timeKept hx
  exact ⟨_, hx', hend.regs, rfl, hend.idle, hend.pulse⟩

/-- Of an outcome the registers are known on every platform and the rest where time is kept, if it is known there. -/
theorem exec_ended_if {i : Instr} {regs : Regs} {wave : Wave} {d n : Nat}
    (hends : EndsIn s i regs)
    (hended : OnTime s.cfg s.eng → ∃ t, exec i s = .next t ∧ Ended s t regs wave d n) :
    ∃ t, exec i s = .next t ∧ t.regs = regs ∧ (OnTime s.cfg s.eng → Ended s t regs wave d n) := by
  obtain ⟨t, hx, ht, -⟩ := hends
  refine ⟨t, hx, ht, fun htime => ?_⟩
  obtain ⟨t', hx', hend⟩ := hended htime
  rw [hx] at hx'
  cases hx'
  exact hend

end

/-- Settles O27: each case of the answers, with the registers from the platform that keeps time. -/
theorem everyAnswerIsAResetOutcome : Obligations.EveryAnswerIsAResetOutcome := by
  unfold Obligations.EveryAnswerIsAResetOutcome
  intro s hready hinit
  have hready' := timeKept_ready hready
  obtain hbusy | hnoRise | ⟨rise, hnoPresence⟩ | ⟨rise, fall, hpresence⟩ := resetAnswers_cases s.cfg s.eng
  · obtain ⟨t, hx, hend⟩ := resetOnABusyLine s hready hinit hbusy
    exact ⟨t, hx, .inl ⟨hbusy, hend⟩⟩
  · obtain ⟨t', hx', hend'⟩ :=
      resetWithoutRise s.timeKept hready' timeKept_onTime hinit (timeKept_noRise hnoRise)
    obtain ⟨t, hx, hregs, hend⟩ := exec_ended_if (endsIn_of_timeKept hx' hend')
      fun htime => resetWithoutRise s hready htime hinit hnoRise
    exact ⟨t, hx, .inr (.inl ⟨hnoRise, hregs, hend⟩)⟩
  · obtain ⟨t', hx', hend'⟩ :=
      resetWithoutPresence s.timeKept rise hready' timeKept_onTime hinit (timeKept_noPresence hnoPresence)
    obtain ⟨t, hx, hregs, hend⟩ := exec_ended_if (endsIn_of_timeKept hx' hend')
      fun htime => resetWithoutPresence s rise hready htime hinit hnoPresence
    exact ⟨t, hx, .inr (.inr (.inl ⟨rise, hnoPresence, hregs, hend⟩))⟩
  · obtain ⟨t', hx', -, -, hend'⟩ :=
      resetWithADevice s.timeKept rise fall hready' timeKept_onTime hinit (timeKept_presence hpresence)
    obtain ⟨t, hx, hregs, hend⟩ := exec_ended_if (endsIn_of_timeKept hx' hend') fun htime =>
      (resetWithADevice s rise fall hready htime hinit hpresence).imp fun _ h => ⟨h.1, h.2.2.2⟩
    exact ⟨t, hx, .inr (.inr (.inr ⟨rise, fall, hpresence, hregs, hend⟩))⟩

end Sys2Proof.Machine

/-! ROM commands (45_rom_commands.md): the bus reset, the command byte, and what follows it, as one run. -/

namespace Sys2Proof.Machine

open Sys2Proof.Terms

/-- Settles O31: past the gate the three commands share the failed reset, which `reset` itself ends with. -/
theorem failedInnerReset : Obligations.FailedInnerReset := by
  unfold Obligations.FailedInnerReset
  intro s code hready hinit hfails
  have hr := resetPrim_result_ne_ok hready.released hready.closed hfails
  refine ⟨_, exec_reset hready.config hinit rfl, ?_⟩
  simp only [List.forall_mem_cons]
  refine ⟨?_, ?_, ?_, List.forall_mem_nil _⟩
  · rw [exec_skipRom hready.config hinit, afterReset_failed rfl hr]
    rfl
  · rw [exec_readRom hready.config hinit, afterReset_failed rfl hr]
    rfl
  · rw [exec_matchRom hready.config hinit, afterReset_failed rfl hr]
    rfl

section

variable {c : Config} {e : Engine}

/-- The command byte of `read_rom` and the 64 read slots: the code answered is stored and folded (R153). -/
theorem readRomSlots_ran (hc : c.wf = true) (he : e.crit = false) (ht : OnTime c e) :
    SlotsRan c e (readRomBytes c 8 (startReadRom (sendByteSlots c wireReadRom e)))
        ((byteBits wireReadRom).map .write ++ (codeBits (answeredCode e 0)).map .read) ∧
      (readRomBytes c 8 (startReadRom (sendByteSlots c wireReadRom e))).tr.buf = answeredCode e 0 ∧
      (readRomBytes c 8 (startReadRom (sendByteSlots c wireReadRom e))).tr.crc = crcResidual (answeredCode e 0) := by
  have hsent : SlotsRan c e (startReadRom (sendByteSlots c wireReadRom e)) ((byteBits wireReadRom).map .write) :=
    (sendByteSlots_ran hc wireReadRom he ht).1.withTr rfl rfl
  have hbytecnt : (startReadRom (sendByteSlots c wireReadRom e)).tr.bytecnt = 0 := rfl
  have hcrc : (startReadRom (sendByteSlots c wireReadRom e)).tr.crc = crcInit := rfl
  generalize startReadRom (sendByteSlots c wireReadRom e) = e1 at hsent hbytecnt hcrc ⊢
  have hcode : answeredCode e1 0 = answeredCode e 0 := by
    rw [hsent.answeredCode, slotReads_map_write]
  obtain ⟨hread, hbuf, hfold⟩ := readRomBytes_ran hc 7 hsent.closed (hsent.onTime ht)
  rw [hbytecnt, answeredCode_eq_stored, hcode] at hbuf
  rw [hcrc, answeredCode_residual, hcode] at hfold
  refine ⟨?_, hbuf, hfold⟩
  have hslots : (List.range (8 * (7 + 1))).map (fun i => Slot.read (e1.answer i)) =
      (codeBits (answeredCode e 0)).map .read := by
    rw [codeBits, List.map_map, ← hcode]
    refine List.map_congr_left fun i hi => ?_
    rw [Function.comp_apply, romBit_answeredCode _ _ (List.mem_range.mp hi), Nat.zero_add]
  rw [hslots] at hread
  exact hsent.gap_trans (by simp [byteBits]) (by simp [codeBits]) hread

/-- The command byte of `match_rom` and the 64 write slots of the code (R156). -/
theorem matchRomSlots_ran (hc : c.wf = true) (he : e.crit = false) (ht : OnTime c e) (code : RomCode) :
    SlotsRan c e (sendCode c code 8 (startMatch (sendByteSlots c wireMatchRom e)))
      ((byteBits wireMatchRom).map .write ++ (codeBits code).map .write) := by
  have hsent : SlotsRan c e (startMatch (sendByteSlots c wireMatchRom e)) ((byteBits wireMatchRom).map .write) :=
    (sendByteSlots_ran hc wireMatchRom he ht).1.withTr rfl rfl
  have hbytecnt : (startMatch (sendByteSlots c wireMatchRom e)).tr.bytecnt = 0 := rfl
  generalize startMatch (sendByteSlots c wireMatchRom e) = e1 at hsent hbytecnt ⊢
  have hcode := sendCode_ran hc code 7 hsent.closed (hsent.onTime ht) (by omega)
  have hslots : (List.range (8 * (7 + 1))).map (fun i => Slot.write (romBit code (8 * e1.tr.bytecnt + i + 1))) =
      (codeBits code).map .write := by
    rw [codeBits, List.map_map, hbytecnt]
    refine List.map_congr_left fun i _ => ?_
    rw [Function.comp_apply, Nat.mul_zero, Nat.zero_add]
  rw [hslots] at hcode
  exact hsent.gap_trans (by simp [byteBits]) (by simp [codeBits]) hcode

end

/-- Settles O28: the bus reset, then the slots of the command byte. -/
theorem skipRomSendsItsByte : Obligations.SkipRomSendsItsByte := by
  unfold Obligations.SkipRomSendsItsByte
  intro s rise fall hready htime hinit hline
  obtain ⟨e, hprim, -, -, hran⟩ := resetPrim_ok s.cfg hready.closed htime hline
  have hrun := hran.gap_slots (sendByteSlots_ran (e := gap s.cfg e) hready.config wireSkipRom hran.closed
    (hran.onTime htime)).1
  rw [slotReads_map_write] at hrun
  refine ⟨_, ?_, ended_of_ran hrun .ok s.regs⟩
  rw [exec_skipRom hready.config hinit, afterReset_ok hprim]

/-- Settles O30: the bus reset, then the slots of the command byte and the code. -/
theorem matchRomSendsTheCode : Obligations.MatchRomSendsTheCode := by
  unfold Obligations.MatchRomSendsTheCode
  intro s code rise fall hready htime hinit hline
  obtain ⟨e, hprim, -, -, hran⟩ := resetPrim_ok s.cfg hready.closed htime hline
  have hrun := hran.gap_slots (matchRomSlots_ran (e := gap s.cfg e) hready.config hran.closed (hran.onTime htime) code)
  rw [slotReads_append, slotReads_map_write, slotReads_map_write] at hrun
  refine ⟨_, ?_, ended_of_ran hrun .ok s.regs⟩
  rw [exec_matchRom hready.config hinit, afterReset_ok hprim]

/-- Settles O29: the bus reset, then the slots of the command byte and of the code answered, which `rdata` and the
residual are of. -/
theorem readRomReturnsTheBytes : Obligations.ReadRomReturnsTheBytes := by
  unfold Obligations.ReadRomReturnsTheBytes
  intro s rise fall hready htime hinit hline
  refine ⟨fun k hk => romBit_answeredCode _ _ hk, ?_⟩
  obtain ⟨e, hprim, -, -, hran⟩ := resetPrim_ok s.cfg hready.closed htime hline
  obtain ⟨hslots, hbuf, hcrc⟩ := readRomSlots_ran (e := gap s.cfg e) hready.config hran.closed (hran.onTime htime)
  have hcode : answeredCode (gap s.cfg e) 0 = answeredCode s.eng (resetSamples rise fall) := hran.answeredCode 0
  rw [hcode] at hslots hbuf hcrc
  have hrun := hran.gap_slots hslots
  rw [slotReads_append, slotReads_map_write, slotReads_map_read, Nat.zero_add] at hrun
  have hexec := exec_readRom hready.config hinit
  rw [afterReset_ok hprim, finishReadRom] at hexec
  simp only [hbuf, hcrc] at hexec
  have hlen : (codeBits (answeredCode s.eng (resetSamples rise fall))).length = 64 := by simp [codeBits]
  rw [hlen] at hrun
  exact ⟨_, hexec, ended_of_ran hrun _ _⟩

/-- Settles O32: the code answered is all ones or all zeros, its residual `0xC9` or 0; seen where time is kept. -/
theorem readRomOfASilentOrStuckLine : Obligations.ReadRomOfASilentOrStuckLine := by
  unfold Obligations.ReadRomOfASilentOrStuckLine
  intro s rise fall hready hinit hline
  obtain ⟨hbits, t, hx, hend⟩ := readRomReturnsTheBytes s.timeKept rise fall (timeKept_ready hready) timeKept_onTime
    hinit (timeKept_presence hline)
  have hends := endsIn_of_timeKept hx hend
  have hcode : ∀ code : RomCode, (∀ k < 64, romBit code (k + 1) = s.eng.answer (resetSamples rise fall + k)) →
      answeredCode s.timeKept.eng (resetSamples rise fall) = code := fun code hc =>
    romCode_ext fun p h1 h64 => by
      obtain ⟨k, rfl⟩ : ∃ k, p = k + 1 := ⟨p - 1, by omega⟩
      rw [hbits k (by omega), hc k (by omega)]
      rfl
  refine ⟨fun hhigh => ?_, fun hlow => ?_⟩
  · rw [hcode (Vector.replicate 8 0xFF) fun k hk => ?_] at hends
    · exact hends.imp fun _ h => ⟨h.1, h.2.1⟩
    · rw [hhigh k hk]
      revert k
      decide
  · rw [hcode zeroRom fun k hk => by rw [hlow k hk, romBit_zeroRom]] at hends
    exact hends.imp fun _ h => ⟨h.1, h.2.1⟩

end Sys2Proof.Machine

/-! Durations (R245) with the source's values: the lengths of slots and of the bus reset, and what each operation is
made of. -/

namespace Sys2Proof.Machine

open Sys2Proof.Terms

section

variable {c : Config} (hc : c.Canonical)

include hc

/-- The source's hardware keeps time (R6, R222). -/
theorem canonical_onTime (e : Engine) : OnTime c e := by
  rw [hc]
  exact .inl ⟨rfl, rfl⟩

theorem canonical_gap : c.gap = 0 := by rw [hc]; rfl

theorem canonical_slotLength (x : Slot) : x.length c = 120 + match x with | .write false => 1 | _ => 0 := by
  rw [hc]
  cases x with
  | write b => cases b <;> rfl
  | read b => rfl

/-- Without gaps slots last as long as they do one by one. -/
theorem canonical_slotsLength (slots : List Slot) : slotsLength c slots = (slots.map fun x => x.length c).sum := by
  rw [slotsLength, canonical_gap hc, Nat.mul_zero, Nat.add_zero]

theorem canonical_slotsLength_append (xs ys : List Slot) :
    slotsLength c (xs ++ ys) = slotsLength c xs + slotsLength c ys := by
  simp only [canonical_slotsLength hc, List.map_append, List.sum_append]

theorem canonical_slotsLength_write (bits : List Bool) :
    slotsLength c (bits.map .write) = 120 * bits.length + zeros bits := by
  rw [canonical_slotsLength hc]
  induction bits with
  | nil => rfl
  | cons b bits ih =>
    rw [List.map_cons, List.map_cons, List.sum_cons, ih, canonical_slotLength hc, zeros, zeros, List.length_cons]
    cases b <;> simp <;> omega

theorem canonical_slotsLength_read (bits : List Bool) : slotsLength c (bits.map .read) = 120 * bits.length := by
  rw [canonical_slotsLength hc]
  induction bits with
  | nil => rfl
  | cons b bits ih =>
    have hread : (Slot.read b).length c = 120 := canonical_slotLength hc (.read b)
    rw [List.map_cons, List.map_cons, List.sum_cons, ih, hread, List.length_cons]
    omega

/-- A byte sent (R144). -/
theorem canonical_slotsLength_byte (byte : Byte) :
    slotsLength c ((byteBits byte).map .write) = 960 + zeros (byteBits byte) := by
  rw [canonical_slotsLength_write hc, byteBits_length]

/-- A bus reset that succeeds lasts 961, whatever the device's times (R115). -/
theorem canonical_resetLength {e : Engine} {rise fall : Nat} (h : Presence c e rise fall) :
    resetLength c rise fall = 961 := by
  have hrise := h.riseInWindow
  have hfall := h.fallInWindow
  rw [hc] at hrise hfall ⊢
  simp only [resetLength, Config.canonical] at hrise hfall ⊢
  omega

end

/-- An instruction answers a next state this much later. -/
def Lasts (s : State) (i : Instr) (d : Nat) : Prop := ∃ t, exec i s = .next t ∧ t.eng.now = s.eng.now + d

section

variable {s : State} {i : Instr} {d : Nat}

/-- A run's duration, written in numbers. -/
theorem Lasts.of_ran {wave : Wave} {d' n : Nat} {P : State → Prop} (h : ∃ t, exec i s = .next t ∧ P t)
    (hran : ∀ t, P t → Ran s t wave d' n) (hd : d' = d) : Lasts s i d := by
  obtain ⟨t, hx, ht⟩ := h
  exact ⟨t, hx, hd ▸ (hran t ht).clock⟩

/-- What has no event takes no time. -/
theorem Lasts.of_endOperation {st : Status} {regs : Regs}
    (hx : exec i s = .next (endOperation st { s with regs := regs })) : Lasts s i 0 :=
  ⟨_, hx, rfl⟩

/-- `init` takes no time either way (R102). -/
theorem Lasts.init (hready : Ready s) (arg : BitVec 64) : Lasts s (.init arg) 0 :=
  ⟨_, exec_init hready.config arg, configureLine_of (P := fun t => t.eng.now = s.eng.now + 0) rfl rfl⟩

/-- The ROM commands whose bus reset fails last as long as `reset` does (R120, R150). -/
theorem Lasts.of_reset_failed (hready : Ready s) (hinit : s.regs.initialized = true) (hfails : ResetFails s.cfg s.eng)
    (hreset : Lasts s .reset d) (code : RomCode) :
    ∀ i ∈ [Instr.reset, .skipRom, .readRom, .matchRom code], Lasts s i d := by
  obtain ⟨r, hr, hothers⟩ := failedInnerReset s code hready hinit hfails
  obtain ⟨t, ht, hnow⟩ := hreset
  rw [hr] at ht
  cases ht
  rw [List.forall_mem_cons]
  exact ⟨⟨r, hr, hnow⟩, fun i hi => ⟨_, hothers i hi, hnow⟩⟩

end

/-- Settles O50: each operation's run, its length in the source's numbers. -/
theorem durationsWithTheSourceValues : Obligations.DurationsWithTheSourceValues := by
  unfold Obligations.DurationsWithTheSourceValues
  intro s arg byte code rise fall hready hc
  have htime := canonical_onTime hc s.eng
  have hwf := hready.config
  change Lasts s _ _ ∧ Lasts s _ _ ∧ Lasts s _ _ ∧ Lasts s _ _ ∧ Lasts s _ _ ∧ (∀ i ∈ _, Lasts s i 0) ∧
    (_ → ∀ i ∈ _, Lasts s i 0) ∧ (_ → Lasts s _ _ ∧ Lasts s _ _ ∧
      (_ → Lasts s _ _ ∧ Lasts s _ _ ∧ Lasts s _ _ ∧ Lasts s _ _) ∧
      (_ → ∀ i ∈ _, Lasts s i _) ∧ (_ → ∀ i ∈ _, Lasts s i _) ∧ (_ → ∀ i ∈ _, Lasts s i _))
  refine ⟨Lasts.init hready arg, ?writeBit0, ?writeBit1, ?readBit, ?searchInit, ?illegal, fun hinit => ?closed,
    fun hinit => ⟨?sendByte, ?readByte, fun hline => ?device, fun hline => ?busy, fun hline => ?noRise,
      fun hline => ?noPresence⟩⟩
  case writeBit0 =>
    exact .of_ran (BitTransport.writeZeroSlot.2 s hready htime) (fun _ h => h.1.toRan)
      (canonical_slotLength hc (.write false))
  case writeBit1 =>
    exact .of_ran (BitTransport.writeOneSlot.2 s hready htime) (fun _ h => h.1.toRan)
      (canonical_slotLength hc (.write true))
  case readBit =>
    exact .of_ran (BitTransport.readSlot.2 s hready htime) (fun _ h => h.1.toRan) (canonical_slotLength hc (.read true))
  case searchInit =>
    cases hinit : s.regs.initialized with
    | true => exact .of_endOperation (exec_searchInit hwf hinit)
    | false => exact .of_endOperation (exec_of_uninitialized hwf hinit rfl)
  case illegal =>
    exact fun i hi => ⟨_, exec_of_mem_illegalInstrs hwf hi, rfl⟩
  case closed =>
    simp only [List.forall_mem_cons]
    exact ⟨.of_endOperation (exec_of_uninitialized hwf hinit rfl), .of_endOperation (exec_of_uninitialized hwf hinit rfl),
      .of_endOperation (exec_of_uninitialized hwf hinit rfl), .of_endOperation (exec_of_uninitialized hwf hinit rfl),
      .of_endOperation (exec_of_uninitialized hwf hinit rfl), .of_endOperation (exec_of_uninitialized hwf hinit rfl),
      .of_endOperation (exec_of_uninitialized hwf hinit rfl), List.forall_mem_nil _⟩
  case sendByte =>
    exact .of_ran (sendByteWritesEightSlots s byte hready htime hinit) (fun _ h => h.toRan)
      (canonical_slotsLength_byte hc byte)
  case readByte =>
    obtain ⟨t, _, hx, -, hend⟩ := readByteAssemblesEightSamples s hready htime hinit
    have hlen := canonical_slotsLength_read hc ((List.range 8).map s.eng.answer)
    rw [List.map_map] at hlen
    exact ⟨t, hx, hend.clock.trans (congrArg _ hlen)⟩
  case device =>
    have hreset := canonical_resetLength hc hline
    have hgap := canonical_gap hc
    refine ⟨.of_ran (resetWithADevice s rise fall hready htime hinit hline) (fun _ h => h.2.2.toRan) hreset,
      .of_ran (skipRomSendsItsByte s rise fall hready htime hinit hline) (fun _ h => h.toRan) ?_,
      .of_ran (readRomReturnsTheBytes s rise fall hready htime hinit hline).2 (fun _ h => h.toRan) ?_,
      .of_ran (matchRomSendsTheCode s code rise fall hready htime hinit hline) (fun _ h => h.toRan) ?_⟩
    · rw [hreset, hgap, canonical_slotsLength_byte hc]
      rfl
    · rw [hreset, hgap, canonical_slotsLength_append hc, canonical_slotsLength_byte hc, canonical_slotsLength_read hc,
        codeBits, List.length_map, List.length_range]
      rfl
    · rw [hreset, hgap, canonical_slotsLength_append hc, canonical_slotsLength_byte hc, canonical_slotsLength_write hc,
        show zeros (byteBits 0x55) = 4 from rfl, codeBits, List.length_map, List.length_range]
      omega
  case busy =>
    exact .of_reset_failed hready hinit (.inl hline)
      (.of_ran (resetOnABusyLine s hready hinit hline) (fun _ h => h.toRan) rfl) code
  case noRise =>
    refine .of_reset_failed hready hinit (.inr (.inl hline))
      (.of_ran (resetWithoutRise s hready htime hinit hline) (fun _ h => h.toRan) ?_) code
    rw [hc]
    rfl
  case noPresence =>
    refine .of_reset_failed hready hinit (.inr (.inr ⟨rise, hline⟩))
      (.of_ran (resetWithoutPresence s rise hready htime hinit hline) (fun _ h => h.toRan) ?_) code
    rw [hc]
    simp only [Config.canonical]
    omega

end Sys2Proof.Machine

/-! The search pass (R172 to R177): what the spec's table of decisions makes of the pairs, and the engine's pass as that
table's. -/

namespace Sys2Proof.Machine

open Sys2Proof.Terms

/-! The pass as the table has it. -/

section

variable {rom : RomCode} {fork pos newFork last : Nat} {pair : Bool × Bool} {pairs : List (Bool × Bool)} {bit : Bool}
  {bits : List Bool}

/-- A position either dictates its bit or is a fork, whose bit 0 is recorded (R173, R174). -/
theorem choice_cases {newFork' : Nat} (h : choice rom fork pos newFork pair = some (bit, newFork')) :
    (pair = (bit, !bit) ∧ newFork' = newFork) ∨
      (pair = (false, false) ∧ newFork' = if bit then newFork else pos) := by
  obtain ⟨b, nb⟩ := pair
  cases b <;> cases nb <;> simp only [choice] at h
  case false.false =>
    refine .inr ⟨rfl, ?_⟩
    split at h
    · cases h; rfl
    · split at h
      · cases h; rfl
      · split at h <;> cases h <;> rfl
  case false.true | true.false =>
    cases h
    exact .inl ⟨rfl, rfl⟩
  case true.true => cases h

/-- A pass that completes makes a choice at its first position and completes after it. -/
theorem passOver_cons_eq_some (h : passOver rom fork (pair :: pairs) pos newFork = some (bits, last)) :
    ∃ bit newFork' bits', choice rom fork pos newFork pair = some (bit, newFork') ∧
      passOver rom fork pairs (pos + 1) newFork' = some (bits', last) ∧ bits = bit :: bits' := by
  simp only [passOver] at h
  split at h
  · cases h
  · split at h
    · cases h
    · cases h
      exact ⟨_, _, _, ‹_›, ‹_›, rfl⟩

theorem passOver_length (h : passOver rom fork pairs pos newFork = some (bits, last)) :
    bits.length = pairs.length := by
  induction pairs generalizing pos newFork bits with
  | nil => cases h; rfl
  | cons pair pairs ih =>
    obtain ⟨bit, newFork', bits', -, hrest, rfl⟩ := passOver_cons_eq_some h
    rw [List.length_cons, List.length_cons, ih hrest]

/-- Where the pair dictates a bit, it is the bit chosen (R174). -/
theorem passOver_forced (h : passOver rom fork pairs pos newFork = some (bits, last)) {k : Nat} {b : Bool}
    (hk : pairs[k]? = some (b, !b)) : bits[k]? = some b := by
  induction pairs generalizing pos newFork bits k with
  | nil => simp at hk
  | cons pair pairs ih =>
    obtain ⟨bit, newFork', bits', hchoice, hrest, rfl⟩ := passOver_cons_eq_some h
    cases k with
    | succ k => exact ih hrest hk
    | zero =>
      cases hk
      obtain ⟨hpair, -⟩ | ⟨hpair, -⟩ := choice_cases hchoice
      · rw [List.getElem?_cons_zero, (Prod.mk.inj hpair).1]
      · cases b <;> simp at hpair

/-- Fork points are recorded in ascending order (R173). -/
theorem le_last_of_passOver (h : passOver rom fork pairs pos newFork = some (bits, last)) (hnew : newFork < pos) :
    newFork ≤ last := by
  induction pairs generalizing pos newFork bits with
  | nil => cases h; exact Nat.le_refl _
  | cons pair pairs ih =>
    obtain ⟨bit, newFork', bits', hchoice, hrest, -⟩ := passOver_cons_eq_some h
    have hle : newFork ≤ newFork' ∧ newFork' < pos + 1 := by
      obtain ⟨-, rfl⟩ | ⟨-, rfl⟩ := choice_cases hchoice
      · omega
      · split <;> omega
    exact Nat.le_trans hle.1 (ih hrest hle.2)

/-- No fork where 0 was chosen lies behind the last one recorded (R177). -/
theorem passOver_deferred_le (h : passOver rom fork pairs pos newFork = some (bits, last)) (hnew : newFork < pos)
    {k : Nat} (hk : pairs[k]? = some (false, false)) (hb : bits[k]? = some false) : pos + k ≤ last := by
  induction pairs generalizing pos newFork bits k with
  | nil => simp at hk
  | cons pair pairs ih =>
    obtain ⟨bit, newFork', bits', hchoice, hrest, rfl⟩ := passOver_cons_eq_some h
    have hnew' : newFork' < pos + 1 := by
      obtain ⟨-, rfl⟩ | ⟨-, rfl⟩ := choice_cases hchoice
      · omega
      · split <;> omega
    cases k with
    | succ k =>
      have hle := ih hrest hnew' hk hb
      omega
    | zero =>
      cases hk
      cases hb
      obtain ⟨hpair, -⟩ | ⟨-, rfl⟩ := choice_cases hchoice
      · cases hpair
      · exact le_last_of_passOver hrest (by simp)

/-- The last fork recorded is one where the pair was (0,0) and 0 was chosen, or the one before the pass (R177). -/
theorem passOver_last (h : passOver rom fork pairs pos newFork = some (bits, last)) :
    last = newFork ∨ ∃ k, last = pos + k ∧ pairs[k]? = some (false, false) ∧ bits[k]? = some false := by
  induction pairs generalizing pos newFork bits with
  | nil => cases h; exact .inl rfl
  | cons pair pairs ih =>
    obtain ⟨bit, newFork', bits', hchoice, hrest, rfl⟩ := passOver_cons_eq_some h
    obtain hlast | ⟨k, hlast, hpair, hbit⟩ := ih hrest
    · obtain ⟨-, rfl⟩ | ⟨rfl, rfl⟩ := choice_cases hchoice
      · exact .inl hlast
      · cases bit with
        | true => exact .inl hlast
        | false => exact .inr ⟨0, hlast, rfl, rfl⟩
    · exact .inr ⟨k + 1, by omega, hpair, hbit⟩

end

/-! The engine's pass. -/

/-- The pairs of a pass, counted from where its answers begin (R77). -/
theorem nextPairs_eq_answeredPairs {e e' : Engine} {n : Nat} (h : ∀ k, e'.answer k = e.answer (n + k)) :
    nextPairs e' 64 = answeredPairs e n := by
  simp only [nextPairs, answeredPairs, h, Nat.add_assoc]

theorem codeBits_length (r : RomCode) : (codeBits r).length = 64 := by simp [codeBits]

theorem codeBits_getElem? (r : RomCode) {p : Nat} (h1 : 1 ≤ p) (h64 : p ≤ 64) :
    (codeBits r)[p - 1]? = some (romBit r p) := by
  rw [codeBits, List.getElem?_map, List.getElem?_range (by omega), Option.map_some, Nat.sub_add_cancel h1]

/-- A code is known by its bits. -/
theorem codeBits_eq_of_getD {r : RomCode} {bits : List Bool} (hlen : bits.length = 64)
    (h : ∀ p, 1 ≤ p → p ≤ 64 → romBit r p = bits.getD (p - 1) false) : codeBits r = bits := by
  refine List.ext_getElem (by rw [codeBits_length, hlen]) fun k hk hk' => ?_
  rw [codeBits_length] at hk
  simp [codeBits, h (k + 1) (by omega) (by omega), hk']

section

variable {s : State} {e e' : Engine}

theorem searchPass_of_done (h : searchLoop s.cfg s.regs.rom s.regs.forkBit 64
    (startPass (sendByteSlots s.cfg wireSearchRom e)) = (e', true)) : searchPass s e = commitPass { s with eng := e' } := by
  simp only [searchPass, h]

theorem searchPass_of_aborted (h : searchLoop s.cfg s.regs.rom s.regs.forkBit 64
    (startPass (sendByteSlots s.cfg wireSearchRom e)) = (e', false)) :
    searchPass s e = endOperation .noneReturned { s with eng := e' } := by
  simp only [searchPass, h]

end

/-- Settles O40: the bus reset, the command byte's slots and the slots of the loop as one run; the loop's end is the
table's, committed or aborted. -/
theorem searchNextMakesThePass : Obligations.SearchNextMakesThePass := by
  unfold Obligations.SearchNextMakesThePass
  intro s rise fall hready htime hinit hf hline
  obtain ⟨e, hprim, -, -, hran⟩ := resetPrim_ok s.cfg hready.closed htime hline
  have hexec := exec_searchNext hready.config hinit hf
  rw [afterReset_ok hprim] at hexec
  have hsent : SlotsRan s.cfg (gap s.cfg e) (startPass (sendByteSlots s.cfg wireSearchRom (gap s.cfg e)))
      ((byteBits wireSearchRom).map .write) :=
    (sendByteSlots_ran (e := gap s.cfg e) hready.config wireSearchRom hran.closed (hran.onTime htime)).1.withTr rfl rfl
  have hnew : (startPass (sendByteSlots s.cfg wireSearchRom (gap s.cfg e))).tr.newFork.val = 0 := rfl
  have hpairs : nextPairs (startPass (sendByteSlots s.cfg wireSearchRom (gap s.cfg e))) 64 =
      answeredPairs s.eng (resetSamples rise fall) := nextPairs_eq_answeredPairs fun k => by
    rw [hsent.answer, slotReads_map_write, Nat.zero_add]
    exact hran.answer k
  obtain ⟨e', done, hloop, hslots, hpass⟩ := searchLoop_ran hready.config s.regs.rom s.regs.forkBit 63 (Nat.le_refl _)
    hsent.closed (hsent.onTime (hran.onTime htime))
  rw [hpairs, hnew] at hslots hpass
  have hne : passSlots s.regs.rom s.regs.forkBit.val (answeredPairs s.eng (resetSamples rise fall)) (64 - 63) 0 ≠ [] := by
    rw [answeredPairs, List.range_succ_eq_map]
    exact passSlots_ne_nil _ _ _ _ _ _
  have hrun := hran.gap_slots (hsent.gap_trans (by simp [byteBits]) hne hslots)
  rw [slotReads_append, slotReads_map_write, Nat.zero_add] at hrun
  cases hover : passOver s.regs.rom s.regs.forkBit.val (answeredPairs s.eng (resetSamples rise fall)) 1 0 with
  | none =>
    rw [hover] at hpass
    cases hpass
    rw [searchPass_of_aborted hloop] at hexec
    exact ⟨_, _, hexec, ended_of_ran hrun .noneReturned s.regs,
      fun _ _ h => absurd (hover.symm.trans h) (by simp), fun _ => rfl⟩
  | some result =>
    obtain ⟨bits, last⟩ := result
    rw [hover] at hpass
    obtain ⟨rfl, hlast, hlen, hbits⟩ := hpass
    rw [searchPass_of_done hloop] at hexec
    have hcode : codeBits e'.tr.newRom = bits := codeBits_eq_of_getD hlen fun p h1 h64 => by
      rw [hbits p h1 h64, if_neg (by omega)]
    refine ⟨_, _, hexec, ended_of_ran hrun .ok _, fun bits' fork' h => ?_,
      fun h => absurd (hover.symm.trans h) (by simp)⟩
    cases hover.symm.trans h
    exact ⟨hcode, hlast, rfl⟩

/-- A `search_next` that returns a code has completed the pass of the table, whatever time is kept: its registers
(R177). -/
theorem searchNext_endsIn {s : State} {rise fall : Nat} (hready : Ready s) (hinit : s.regs.initialized = true)
    (hf : s.regs.forkBit ≠ 0) (hline : Presence s.cfg s.eng rise fall) :
    ∃ regs, EndsIn s .searchNext regs ∧
      (∀ bits last, passOver s.regs.rom s.regs.forkBit.val (answeredPairs s.eng (resetSamples rise fall)) 1 0 =
        some (bits, last) → codeBits regs.rom = bits ∧ regs.forkBit.val = last ∧
          regs = { s.regs with rom := regs.rom, forkBit := regs.forkBit, rdata := pack regs.rom, status := .ok }) ∧
      (passOver s.regs.rom s.regs.forkBit.val (answeredPairs s.eng (resetSamples rise fall)) 1 0 = none →
        regs = { s.regs with status := .noneReturned }) := by
  obtain ⟨t, regs, hx, hend, hcommitted, haborted⟩ := searchNextMakesThePass s.timeKept rise fall (timeKept_ready hready)
    timeKept_onTime hinit hf (timeKept_presence hline)
  exact ⟨regs, endsIn_of_timeKept hx hend, hcommitted, haborted⟩

/-- Settles O41: a pass that returns a code is complete, and the last fork and the bits are the table's. -/
theorem forkIsTheLastDeferredBranch : Obligations.ForkIsTheLastDeferredBranch := by
  unfold Obligations.ForkIsTheLastDeferredBranch
  intro s rise fall hready hinit hf hline
  obtain ⟨regs, ⟨t, hx, hregs, -⟩, hcommitted, haborted⟩ := searchNext_endsIn hready hinit hf hline
  refine ⟨t, hx, fun hok => ?_⟩
  rw [hregs] at hok ⊢
  cases hover : passOver s.regs.rom s.regs.forkBit.val (answeredPairs s.eng (resetSamples rise fall)) 1 0 with
  | none =>
    rw [haborted hover] at hok
    cases hok
  | some result =>
    obtain ⟨bits, last⟩ := result
    obtain ⟨hbits, hlast, -⟩ := hcommitted bits last hover
    have hlen : (answeredPairs s.eng (resetSamples rise fall)).length = 64 := by simp [answeredPairs]
    have hbit : ∀ p, 1 ≤ p → p ≤ 64 → bits[p - 1]? = some (romBit regs.rom p) := fun p h1 h64 => by
      rw [← hbits, codeBits_getElem? _ h1 h64]
    have hfork := passOver_last hover
    rw [hlast]
    refine ⟨?_, fun p b h1 h64 hp => ?_, fun p h1 h64 hp hb => ?_, fun h1 => ?_⟩
    · obtain rfl | ⟨k, rfl, hpair, -⟩ := hfork
      · omega
      · have hk := (List.getElem?_eq_some_iff.mp hpair).1
        omega
    · exact Option.some.inj ((hbit p h1 h64).symm.trans (passOver_forced hover hp))
    · have hle := passOver_deferred_le hover (by omega) hp (hb ▸ hbit p h1 h64)
      omega
    · obtain rfl | ⟨k, rfl, hpair, hchosen⟩ := hfork
      · omega
      · have hk := (List.getElem?_eq_some_iff.mp hpair).1
        rw [Nat.add_sub_cancel_left]
        refine ⟨hpair, Option.some.inj ((hbit (1 + k) h1 (by omega)).symm.trans ?_)⟩
        rw [Nat.add_sub_cancel_left]
        exact hchosen

/-- The slots of a completed pass, with the source's values: two reads and a write at each position (R247). -/
theorem canonical_slotsLength_pass {c : Config} (hc : c.Canonical) {rom : RomCode} {fork : Nat}
    {pairs : List (Bool × Bool)} {pos newFork : Nat} {bits : List Bool} {last : Nat}
    (h : passOver rom fork pairs pos newFork = some (bits, last)) :
    slotsLength c (passSlots rom fork pairs pos newFork) = 360 * bits.length + zeros bits := by
  rw [canonical_slotsLength hc]
  induction pairs generalizing pos newFork bits with
  | nil => cases h; rfl
  | cons pair pairs ih =>
    obtain ⟨bit, newFork', bits', hchoice, hrest, rfl⟩ := passOver_cons_eq_some h
    have hread : ∀ b, (Slot.read b).length c = 120 := fun b => canonical_slotLength hc (.read b)
    simp only [passSlots, hchoice, List.map_cons, List.sum_cons, ih hrest, hread, canonical_slotLength hc (.write bit),
      List.length_cons, zeros]
    cases bit <;> simp <;> omega

/-- Settles O51: the bus reset, the command byte and the slots of the completed pass. -/
theorem fullPassDuration : Obligations.FullPassDuration := by
  unfold Obligations.FullPassDuration
  intro s t rise fall hready hc hinit hf hline hx hok
  obtain ⟨t', regs, hx', hend, hcommitted, haborted⟩ :=
    searchNextMakesThePass s rise fall hready (canonical_onTime hc s.eng) hinit hf hline
  rw [hx] at hx'
  cases hx'
  rw [hend.regs] at hok ⊢
  cases hover : passOver s.regs.rom s.regs.forkBit.val (answeredPairs s.eng (resetSamples rise fall)) 1 0 with
  | none =>
    rw [haborted hover] at hok
    cases hok
  | some result =>
    obtain ⟨bits, last⟩ := result
    obtain ⟨hbits, -, -⟩ := hcommitted bits last hover
    have hpass := canonical_slotsLength_pass hc hover
    rw [hend.clock, canonical_resetLength hc hline, canonical_gap hc, canonical_slotsLength_append hc,
      canonical_slotsLength_byte hc, show zeros (byteBits 0xF0) = 4 from rfl, hpass, ← hbits, codeBits_length]
    omega

end Sys2Proof.Machine

/-! The search over ideal devices (R77, R180): a pass ends at one of them, and which branch it took where another parts
from it decides their order. -/

namespace Sys2Proof.Machine

open Sys2Proof.Terms

/-- Two codes have the same bits at the positions from `pos` to before `q`. -/
def AgreeFrom (pos q : Nat) (a b : RomCode) : Prop := ∀ j, pos ≤ j → j < q → romBit a j = romBit b j

/-- Two codes part at `q`: the first position from `pos` on where they differ. -/
def PartAt (pos q : Nat) (a b : RomCode) : Prop := AgreeFrom pos q a b ∧ romBit a q ≠ romBit b q

/-- The branch that the cursor has a pass take at a fork (R173). -/
def Branch (rom : RomCode) (fork q : Nat) (bit : Bool) : Prop :=
  (fork < q → bit = false) ∧ (q = fork → bit = true) ∧ (q < fork → bit = romBit rom q)

section

variable {rom : RomCode} {fork pos newFork : Nat} {devices : List RomCode}

/-- Devices that all have one bit put it on the wire with its complement (R77). -/
theorem devicePair_of_forall {bit : Bool} (hne : devices ≠ []) (h : ∀ d ∈ devices, romBit d pos = bit) :
    devicePair devices pos = (bit, !bit) := by
  have hall : ∀ v, (devices.all fun d => romBit d pos == v) = (bit == v) := fun v => by
    obtain ⟨d, hd⟩ := List.exists_mem_of_ne_nil devices hne
    rw [Bool.eq_iff_iff, List.all_eq_true]
    exact ⟨fun hv => h d hd ▸ hv d hd, fun hv d' hd' => by rw [h d' hd']; exact hv⟩
  have htrue := hall true
  have hfalse := hall false
  simp only [beq_true, beq_false] at htrue hfalse
  rw [devicePair, htrue, hfalse]

/-- Devices with both bits pull both reads low (R77). -/
theorem devicePair_of_both {d d' : RomCode} (hd : d ∈ devices) (hd' : d' ∈ devices) (h : romBit d pos = false)
    (h' : romBit d' pos = true) : devicePair devices pos = (false, false) := by
  have h1 : (devices.all fun d => romBit d pos) = false := List.all_eq_false.mpr ⟨d, hd, by simp [h]⟩
  have h2 : (devices.all fun d => !romBit d pos) = false := List.all_eq_false.mpr ⟨d', hd', by simp [h']⟩
  rw [devicePair, h1, h2]

/-- A pair that dictates its bit records nothing (R174). -/
theorem choice_forced (bit : Bool) : choice rom fork pos newFork (bit, !bit) = some (bit, newFork) := by
  cases bit <;> rfl

/-- At a fork the branch is the cursor's, and a 0 is recorded (R173). -/
theorem choice_fork :
    ∃ bit, choice rom fork pos newFork (false, false) = some (bit, if bit then newFork else pos) ∧
      Branch rom fork pos bit := by
  rcases lt_trichotomy fork pos with h | h | h
  · exact ⟨false, by simp [choice, h], fun _ => rfl, by omega, by omega⟩
  · exact ⟨true, by simp [choice, h], by omega, fun _ => rfl, by omega⟩
  · refine ⟨romBit rom pos, ?_, by omega, by omega, fun _ => rfl⟩
    have h1 : ¬ fork < pos := by omega
    have h2 : pos ≠ fork := by omega
    cases hb : romBit rom pos <;> simp [choice, h1, h2, hb]

theorem mem_matching {d : RomCode} {bit : Bool} : d ∈ matching devices pos bit ↔ d ∈ devices ∧ romBit d pos = bit := by
  simp [matching]

/-- The choice among devices: some device has the bit chosen; if another has the other bit the branch is the cursor's;
and the position is recorded exactly when 0 was chosen past a device with a 1. -/
theorem choice_devices (hne : devices ≠ []) :
    ∃ bit newFork', choice rom fork pos newFork (devicePair devices pos) = some (bit, newFork') ∧
      matching devices pos bit ≠ [] ∧ ((∃ d ∈ devices, romBit d pos ≠ bit) → Branch rom fork pos bit) ∧
      ((newFork' = newFork ∧ (bit = false → ∀ d ∈ devices, romBit d pos = false)) ∨
        (newFork' = pos ∧ bit = false ∧ ∃ d ∈ devices, romBit d pos = true)) := by
  by_cases hforced : ∃ bit, ∀ d ∈ devices, romBit d pos = bit
  · obtain ⟨bit, hbit⟩ := hforced
    refine ⟨bit, newFork, by rw [devicePair_of_forall hne hbit, choice_forced], ?_, ?_, .inl ⟨rfl, ?_⟩⟩
    · obtain ⟨d, hd⟩ := List.exists_mem_of_ne_nil devices hne
      exact List.ne_nil_of_mem (mem_matching.mpr ⟨hd, hbit d hd⟩)
    · exact fun ⟨d, hd, hdiff⟩ => absurd (hbit d hd) hdiff
    · rintro rfl
      exact hbit
  · have hboth : ∀ v, ∃ d ∈ devices, romBit d pos = v := fun v => by
      by_contra hv
      exact hforced ⟨!v, fun d hd => Bool.eq_not.mpr fun h => hv ⟨d, hd, h⟩⟩
    obtain ⟨d, hd, hzero⟩ := hboth false
    obtain ⟨d', hd', hone⟩ := hboth true
    obtain ⟨bit, hchoice, hbranch⟩ := choice_fork (rom := rom) (fork := fork) (pos := pos) (newFork := newFork)
    refine ⟨bit, _, by rw [devicePair_of_both hd hd' hzero hone, hchoice], ?_, fun _ => hbranch, ?_⟩
    · obtain ⟨d, hd, hbit⟩ := hboth bit
      exact List.ne_nil_of_mem (mem_matching.mpr ⟨hd, hbit⟩)
    · cases bit with
      | true => exact .inl ⟨rfl, nofun⟩
      | false => exact .inr ⟨rfl, rfl, d', hd', hone⟩

end

/-- What a pass from `pos` on makes of the devices that still take part: the code it ends at is one of them; where another
parts from it the branch was the cursor's; `last` is the last position where one parts from it with a 1, or `newFork`. -/
structure PassResult (rom : RomCode) (fork pos newFork : Nat) (devices : List RomCode) (r : RomCode) (last : Nat) :
    Prop where
  isDevice : r ∈ devices
  branch : ∀ d ∈ devices, ∀ q, pos ≤ q → q ≤ 64 → PartAt pos q r d → Branch rom fork q (romBit r q)
  newForkLe : newFork < pos → newFork ≤ last
  greatest : newFork < pos → ∀ d ∈ devices, ∀ q, pos ≤ q → q ≤ 64 → PartAt pos q r d → romBit r q = false → q ≤ last
  recorded : last = newFork ∨ (pos ≤ last ∧ last ≤ 64 ∧ romBit r last = false ∧ ∃ d ∈ devices, PartAt pos last r d)

/-- A code parts from another at a position either there or later. -/
theorem PartAt.succ_or_eq {pos q : Nat} {a b : RomCode} (h : PartAt pos q a b) (hq : pos ≤ q) :
    (q = pos ∧ romBit a pos ≠ romBit b pos) ∨ (pos + 1 ≤ q ∧ romBit a pos = romBit b pos ∧ PartAt (pos + 1) q a b) := by
  obtain ⟨hagree, hdiff⟩ := h
  rcases Nat.eq_or_lt_of_le hq with rfl | hlt
  · exact .inl ⟨rfl, hdiff⟩
  · exact .inr ⟨hlt, hagree pos (Nat.le_refl _) hlt, fun j hj => hagree j (by omega), hdiff⟩

/-- Agreeing at one position more. -/
theorem PartAt.of_succ {pos q : Nat} {a b : RomCode} (h : PartAt (pos + 1) q a b) (hbit : romBit a pos = romBit b pos) :
    PartAt pos q a b := by
  refine ⟨fun j hj hjq => ?_, h.2⟩
  rcases Nat.eq_or_lt_of_le hj with rfl | hlt
  · exact hbit
  · exact h.1 j hlt hjq

/-- The bits of a code from a position on. -/
def bitsFrom (r : RomCode) (pos n : Nat) : List Bool := (List.range n).map fun k => romBit r (pos + k)

theorem bitsFrom_succ (r : RomCode) (pos n : Nat) :
    bitsFrom r pos (n + 1) = romBit r pos :: bitsFrom r (pos + 1) n := by
  simp [bitsFrom, List.range_succ_eq_map, Nat.add_assoc, Nat.add_comm 1]

/-- A pass over devices completes, and ends at one of them (R175, R180). -/
theorem passOver_devicePairs (rom : RomCode) (fork n : Nat) {pos newFork : Nat} {devices : List RomCode}
    (hne : devices ≠ []) (hpos : pos + n = 65) :
    ∃ r last, passOver rom fork (devicePairs rom fork n pos newFork devices) pos newFork =
        some (bitsFrom r pos n, last) ∧ PassResult rom fork pos newFork devices r last := by
  induction n generalizing pos newFork devices with
  | zero =>
    obtain ⟨r, hr⟩ := List.exists_mem_of_ne_nil devices hne
    exact ⟨r, newFork, rfl, hr, fun _ _ q _ _ => by omega, fun _ => Nat.le_refl _, fun _ _ _ q _ _ => by omega, .inl rfl⟩
  | succ n ih =>
    obtain ⟨bit, newFork', hchoice, hmatch, hbranch, hfork⟩ :=
      choice_devices (rom := rom) (fork := fork) (pos := pos) (newFork := newFork) hne
    obtain ⟨r, last, hover, hr, hrest, hle, hgreatest, hrecorded⟩ := ih (pos := pos + 1) (newFork := newFork') hmatch (by omega)
    obtain ⟨hrmem, rfl⟩ := mem_matching.mp hr
    have hstays : ∀ d ∈ devices, romBit r pos = romBit d pos → d ∈ matching devices pos (romBit r pos) :=
      fun d hd hbit => mem_matching.mpr ⟨hd, hbit.symm⟩
    have hnew : newFork < pos → newFork' < pos + 1 ∧ newFork ≤ newFork' := fun h => by
      obtain ⟨rfl, -⟩ | ⟨rfl, -⟩ := hfork <;> omega
    refine ⟨r, last, ?_, hrmem, fun d hd q hq h64 hpart => ?branch, fun h => ?newForkLe,
      fun h d hd q hq h64 hpart hzero => ?greatest, ?recorded⟩
    · simp only [devicePairs, hchoice, passOver, hover, bitsFrom_succ]
    case branch =>
      obtain ⟨rfl, hdiff⟩ | ⟨hq', hsame, hpart'⟩ := hpart.succ_or_eq hq
      · exact hbranch ⟨d, hd, hdiff.symm⟩
      · exact hrest d (hstays d hd hsame) q hq' h64 hpart'
    case newForkLe => exact Nat.le_trans (hnew h).2 (hle (hnew h).1)
    case greatest =>
      obtain ⟨rfl, hdiff⟩ | ⟨hq', hsame, hpart'⟩ := hpart.succ_or_eq hq
      · obtain ⟨-, hzeros⟩ | ⟨rfl, -⟩ := hfork
        · exact absurd (hzero.trans (hzeros hzero d hd).symm) hdiff
        · exact hle (by omega)
      · exact hgreatest (hnew h).1 d (hstays d hd hsame) q hq' h64 hpart' hzero
    case recorded =>
      obtain rfl | ⟨hlast, h64, hzero, d, hd, hpart⟩ := hrecorded
      · obtain ⟨rfl, -⟩ | ⟨rfl, hzero, d, hd, hone⟩ := hfork
        · exact .inl rfl
        · exact .inr ⟨Nat.le_refl _, by omega, hzero, d, hd, fun j hj hjq => by omega, by simp [hzero, hone]⟩
      · obtain ⟨hdmem, hbit⟩ := mem_matching.mp hd
        exact .inr ⟨by omega, h64, hzero, d, hdmem, hpart.of_succ hbit.symm⟩

/-! The order of the bits as transmitted (R180). -/

/-- Distinct codes part at some position. -/
theorem exists_partAt {a b : RomCode} (h : a ≠ b) : ∃ q, 1 ≤ q ∧ q ≤ 64 ∧ PartAt 1 q a b := by
  have hdiff : ∃ q, 1 ≤ q ∧ q ≤ 64 ∧ romBit a q ≠ romBit b q := by
    by_contra hsame
    push Not at hsame
    exact h (romCode_ext hsame)
  obtain ⟨h1, h64, hq⟩ := Nat.find_spec hdiff
  refine ⟨Nat.find hdiff, h1, h64, fun j hj hjq => ?_, hq⟩
  by_contra hne
  exact Nat.find_min hdiff hjq ⟨hj, by omega, hne⟩

/-- Where one code parts from another with a 0 it comes before it. -/
theorem transmittedBefore_iff {a b : RomCode} :
    transmittedBefore a b ↔ ∃ q, 1 ≤ q ∧ q ≤ 64 ∧ PartAt 1 q a b ∧ romBit a q = false := by
  constructor
  · rintro ⟨p, h1, h64, ha, hb, hagree⟩
    exact ⟨p, h1, h64, ⟨hagree, by simp [ha, hb]⟩, ha⟩
  · rintro ⟨p, h1, h64, ⟨hagree, hdiff⟩, ha⟩
    refine ⟨p, h1, h64, ha, ?_, hagree⟩
    rw [ha] at hdiff
    exact (Bool.not_eq_false _).mp hdiff.symm

theorem PartAt.symm {pos q : Nat} {a b : RomCode} (h : PartAt pos q a b) : PartAt pos q b a :=
  ⟨fun j hj hjq => (h.1 j hj hjq).symm, h.2.symm⟩

/-- Two codes part at one position only. -/
theorem PartAt.unique {q q' : Nat} {a b : RomCode} (h : PartAt 1 q a b) (h' : PartAt 1 q' a b) (h1 : 1 ≤ q)
    (h1' : 1 ≤ q') : q = q' := by
  rcases lt_trichotomy q q' with hlt | heq | hlt
  · exact absurd (h'.1 q h1 hlt) h.2
  · exact heq
  · exact absurd (h.1 q' h1' hlt) h'.2

theorem transmittedBefore_irrefl (a : RomCode) : ¬ transmittedBefore a a := by
  rw [transmittedBefore_iff]
  rintro ⟨q, -, -, ⟨-, hdiff⟩, -⟩
  exact hdiff rfl

theorem transmittedBefore_trans {a b c : RomCode} (hab : transmittedBefore a b) (hbc : transmittedBefore b c) :
    transmittedBefore a c := by
  obtain ⟨p, h1, h64, ha, hb, hagree⟩ := hab
  obtain ⟨q, h1', h64', hb', hc, hagree'⟩ := hbc
  rcases lt_trichotomy p q with h | h | h
  · exact ⟨p, h1, h64, ha, (hagree' p h1 h).symm.trans hb,
      fun j hj hjp => (hagree j hj hjp).trans (hagree' j hj (by omega))⟩
  · subst h
    exact absurd (hb.symm.trans hb') (by simp)
  · exact ⟨q, h1', h64', (hagree q h1' h).trans hb', hc,
      fun j hj hjq => (hagree j hj (by omega)).trans (hagree' j hj hjq)⟩

/-- Where a code agrees with a second before `q`, a third parts from both alike. -/
theorem PartAt.congr_left {q q' : Nat} {a b d : RomCode} (h : PartAt 1 q a d) (hab : AgreeFrom 1 q' a b) (hq : q < q')
    (h1 : 1 ≤ q) : PartAt 1 q b d :=
  ⟨fun j hj hjq => (hab j hj (by omega)).symm.trans (h.1 j hj hjq), hab q h1 hq ▸ h.2⟩

/-! What the cursor holds between the passes. -/

/-- The fork point of a code: the last position where a device parts from it with a 1, or 0 if none does. -/
structure ForkOf (devices : List RomCode) (c : RomCode) (fork : Nat) : Prop where
  greatest : ∀ d ∈ devices, ∀ q, 1 ≤ q → q ≤ 64 → PartAt 1 q c d → romBit c q = false → q ≤ fork
  recorded : fork = 0 ∨ (1 ≤ fork ∧ fork ≤ 64 ∧ romBit c fork = false ∧ ∃ d ∈ devices, PartAt 1 fork c d)

section

variable {devices : List RomCode} {rom r c : RomCode} {fork last : Nat}

/-- A pass leaves the fork point of the code it ends at (R177). -/
theorem PassResult.forkOf (h : PassResult rom fork 1 0 devices r last) : ForkOf devices r last :=
  ⟨h.greatest Nat.one_pos, h.recorded⟩

/-- No fork point is left exactly when no device comes after the code. -/
theorem ForkOf.eq_zero_iff (h : ForkOf devices c fork) : fork = 0 ↔ ∀ d ∈ devices, ¬ transmittedBefore c d := by
  constructor
  · rintro rfl d hd hbefore
    obtain ⟨q, h1, h64, hpart, hzero⟩ := transmittedBefore_iff.mp hbefore
    have hle := h.greatest d hd q h1 h64 hpart hzero
    omega
  · intro hnone
    obtain hzero | ⟨h1, h64, hbit, d, hd, hpart⟩ := h.recorded
    · exact hzero
    · exact absurd (transmittedBefore_iff.mpr ⟨fork, h1, h64, hpart, hbit⟩) (hnone d hd)

/-- From an armed cursor a pass takes 0 at every fork, and ends at the first device (R170, R173). -/
theorem PassResult.first (h : PassResult zeroRom 65 1 0 devices r last) {d : RomCode} (hd : d ∈ devices) (hne : r ≠ d) :
    transmittedBefore r d := by
  obtain ⟨q, h1, h64, hpart⟩ := exists_partAt hne
  obtain ⟨-, -, hbit⟩ := h.branch d hd q h1 h64 hpart
  exact transmittedBefore_iff.mpr ⟨q, h1, h64, hpart, by rw [hbit (by omega), romBit_zeroRom]⟩

/-- From the cursor of a code a pass takes the code's branches up to its fork point, and 1 there (R173, R180). -/
theorem PassResult.partAt_fork (h : PassResult c fork 1 0 devices r last) (hc : c ∈ devices)
    (hf : ForkOf devices c fork) (hne : fork ≠ 0) : PartAt 1 fork c r ∧ romBit r fork = true := by
  obtain hzero | ⟨h1, h64, hbit, w, hw, hwpart⟩ := hf.recorded
  · exact absurd hzero hne
  have hagree : AgreeFrom 1 fork c r := fun j hj hjf => by
    by_contra hdiff
    have hrc : r ≠ c := fun heq => hdiff (by rw [heq])
    obtain ⟨q, hq1, hq64, hpart⟩ := exists_partAt hrc
    have hqj : q ≤ j := by
      by_contra hlt
      exact hdiff (hpart.1 j hj (by omega)).symm
    obtain ⟨-, -, hbranch⟩ := h.branch c hc q hq1 hq64 hpart
    exact hpart.2 (hbranch (by omega))
  have hone : romBit r fork = true := by
    by_contra hzero
    have hw' : PartAt 1 fork r w := by
      refine ⟨fun j hj hjf => (hagree j hj hjf).symm.trans (hwpart.1 j hj hjf), fun heq => hwpart.2 ?_⟩
      rw [hbit, ← heq]
      exact (Bool.eq_false_iff.mpr hzero).symm
    obtain ⟨-, hbranch, -⟩ := h.branch w hw fork h1 h64 hw'
    exact hzero (hbranch rfl)
  exact ⟨⟨hagree, by rw [hbit, hone]; decide⟩, hone⟩

/-- The code after it. -/
theorem PassResult.after (h : PassResult c fork 1 0 devices r last) (hc : c ∈ devices) (hf : ForkOf devices c fork)
    (hne : fork ≠ 0) : transmittedBefore c r := by
  obtain ⟨hpart, hone⟩ := h.partAt_fork hc hf hne
  obtain hzero | ⟨h1, h64, hbit, -⟩ := hf.recorded
  · exact absurd hzero hne
  · exact transmittedBefore_iff.mpr ⟨fork, h1, h64, hpart, hbit⟩

/-- And the next: no device lies between them (R180). -/
theorem PassResult.next (h : PassResult c fork 1 0 devices r last) (hc : c ∈ devices) (hf : ForkOf devices c fork)
    (hne : fork ≠ 0) {d : RomCode} (hd : d ∈ devices) (hcd : transmittedBefore c d) (hrd : r ≠ d) :
    transmittedBefore r d := by
  obtain ⟨hcr, hone⟩ := h.partAt_fork hc hf hne
  have h1 : 1 ≤ fork := Nat.one_le_iff_ne_zero.mpr hne
  obtain ⟨p, hp1, hp64, hcdpart, hczero⟩ := transmittedBefore_iff.mp hcd
  have hple : p ≤ fork := hf.greatest d hd p hp1 hp64 hcdpart hczero
  obtain ⟨q, hq1, hq64, hpart⟩ := exists_partAt hrd
  obtain ⟨hpast, hat, hbefore⟩ := h.branch d hd q hq1 hq64 hpart
  refine transmittedBefore_iff.mpr ⟨q, hq1, hq64, hpart, ?_⟩
  rcases lt_trichotomy q fork with hlt | rfl | hgt
  · have hqp : p = q := hcdpart.unique (hpart.congr_left (fun j hj hjf => (hcr.1 j hj hjf).symm) hlt hq1) hp1 hq1
    rw [hbefore hlt, ← hqp, hczero]
  · rcases Nat.eq_or_lt_of_le hple with rfl | hlt
    · have hdone : romBit d p = true := (Bool.not_eq_false _).mp (hczero ▸ hcdpart.2.symm)
      exact absurd (hone.trans hdone.symm) hpart.2
    · exact absurd ((hcdpart.congr_left hcr.1 hlt hp1).unique hpart hp1 hq1) (by omega)
  · exact hpast hgt

end

end Sys2Proof.Machine

/-! Enumeration (R180, R181): `search_next` on a bus of ideal devices, once and again and again. -/

namespace Sys2Proof.Machine

open Sys2Proof.Terms

theorem codeBits_eq_bitsFrom (r : RomCode) : codeBits r = bitsFrom r 1 64 :=
  List.map_congr_left fun k _ => by rw [Nat.add_comm]

theorem codeBits_injective {a b : RomCode} (h : codeBits a = codeBits b) : a = b :=
  romCode_ext fun p h1 h64 => by
    have hbit := codeBits_getElem? a h1 h64
    rw [h, codeBits_getElem? b h1 h64] at hbit
    exact (Option.some.inj hbit).symm

section

variable {devices : List RomCode} {s : State}

/-- On a bus of ideal devices `search_next` returns the code that the pass over the devices ends at (R177, R180). -/
theorem searchNext_devices (hready : Ready s) (hinit : s.regs.initialized = true) (hf : s.regs.forkBit ≠ 0)
    (hne : devices ≠ []) (hbus : AnswersAsDevices devices s) :
    ∃ r last, PassResult s.regs.rom s.regs.forkBit.val 1 0 devices r last.val ∧
      EndsIn s .searchNext { s.regs with rom := r, forkBit := last, rdata := pack r, status := .ok } := by
  obtain ⟨rise, fall, hline, hpairs⟩ := hbus
  obtain ⟨regs, hends, hcommitted, -⟩ := searchNext_endsIn hready hinit hf hline
  obtain ⟨r, last, hover, hresult⟩ := passOver_devicePairs s.regs.rom s.regs.forkBit.val 64 (newFork := 0) hne rfl
  rw [← hpairs, ← codeBits_eq_bitsFrom] at hover
  obtain ⟨hbits, hlast, hregs⟩ := hcommitted _ _ hover
  have hrom : regs.rom = r := codeBits_injective hbits
  rw [hrom] at hregs
  rw [hregs] at hends
  exact ⟨r, regs.forkBit, hlast ▸ hresult, hends⟩

/-- Settles O43: the pass ends at the one device, after which no other comes. -/
theorem singleDeviceIsFoundAtOnce : Obligations.SingleDeviceIsFoundAtOnce := by
  unfold Obligations.SingleDeviceIsFoundAtOnce
  intro device s hready hinit hf hbus
  obtain ⟨r, last, hresult, t, hx, hregs, hcfg, hidle, hpulse⟩ :=
    searchNext_devices hready hinit hf (List.cons_ne_nil _ _) hbus
  obtain rfl := List.mem_singleton.mp hresult.isDevice
  have hlast : last = 0 := Fin.ext <| hresult.forkOf.eq_zero_iff.mpr fun d hd => by
    rw [List.mem_singleton.mp hd]
    exact transmittedBefore_irrefl r
  rw [hlast] at hregs
  have hfork : t.regs.forkBit = 0 := by rw [hregs]
  refine ⟨t, hx, hregs, ?_⟩
  rw [exec_searchNext_of_forkBit_eq_zero (hcfg ▸ hready.config) hfork, endOperation, ← hidle, ← hpulse]

/-! The calls one after another. -/

/-- Some calls of `search_next` from an armed cursor have returned these codes: each a device, in order, none left out
before or between them; the cursor is still armed or holds the last of them with its fork point. -/
structure Enumerated (devices : List RomCode) (s : State) (found : List RomCode) : Prop where
  ready : Ready s
  initialized : s.regs.initialized = true
  ascending : found.Pairwise transmittedBefore
  areDevices : ∀ c ∈ found, c ∈ devices
  later : ∀ d ∈ devices, d ∉ found → ∀ c ∈ found, transmittedBefore c d
  cursor : (found = [] ∧ s.regs.rom = zeroRom ∧ s.regs.forkBit = 65) ∨
    (s.regs.rom ∈ found ∧ (∀ c ∈ found, c = s.regs.rom ∨ transmittedBefore c s.regs.rom) ∧
      ForkOf devices s.regs.rom s.regs.forkBit.val)

variable {found : List RomCode}

/-- Distinct codes. -/
theorem Enumerated.nodup (h : Enumerated devices s found) : found.Nodup :=
  List.Pairwise.imp (S := (· ≠ ·)) (by rintro a _ hbefore rfl; exact transmittedBefore_irrefl a hbefore) h.ascending

/-- With no fork point left every device has been found. -/
theorem Enumerated.complete (h : Enumerated devices s found) (hf : s.regs.forkBit = 0) : ∀ d ∈ devices, d ∈ found := by
  intro d hd
  obtain ⟨-, -, h65⟩ | ⟨hmem, -, hfork⟩ := h.cursor
  · rw [hf] at h65
    exact absurd (congrArg Fin.val h65) (by decide)
  · by_contra hnot
    exact hfork.eq_zero_iff.mp (congrArg Fin.val hf) d hd (h.later d hd hnot _ hmem)

/-- With every device found no fork point is left. -/
theorem Enumerated.forkBit_eq_zero (h : Enumerated devices s found) (hne : devices ≠ [])
    (hall : ∀ d ∈ devices, d ∈ found) : s.regs.forkBit = 0 := by
  obtain ⟨rfl, -, -⟩ | ⟨-, hlast, hfork⟩ := h.cursor
  · obtain ⟨d, hd⟩ := List.exists_mem_of_ne_nil devices hne
    exact absurd (hall d hd) List.not_mem_nil
  · refine Fin.ext (hfork.eq_zero_iff.mpr fun d hd hbefore => ?_)
    obtain rfl | hd' := hlast d (hall d hd)
    · exact transmittedBefore_irrefl _ hbefore
    · exact transmittedBefore_irrefl _ (transmittedBefore_trans hbefore hd')

/-- The pass ends at a code after all that were found. -/
theorem Enumerated.before_result (h : Enumerated devices s found) (hf : s.regs.forkBit ≠ 0) {r : RomCode} {last : Nat}
    (hresult : PassResult s.regs.rom s.regs.forkBit.val 1 0 devices r last) :
    ∀ c ∈ found, transmittedBefore c r := by
  intro c hc
  obtain ⟨rfl, -, -⟩ | ⟨hmem, hlast, hfork⟩ := h.cursor
  · exact absurd hc List.not_mem_nil
  · have hafter := hresult.after (h.areDevices _ hmem) hfork fun h0 => hf (Fin.ext h0)
    obtain rfl | hbefore := hlast c hc
    · exact hafter
    · exact transmittedBefore_trans hbefore hafter

/-- And before all that are left. -/
theorem Enumerated.result_before (h : Enumerated devices s found) (hf : s.regs.forkBit ≠ 0) {r : RomCode} {last : Nat}
    (hresult : PassResult s.regs.rom s.regs.forkBit.val 1 0 devices r last) {d : RomCode} (hd : d ∈ devices)
    (hnot : d ∉ found) (hrd : r ≠ d) : transmittedBefore r d := by
  obtain ⟨rfl, hzero, h65⟩ | ⟨hmem, -, hfork⟩ := h.cursor
  · rw [hzero, h65] at hresult
    exact hresult.first hd hrd
  · exact hresult.next (h.areDevices _ hmem) hfork (fun h0 => hf (Fin.ext h0)) hd (h.later d hd hnot _ hmem) hrd

/-- One more call finds one more device (R180). -/
theorem Enumerated.searchNext (h : Enumerated devices s found) (hne : devices ≠ []) (hf : s.regs.forkBit ≠ 0)
    (hbus : AnswersAsDevices devices s) :
    ∃ t, exec .searchNext s = .next t ∧ Enumerated devices t (found ++ [t.regs.rom]) ∧ t.regs.status = .ok ∧
      t.regs.rdata = pack t.regs.rom := by
  obtain ⟨r, last, hresult, t, hx, hregs, hcfg, -⟩ := searchNext_devices h.ready h.initialized hf hne hbus
  obtain ⟨hreleased, hclosed⟩ := exec_atRest (s := s) ⟨h.ready.released, h.ready.closed⟩ hx
  have hbefore := h.before_result hf hresult
  refine ⟨t, hx, ?_, by rw [hregs], by rw [hregs]⟩
  rw [hregs]
  refine ⟨⟨hcfg ▸ h.ready.config, hreleased, hclosed⟩, by rw [hregs]; exact h.initialized, ?_, ?_, ?_, .inr ?_⟩
  · rw [List.pairwise_append]
    exact ⟨h.ascending, List.pairwise_singleton _ _, fun c hc d hd => List.mem_singleton.mp hd ▸ hbefore c hc⟩
  · intro c hc
    obtain hc | hc := List.mem_append.mp hc
    · exact h.areDevices c hc
    · exact List.mem_singleton.mp hc ▸ hresult.isDevice
  · intro d hd hnot c hc
    rw [List.mem_append, not_or, List.mem_singleton] at hnot
    obtain hc | hc := List.mem_append.mp hc
    · exact h.later d hd hnot.1 c hc
    · exact List.mem_singleton.mp hc ▸ h.result_before hf hresult hd hnot.1 (Ne.symm hnot.2)
  · rw [hregs]
    refine ⟨List.mem_append_right _ (List.mem_singleton_self r), fun c hc => ?_, hresult.forkOf⟩
    obtain hc | hc := List.mem_append.mp hc
    · exact .inr (hbefore c hc)
    · exact .inl (List.mem_singleton.mp hc)

/-- A call that answers is the next of the calls. -/
theorem afterSearches_succ {k : Nat} {t : State} (h : exec .searchNext (afterSearches k s) = .next t) :
    afterSearches (k + 1) s = t := by
  simp only [afterSearches, h]

/-- Under good parameters every call answers. -/
theorem exec_afterSearches (hwf : s.cfg.wf = true) (k : Nat) :
    (afterSearches k s).cfg = s.cfg ∧ exec .searchNext (afterSearches k s) = .next (afterSearches (k + 1) s) := by
  have hanswers : ∀ k, (afterSearches k s).cfg = s.cfg →
      exec .searchNext (afterSearches k s) = .next (afterSearches (k + 1) s) := fun k hcfg => by
    obtain ⟨t, ht⟩ := everyInstructionEnds .searchNext (afterSearches k s) (hcfg ▸ hwf)
    rw [afterSearches_succ ht, ht]
  induction k with
  | zero => exact ⟨rfl, hanswers 0 rfl⟩
  | succ k ih =>
    have hcfg : (afterSearches (k + 1) s).cfg = s.cfg := by
      obtain ⟨e, ht⟩ | ⟨e, ht⟩ := exec_searchNext_cases ih.2 <;> rw [ht] <;> exact ih.1
    exact ⟨hcfg, hanswers _ hcfg⟩

/-- The codes returned by the first `k` calls. -/
def codesFound (s : State) (k : Nat) : List RomCode := (List.range k).map fun j => (afterSearches (j + 1) s).regs.rom

theorem codesFound_succ (s : State) (k : Nat) :
    codesFound s (k + 1) = codesFound s k ++ [(afterSearches (k + 1) s).regs.rom] := by
  rw [codesFound, List.range_succ, List.map_append]
  rfl

theorem codesFound_length (s : State) (k : Nat) : (codesFound s k).length = k := by simp [codesFound]

/-- Before as many calls as there are devices a fork point is left. -/
theorem Enumerated.forkBit_ne_zero {k : Nat} (h : Enumerated devices (afterSearches k s) (codesFound s k))
    (hnodup : devices.Nodup) (hk : k < devices.length) : (afterSearches k s).regs.forkBit ≠ 0 := fun hf => by
  have hle := (hnodup.subperm (h.complete hf)).length_le
  rw [codesFound_length] at hle
  omega

/-- As long as the bus answers as the devices do, each call finds the next. -/
theorem enumerated_afterSearches (hne : devices ≠ []) (hnodup : devices.Nodup)
    (hbus : ∀ k, k < devices.length → AnswersAsDevices devices (afterSearches k s)) (h0 : Enumerated devices s [])
    (k : Nat) (hk : k ≤ devices.length) : Enumerated devices (afterSearches k s) (codesFound s k) := by
  induction k with
  | zero => exact h0
  | succ k ih =>
    have h := ih (by omega)
    obtain ⟨t, hx, ht, -⟩ := h.searchNext hne (h.forkBit_ne_zero hnodup hk) (hbus k hk)
    rw [codesFound_succ, afterSearches_succ hx]
    exact ht

end

/-- Settles O42: as many calls as there are devices find distinct devices in order, so all of them; no fork point is
left, and with none nothing happens any more. -/
theorem enumerationFindsEveryDeviceInOrder : Obligations.EnumerationFindsEveryDeviceInOrder := by
  unfold Obligations.EnumerationFindsEveryDeviceInOrder
  intro devices s hne hnodup hready hinit hrom hfork hbus
  have h0 : Enumerated devices s [] := ⟨hready, hinit, .nil, by simp, by simp, .inl ⟨rfl, hrom, hfork⟩⟩
  have hfound := enumerated_afterSearches hne hnodup hbus h0
  have hcalls := fun k => (exec_afterSearches hready.config k).2
  have hall := hfound devices.length (Nat.le_refl _)
  have hperm : (codesFound s devices.length).Perm devices :=
    (hall.nodup.subperm hall.areDevices).perm_of_length_le (by rw [codesFound_length])
  have hzero : (afterSearches devices.length s).regs.forkBit = 0 :=
    hall.forkBit_eq_zero hne fun d hd => hperm.mem_iff.mpr hd
  have hafter : ∀ k, (afterSearches k s).regs.forkBit = 0 →
      afterSearches (k + 1) s = endOperation .noneReturned (afterSearches k s) := fun k hk =>
    afterSearches_succ (exec_searchNext_of_forkBit_eq_zero
      ((exec_afterSearches hready.config k).1 ▸ hready.config) hk)
  refine ⟨hperm, hall.ascending, hcalls, fun k hk => ?returned, hzero, fun k hk => ?nothing⟩
  case returned =>
    have h := hfound k (by omega)
    obtain ⟨t, hx, -, hok, hdata⟩ := h.searchNext hne (h.forkBit_ne_zero hnodup hk) (hbus k hk)
    rw [afterSearches_succ hx]
    exact ⟨hok, hdata⟩
  case nothing =>
    have hk0 : (afterSearches k s).regs.forkBit = 0 := by
      induction k, hk using Nat.le_induction with
      | base => exact hzero
      | succ k _ ih => rw [hafter k ih, endOperation_regs]; exact ih
    rw [hafter k hk0]
    exact ⟨rfl, rfl⟩

end Sys2Proof.Machine

/-! What one event of the sequencer does (R33), said once: it goes on inside its primitive, or the primitive ends with
`CritExit` and the operation's rule says what comes after. -/

namespace Sys2Proof.Machine

/-- An event inside a primitive: the phase after it and the engine. -/
inductive Inside (c : Config) (e : Engine) : Phase → Phase → Engine → Prop
  | reset {p p' e'} : resetPoint c p e = (e', .ok p') → Inside c e (.reset p) (.reset p') e'
  | command {p p' e'} : writePoint c (e.tr.shift.getLsbD 0) p e = (e', some p') →
      Inside c e (.command p) (.command p') e'
  | payload {p p' e'} : writePoint c (e.tr.shift.getLsbD 0) p e = (e', some p') →
      Inside c e (.payload p) (.payload p') e'
  | receive {p p' e'} : readPoint c p e = (e', some p') → Inside c e (.receive p) (.receive p') e'
  | pairTrue {p p' e'} : readPoint c p e = (e', some p') → Inside c e (.pairTrue p) (.pairTrue p') e'
  | pairComp {p p' e'} : readPoint c p e = (e', some p') → Inside c e (.pairComp p) (.pairComp p') e'
  | answer {p p' e'} : writePoint c e.tr.chosen p e = (e', some p') → Inside c e (.answer p) (.answer p') e'

/-- The command byte an operation sends after its bus reset, and its outcome if the reset fails (R150, R171). -/
def afterResetPlan : HostOp → Option (Byte × Status)
  | .skipRom => some (wireSkipRom, .noResponse)
  | .readRom => some (wireReadRom, .noResponse)
  | .matchRom => some (wireMatchRom, .noResponse)
  | .searchNext => some (wireSearchRom, .noneReturned)
  | .init | .reset | .sendByte | .readByte | .searchInit => none

/-- The state goes on with a further primitive, its engine updated and the gap passed (R136). -/
def proceed (op : HostOp) (phase : Phase) (e : Engine) (s : State) : State :=
  goOn op phase { s with eng := gap s.cfg e }

/-- What comes after a primitive, from the state that its `CritExit` leaves. -/
inductive After (s : State) : HostOp → Phase → State → Prop
  | reset (r : ResetResult) : After s .reset (.reset (.critExit r)) (endOperation r.status s)
  | resetFailed {op byte failed} {r : ResetResult} : afterResetPlan op = some (byte, failed) → r ≠ .ok →
      After s op (.reset (.critExit r)) (endOperation failed s)
  | resetOk {op byte failed} : afterResetPlan op = some (byte, failed) →
      After s op (.reset (.critExit .ok)) (proceed op (.command .critEnter) (loadShift byte s.eng) s)
  | commandBit {op} : hasPhase op (.command .critExit) = true → s.eng.tr.bitcnt + 1 < 8 →
      After s op (.command .critExit) (proceed op (.command .critEnter) (shiftOut s.eng) s)
  | commandSent {op} : op = .sendByte ∨ op = .skipRom →
      After s op (.command .critExit) (endOperation .ok { s with eng := shiftOut s.eng })
  | readRom : After s .readRom (.command .critExit)
      (proceed .readRom (.receive .critEnter) (loadShift 0 (startReadRom (shiftOut s.eng))) s)
  | matchRom : After s .matchRom (.command .critExit)
      (proceed .matchRom (.payload .critEnter)
        (loadShift ((unpack s.eng.tr.argReg).getD 0 0) (startMatch (shiftOut s.eng))) s)
  | search : After s .searchNext (.command .critExit)
      (proceed .searchNext (.pairTrue .critEnter) (startPosition s.regs.rom 1 (startPass (shiftOut s.eng))) s)
  | payloadBit : s.eng.tr.bitcnt + 1 < 8 →
      After s .matchRom (.payload .critExit) (proceed .matchRom (.payload .critEnter) (shiftOut s.eng) s)
  | payloadByte : s.eng.tr.bytecnt + 1 < 8 →
      After s .matchRom (.payload .critExit) (proceed .matchRom (.payload .critEnter)
        (loadShift ((unpack s.eng.tr.argReg).getD (s.eng.tr.bytecnt + 1) 0) (countByte (shiftOut s.eng))) s)
  | payloadSent :
      After s .matchRom (.payload .critExit) (endOperation .ok { s with eng := countByte (shiftOut s.eng) })
  | receiveBit {op} : hasPhase op (.receive .critExit) = true → s.eng.tr.bitcnt + 1 < 8 →
      After s op (.receive .critExit) (proceed op (.receive .critEnter) (shiftIn s.eng) s)
  | byteRead : After s .readByte (.receive .critExit) (endOperation .ok { s with
      eng := shiftIn s.eng
      regs := { s.regs with rdata := (shiftIn s.eng).tr.shift.setWidth 64 } })
  | receiveByte : s.eng.tr.bytecnt + 1 < 8 →
      After s .readRom (.receive .critExit)
        (proceed .readRom (.receive .critEnter) (loadShift 0 (takeByte (shiftIn s.eng))) s)
  | romRead : After s .readRom (.receive .critExit) (finishReadRom { s with eng := takeByte (shiftIn s.eng) })
  | pairTrue : After s .searchNext (.pairTrue .critExit)
      (proceed .searchNext (.pairComp .critEnter) (takeTrue s.eng) s)
  | aborted : After s .searchNext (.pairComp .critExit)
      (endOperation .noneReturned { s with eng := takeComp s.eng })
  | decided {d} : decidePosition s.regs.forkBit (takeComp s.eng) = some d →
      After s .searchNext (.pairComp .critExit)
        (proceed .searchNext (.answer .critEnter) (takeDecision d (takeComp s.eng)) s)
  | answered : s.eng.tr.pos < 64 →
      After s .searchNext (.answer .critExit) (proceed .searchNext (.pairTrue .critEnter)
        (startPosition s.regs.rom (s.eng.tr.pos + 1) (storeChosen s.eng)) s)
  | committed : 64 ≤ s.eng.tr.pos →
      After s .searchNext (.answer .critExit) (commitPass { s with eng := storeChosen s.eng })

/-- A step of the sequencer in an operation, the delay before it run down. -/
inductive Moves (s : State) : HostOp → Phase → State → Prop
  | configure : Moves s .init .configure (configureLine s.eng.tr.argReg s)
  | inside {op phase phase' e} : hasPhase op phase' = true → Inside s.cfg s.eng phase phase' e →
      Moves s op phase (goOn op phase' { s with eng := e })
  | after {op phase t} : After { s with eng := critExit s.cfg s.eng } op phase t → Moves s op phase t

section

variable {s : State} {op : HostOp}

/-! The points of a primitive: an event inside it, or its end. -/

theorem writeEvent_cases (op : HostOp) (bit : Bool) (p : WritePoint) (wrap : WritePoint → Phase)
    (andThen : HostOp → State → Host.Outcome State Fault Refusal) (s : State) :
    (∃ p' e, writePoint s.cfg bit p s.eng = (e, some p') ∧
        writeEvent op bit p wrap andThen s = .next (goOn op (wrap p') { s with eng := e })) ∨
      (p = .critExit ∧ writeEvent op bit p wrap andThen s = andThen op { s with eng := critExit s.cfg s.eng }) := by
  cases p
  case critExit => exact .inr ⟨rfl, rfl⟩
  all_goals exact .inl ⟨_, _, rfl, rfl⟩

theorem readEvent_cases (op : HostOp) (p : ReadPoint) (wrap : ReadPoint → Phase)
    (andThen : HostOp → State → Host.Outcome State Fault Refusal) (s : State) :
    (∃ p' e, readPoint s.cfg p s.eng = (e, some p') ∧
        readEvent op p wrap andThen s = .next (goOn op (wrap p') { s with eng := e })) ∨
      (p = .critExit ∧ readEvent op p wrap andThen s = andThen op { s with eng := critExit s.cfg s.eng }) := by
  cases p
  case critExit => exact .inr ⟨rfl, rfl⟩
  all_goals exact .inl ⟨_, _, rfl, rfl⟩

theorem resetPoint_cases (c : Config) (p : ResetPoint) (e : Engine) :
    (∃ p' e', resetPoint c p e = (e', .ok p')) ∨
      ∃ r, p = .critExit r ∧ resetPoint c p e = (critExit c e, .error r) := by
  cases p
  case critExit r => exact .inr ⟨r, rfl, rfl⟩
  case riseSample =>
    refine .inl ?_
    simp only [resetPoint]
    split <;> exact ⟨_, _, rfl⟩
  all_goals exact .inl ⟨_, _, rfl⟩

/-! What comes after each kind of primitive. -/

theorem afterResetResult_after (hown : hasPhase op (.reset .critEnter) = true) (r : ResetResult) :
    ∃ t, afterResetResult op r s = .next t ∧ After s op (.reset (.critExit r)) t := by
  cases op
  case reset => exact ⟨_, rfl, .reset r⟩
  case skipRom | readRom | matchRom | searchNext =>
    cases r
    case ok => exact ⟨_, rfl, .resetOk rfl⟩
    case busBusy | timeout => exact ⟨_, rfl, .resetFailed rfl nofun⟩
  all_goals cases hown

theorem afterCommandByte_after (hown : hasPhase op (.command .critExit) = true) :
    ∃ t, afterCommandByte op { s with eng := shiftOut s.eng } = .next t ∧ After s op (.command .critExit) t := by
  cases op
  case sendByte => exact ⟨_, rfl, .commandSent (.inl rfl)⟩
  case skipRom => exact ⟨_, rfl, .commandSent (.inr rfl)⟩
  case readRom => exact ⟨_, rfl, .readRom⟩
  case matchRom => exact ⟨_, rfl, .matchRom⟩
  case searchNext => exact ⟨_, rfl, .search⟩
  all_goals cases hown

theorem afterCommandBit_after (hown : hasPhase op (.command .critExit) = true) :
    ∃ t, afterCommandBit op s = .next t ∧ After s op (.command .critExit) t := by
  by_cases h : s.eng.tr.bitcnt + 1 < 8
  · exact ⟨_, if_pos h, .commandBit hown h⟩
  · obtain ⟨t, ht, hafter⟩ := afterCommandByte_after hown
    exact ⟨t, (if_neg h).trans ht, hafter⟩

theorem afterPayloadBit_after (hown : hasPhase op (.payload .critExit) = true) :
    ∃ t, afterPayloadBit op s = .next t ∧ After s op (.payload .critExit) t := by
  cases op
  case matchRom =>
    by_cases hbit : s.eng.tr.bitcnt + 1 < 8
    · exact ⟨_, if_pos hbit, .payloadBit hbit⟩
    · by_cases hbyte : s.eng.tr.bytecnt + 1 < 8
      · exact ⟨_, (if_neg hbit).trans (if_pos hbyte), .payloadByte hbyte⟩
      · exact ⟨_, (if_neg hbit).trans (if_neg hbyte), .payloadSent⟩
  all_goals cases hown

theorem afterReceivedByte_after (hown : hasPhase op (.receive .critExit) = true) :
    ∃ t, afterReceivedByte op { s with eng := shiftIn s.eng } = .next t ∧ After s op (.receive .critExit) t := by
  cases op
  case readByte => exact ⟨_, rfl, .byteRead⟩
  case readRom =>
    by_cases h : s.eng.tr.bytecnt + 1 < 8
    · exact ⟨_, if_pos h, .receiveByte h⟩
    · exact ⟨_, if_neg h, .romRead⟩
  all_goals cases hown

theorem afterReceivedBit_after (hown : hasPhase op (.receive .critExit) = true) :
    ∃ t, afterReceivedBit op s = .next t ∧ After s op (.receive .critExit) t := by
  by_cases h : s.eng.tr.bitcnt + 1 < 8
  · exact ⟨_, if_pos h, .receiveBit hown h⟩
  · obtain ⟨t, ht, hafter⟩ := afterReceivedByte_after hown
    exact ⟨t, (if_neg h).trans ht, hafter⟩

theorem afterPair_after (s : State) :
    ∃ t, afterPair .searchNext s = .next t ∧ After s .searchNext (.pairComp .critExit) t := by
  simp only [afterPair]
  split
  · exact ⟨_, rfl, .aborted⟩
  · exact ⟨_, rfl, .decided ‹_›⟩

theorem afterAnswer_after (s : State) :
    ∃ t, afterAnswer .searchNext s = .next t ∧ After s .searchNext (.answer .critExit) t := by
  by_cases h : s.eng.tr.pos < 64
  · exact ⟨_, if_pos h, .answered h⟩
  · exact ⟨_, if_neg h, .committed (Nat.le_of_not_lt h)⟩

/-- The rule of an operation has all points of a primitive or none (R84). -/
theorem hasPhase_congr (op : HostOp) :
    (∀ p p', hasPhase op (.reset p) = hasPhase op (.reset p')) ∧
    (∀ p p', hasPhase op (.command p) = hasPhase op (.command p')) ∧
    (∀ p p', hasPhase op (.payload p) = hasPhase op (.payload p')) ∧
    (∀ p p', hasPhase op (.receive p) = hasPhase op (.receive p')) := by
  cases op <;> exact ⟨fun _ _ => rfl, fun _ _ => rfl, fun _ _ => rfl, fun _ _ => rfl⟩

/-- Only the search has the phases of a position (R172). -/
theorem eq_searchNext_of_hasPhase :
    (∀ p, hasPhase op (.pairTrue p) = true → op = .searchNext) ∧
    (∀ p, hasPhase op (.pairComp p) = true → op = .searchNext) ∧
    (∀ p, hasPhase op (.answer p) = true → op = .searchNext) := by
  cases op <;> simp [hasPhase]

/-- In a phase of its own an operation takes its event, and what that does is listed (R33). -/
theorem phaseEvent_moves {phase : Phase} (hown : hasPhase op phase = true) :
    ∃ t, phaseEvent op phase s = .next t ∧ Moves s op phase t := by
  obtain ⟨hreset, hcommand, hpayload, hreceive⟩ := hasPhase_congr op
  obtain ⟨htrue, hcomp, hanswer⟩ := eq_searchNext_of_hasPhase (op := op)
  cases phase
  case configure =>
    cases op
    case init => exact ⟨_, rfl, .configure⟩
    all_goals cases hown
  case reset p =>
    simp only [phaseEvent]
    obtain ⟨p', e, he⟩ | ⟨r, rfl, he⟩ := resetPoint_cases s.cfg p s.eng
    · rw [he]
      exact ⟨_, rfl, .inside (hreset p p' ▸ hown) (.reset he)⟩
    · rw [he]
      obtain ⟨t, ht, hafter⟩ := afterResetResult_after (s := { s with eng := critExit s.cfg s.eng })
        (hreset (.critExit r) .critEnter ▸ hown) r
      exact ⟨t, ht, .after hafter⟩
  case command p =>
    obtain ⟨p', e, he, hx⟩ | ⟨rfl, hx⟩ :=
      writeEvent_cases op (s.eng.tr.shift.getLsbD 0) p .command afterCommandBit s
    · exact ⟨_, hx, .inside (hcommand p p' ▸ hown) (.command he)⟩
    · obtain ⟨t, ht, hafter⟩ := afterCommandBit_after (s := { s with eng := critExit s.cfg s.eng }) hown
      exact ⟨t, hx.trans ht, .after hafter⟩
  case payload p =>
    obtain ⟨p', e, he, hx⟩ | ⟨rfl, hx⟩ :=
      writeEvent_cases op (s.eng.tr.shift.getLsbD 0) p .payload afterPayloadBit s
    · exact ⟨_, hx, .inside (hpayload p p' ▸ hown) (.payload he)⟩
    · obtain ⟨t, ht, hafter⟩ := afterPayloadBit_after (s := { s with eng := critExit s.cfg s.eng }) hown
      exact ⟨t, hx.trans ht, .after hafter⟩
  case receive p =>
    obtain ⟨p', e, he, hx⟩ | ⟨rfl, hx⟩ := readEvent_cases op p .receive afterReceivedBit s
    · exact ⟨_, hx, .inside (hreceive p p' ▸ hown) (.receive he)⟩
    · obtain ⟨t, ht, hafter⟩ := afterReceivedBit_after (s := { s with eng := critExit s.cfg s.eng }) hown
      exact ⟨t, hx.trans ht, .after hafter⟩
  case pairTrue p =>
    obtain rfl := htrue p hown
    obtain ⟨p', e, he, hx⟩ | ⟨rfl, hx⟩ := readEvent_cases .searchNext p .pairTrue afterTrue s
    · exact ⟨_, hx, .inside rfl (.pairTrue he)⟩
    · exact ⟨_, hx, .after .pairTrue⟩
  case pairComp p =>
    obtain rfl := hcomp p hown
    obtain ⟨p', e, he, hx⟩ | ⟨rfl, hx⟩ := readEvent_cases .searchNext p .pairComp afterPair s
    · exact ⟨_, hx, .inside rfl (.pairComp he)⟩
    · obtain ⟨t, ht, hafter⟩ := afterPair_after { s with eng := critExit s.cfg s.eng }
      exact ⟨t, hx.trans ht, .after hafter⟩
  case answer p =>
    obtain rfl := hanswer p hown
    obtain ⟨p', e, he, hx⟩ | ⟨rfl, hx⟩ := writeEvent_cases .searchNext s.eng.tr.chosen p .answer afterAnswer s
    · exact ⟨_, hx, .inside rfl (.answer he)⟩
    · obtain ⟨t, ht, hafter⟩ := afterAnswer_after { s with eng := critExit s.cfg s.eng }
      exact ⟨t, hx.trans ht, .after hafter⟩

/-- One step of a busy block: a tick of a running delay or a move (R33, R218). -/
theorem sequencerStep_moves {phase : Phase} (hseq : s.seq = .busy op phase) (hwf : s.cfg.wf = true)
    (hown : hasPhase op phase = true) :
    ∃ t, sequencerStep s = .next t ∧ ((0 < s.eng.tr.timer ∧ t = { s with eng := tick s.eng }) ∨
      (s.eng.tr.timer = 0 ∧ Moves s op phase t)) := by
  simp only [sequencerStep, hseq, hwf, hown, Bool.not_true, Bool.false_eq_true, if_false]
  by_cases htimer : 0 < s.eng.tr.timer
  · rw [if_pos htimer]
    exact ⟨_, rfl, .inl ⟨htimer, rfl⟩⟩
  · rw [if_neg htimer]
    obtain ⟨t, ht, hmoves⟩ := phaseEvent_moves (s := s) hown
    exact ⟨t, ht, .inr ⟨by omega, hmoves⟩⟩

end

/-! What a step does to the registers: nothing until the operation completes (R33). -/

/-- The operation goes on, or it completes and the initialised mode, once entered, stays (R26). -/
def GoesOnOrEnds (op : HostOp) (s t : State) : Prop :=
  (∃ phase e, t = goOn op phase { s with eng := e }) ∨
    ∃ st e regs, t = endOperation st { s with eng := e, regs := regs } ∧
      (s.regs.initialized = true → regs.initialized = true)

theorem After.goesOnOrEnds {s t : State} {op : HostOp} {phase : Phase} (h : After s op phase t) :
    GoesOnOrEnds op s t := by
  cases h
  case reset | resetFailed | commandSent | payloadSent | aborted => exact .inr ⟨_, _, s.regs, rfl, id⟩
  case byteRead | romRead | committed => exact .inr ⟨_, _, _, rfl, id⟩
  all_goals exact .inl ⟨_, _, rfl⟩

theorem Moves.goesOnOrEnds {s t : State} {op : HostOp} {phase : Phase} (h : Moves s op phase t) :
    GoesOnOrEnds op s t := by
  cases h
  case configure =>
    exact configureLine_of (.inr ⟨_, _, _, rfl, fun _ => rfl⟩) (.inr ⟨_, _, s.regs, rfl, id⟩)
  case inside => exact .inl ⟨_, _, rfl⟩
  case after hafter =>
    obtain ⟨phase, e, rfl⟩ | ⟨st, e, regs, rfl, hregs⟩ := hafter.goesOnOrEnds
    · exact .inl ⟨_, _, rfl⟩
    · exact .inr ⟨_, _, _, rfl, hregs⟩

/-- What a step does in an idle block, but for the power-on reset: with the pulse gone the state stays as it is but for
an input used up, or an instruction runs, or a command begins (R31, R33). -/
theorem step_idle_work {s t : State} (h : step s = .next t) (hrst : ∀ rest, s.host ≠ .rst :: rest) (hseq : s.seq = .idle) :
    ∃ s', (t = s' ∨ (∃ i, exec i s' = .next t) ∨ ∃ i, startCommand i s' = .next t) ∧
      s'.regs = s.regs ∧ s'.seq = .idle ∧ s'.rspValid = false := by
  obtain ⟨cfg, regs, eng, seq, rspValid, host, inner⟩ := s
  cases hseq
  cases inner with
  | none =>
    obtain ⟨rest, hhost, -⟩ | ⟨w, rest, -, -, hx⟩ | ⟨w, rest, -, -, hx⟩ | ⟨rest, -, -, rfl⟩ | ⟨-, -, rfl⟩ |
      ⟨_, _, _, _, hbusy, -⟩ | ⟨_, _, _, hbusy, -⟩ := step_cases rfl h
    · exact absurd hhost (hrst rest)
    · exact ⟨_, .inr (.inl ⟨_, hx⟩), rfl, rfl, rfl⟩
    · exact ⟨_, .inr (.inr ⟨_, hx⟩), rfl, rfl, rfl⟩
    · exact ⟨_, .inl rfl, rfl, rfl, rfl⟩
    · exact ⟨_, .inl rfl, rfl, rfl, rfl⟩
    all_goals cases hbusy
  | some tw =>
    simp only [step, fetch] at h
    cases hdecode : decode tw with
    | ok i =>
      rw [hdecode] at h
      exact ⟨_, .inr (.inl ⟨i, h⟩), rfl, rfl, rfl⟩
    | error err =>
      cases err
      rw [hdecode] at h
      cases h

/-- What a step does in a busy block, but for the power-on reset: with the pulse gone an input is used up, or the
sequencer takes a step (R31 to R33). -/
theorem step_busy_work {s t : State} (h : step s = .next t) (hrst : ∀ rest, s.host ≠ .rst :: rest) (hseq : s.seq ≠ .idle) :
    ∃ s', (t = s' ∨ sequencerStep s' = .next t) ∧ s'.regs = s.regs ∧ s'.seq = s.seq ∧ s'.rspValid = false := by
  obtain ⟨cfg, regs, eng, seq, rspValid, host, inner⟩ := s
  cases seq with
  | idle => exact absurd rfl hseq
  | busy op phase =>
    have hfetch : ∀ inner, fetch ⟨cfg, regs, eng, .busy op phase, rspValid, host, inner⟩ =
        hostWork ⟨cfg, regs, eng, .busy op phase, false, host, inner⟩ := fun inner => by cases inner <;> rfl
    rw [step, hfetch] at h
    rcases host with _ | ⟨_ | _ | _ | _, rest⟩
    case nil => exact ⟨_, .inr h, rfl, rfl, rfl⟩
    case command => exact ⟨_, .inl (Host.Outcome.next.inj h).symm, rfl, rfl, rfl⟩
    case start => exact ⟨_, .inl (Host.Outcome.next.inj h).symm, rfl, rfl, rfl⟩
    case wait => exact ⟨_, .inr h, rfl, rfl, rfl⟩
    case rst => exact absurd rfl (hrst rest)

end Sys2Proof.Machine

/-! When the persistent registers change (R26, R30, R32, R33, R219). -/

namespace Sys2Proof.Machine

open Sys2Proof.Terms

/-- A step either completes nothing, the registers as they were and a busy block busy still, or it completes an operation,
the pulse set and the initialised mode kept. -/
def QuietOrCompletes (s t : State) : Prop :=
  (t.rspValid = false ∧ t.regs = s.regs ∧ (t.seq = .idle → s.seq = .idle)) ∨
    (t.rspValid = true ∧ t.seq = .idle ∧ (s.regs.initialized = true → t.regs.initialized = true))

section

variable {s t : State}

/-- No operation leaves the initialised mode (R26). -/
theorem Written.initialized {i : Instr} {regs regs' : Regs} (h : Written i regs regs')
    (hinit : regs.initialized = true) : regs'.initialized = true := by
  by_cases hi : ∃ a, i = .init a
  · obtain ⟨a, rfl⟩ := hi
    obtain rfl | ⟨id, rfl⟩ := h
    · exact hinit
    · rfl
  · exact (h.frame.1 fun a ha => hi ⟨a, ha⟩).1.trans hinit

theorem exec_quietOrCompletes {i : Instr} (hx : exec i s = .next t) (hidle : s.seq = .idle) (hpulse : s.rspValid = false) :
    QuietOrCompletes s t := by
  obtain ⟨-, e, rfl⟩ | ⟨-, st, e, regs, rfl, hregs⟩ := exec_cases hx
  · exact .inl ⟨hpulse, rfl, fun _ => hidle⟩
  · exact .inr ⟨rfl, rfl, hregs.initialized⟩

/-- Run in an idle block, an instruction leaves it idle. -/
theorem exec_idle {i : Instr} (hx : exec i s = .next t) (hidle : s.seq = .idle) : t.seq = .idle := by
  obtain ⟨-, e, rfl⟩ | ⟨-, st, e, regs, rfl, -⟩ := exec_cases hx
  · exact hidle
  · rfl

theorem startCommand_quietOrCompletes {i : Instr} (hx : startCommand i s = .next t) (hidle : s.seq = .idle)
    (hpulse : s.rspValid = false) : QuietOrCompletes s t := by
  obtain ⟨-, hfirst⟩ | ⟨-, hx⟩ := startCommand_cases hx
  · obtain ⟨hregs, -, -, -, hrsp, -⟩ := firstPhase_frame hfirst
    exact .inl ⟨hrsp.trans hpulse, hregs, fun _ => hidle⟩
  · exact exec_quietOrCompletes hx hidle hpulse

theorem sequencerStep_quietOrCompletes (hx : sequencerStep s = .next t) (hpulse : s.rspValid = false) :
    QuietOrCompletes s t := by
  obtain ⟨hidle, rfl⟩ | ⟨op, phase, hseq, -, hown, ⟨-, rfl⟩ | ⟨-, hevent⟩⟩ := sequencerStep_cases hx
  · exact .inl ⟨hpulse, rfl, id⟩
  · exact .inl ⟨hpulse, rfl, id⟩
  · obtain ⟨t', ht', hmoves⟩ := phaseEvent_moves (s := s) hown
    obtain rfl : t' = t := Host.Outcome.next.inj (ht'.symm.trans hevent)
    obtain ⟨phase', e, rfl⟩ | ⟨st, e, regs, rfl, hregs⟩ := hmoves.goesOnOrEnds
    · exact .inl ⟨hpulse, rfl, nofun⟩
    · exact .inr ⟨rfl, rfl, hregs⟩

theorem step_quietOrCompletes (h : step s = .next t) (hrst : ∀ rest, s.host ≠ .rst :: rest) : QuietOrCompletes s t := by
  by_cases hidle : s.seq = .idle
  · obtain ⟨s', hwork, hregs, hseq, hpulse⟩ := step_idle_work h hrst hidle
    have hquiet : QuietOrCompletes s' t := by
      obtain rfl | ⟨i, hx⟩ | ⟨i, hx⟩ := hwork
      · exact .inl ⟨hpulse, rfl, id⟩
      · exact exec_quietOrCompletes hx hseq hpulse
      · exact startCommand_quietOrCompletes hx hseq hpulse
    simpa only [QuietOrCompletes, hregs, hseq, hidle] using hquiet
  · obtain ⟨s', hwork, hregs, hseq, hpulse⟩ := step_busy_work h hrst hidle
    have hquiet : QuietOrCompletes s' t := by
      obtain rfl | hx := hwork
      · exact .inl ⟨hpulse, rfl, id⟩
      · exact sequencerStep_quietOrCompletes hx hpulse
    simpa only [QuietOrCompletes, hregs, hseq] using hquiet

/-- After a step on `rst` the block is idle: reset, or, where an idle block has an inner call waiting, run it (R230,
log 9). -/
theorem step_rst_idle {rest : List HostInput} (hhost : s.host = .rst :: rest) (h : step s = .next t) :
    t.seq = .idle := by
  obtain ⟨cfg, regs, eng, seq, rspValid, host, inner⟩ := s
  cases hhost
  cases inner with
  | none =>
    cases h
    rfl
  | some tw =>
    cases seq with
    | busy op phase =>
      cases h
      rfl
    | idle =>
      simp only [step, fetch] at h
      cases hdecode : decode tw with
      | ok i =>
        rw [hdecode] at h
        exact exec_idle h rfl
      | error err =>
        cases err
        rw [hdecode] at h
        cases h

theorem idle_of_not_busy (h : s.busy = false) : s.seq = .idle := by
  rw [State.busy] at h
  split at h
  · assumption
  · cases h

/-- An idle block to which nothing is presented only drops the pulse (R32, R33). -/
theorem step_of_nothing {rest : List HostInput} (hidle : s.seq = .idle) (hinner : s.inner = none)
    (hhost : s.host = .wait :: rest ∨ (s.host = [] ∧ rest = [])) :
    step s = .next { s with host := rest, rspValid := false } := by
  obtain ⟨cfg, regs, eng, seq, rspValid, host, inner⟩ := s
  cases hidle
  cases hinner
  obtain hhost | ⟨hhost, rfl⟩ := hhost <;> cases hhost <;> rfl

end

/-- Settles O58: a step is quiet or completes an operation, and the power-on reset leaves the block idle. -/
theorem registersChangeOnlyAtCompletion : Obligations.RegistersChangeOnlyAtCompletion := by
  unfold Obligations.RegistersChangeOnlyAtCompletion
  refine ⟨fun s t h hrst => ?_, fun s t op phase h hbusy => ?_, fun s rest => step_of_nothing⟩
  · obtain ⟨hpulse, hregs, hseq⟩ | ⟨hpulse, hidle, -⟩ := step_quietOrCompletes h hrst
    · refine ⟨fun _ => hregs, fun h => absurd (hpulse.symm.trans h) nofun, fun hbusy hdone => ?_⟩
      rw [busy_of_idle (hseq (idle_of_not_busy hdone))] at hbusy
      cases hbusy
    · exact ⟨fun h => absurd (hpulse.symm.trans h) nofun, fun _ => hidle, fun _ _ => hpulse⟩
  · by_cases hrst : ∃ rest, s.host = .rst :: rest
    · obtain ⟨rest, hhost⟩ := hrst
      exact absurd (hbusy.symm.trans (step_rst_idle hhost h)) nofun
    · obtain ⟨-, hregs, -⟩ | ⟨-, hidle, -⟩ := step_quietOrCompletes h (not_exists.mp hrst)
      · exact hregs
      · exact absurd (hbusy.symm.trans hidle) nofun

/-- Settles O59: without the power-on reset a step is quiet or completes an operation, and either keeps the mode. -/
theorem onlyResetLeavesTheInitialisedMode : Obligations.OnlyResetLeavesTheInitialisedMode := by
  unfold Obligations.OnlyResetLeavesTheInitialisedMode
  intro s t h hinit hleft
  by_contra hrst
  obtain ⟨-, hregs, -⟩ | ⟨-, -, hkept⟩ := step_quietOrCompletes h (not_exists.mp hrst)
  · rw [hregs, hinit] at hleft
    cases hleft
  · rw [hkept hinit] at hleft
    cases hleft

end Sys2Proof.Machine

/-! From the sequencer's steps to whole primitives (R20, R33): from each primitive's first event the steps lead to its end,
with the engine that the meaning of the primitive gives. -/

namespace Sys2Proof.Machine

/-- One step of the sequencer of a busy block (R33). -/
def Advances (s t : State) : Prop := s.seq ≠ .idle ∧ sequencerStep s = .next t

/-- Any number of such steps. -/
abbrev Reaches : State → State → Prop := Relation.ReflTransGen Advances

/-- The state in a phase of an operation, with this engine. -/
def inPhase (s : State) (op : HostOp) (phase : Phase) (e : Engine) : State := goOn op phase { s with eng := e }

/-- The engine once the running delay has run down (R218). -/
def settle (e : Engine) : Engine :=
  { e with now := e.now + e.tr.timer, tr := { e.tr with timer := 0 } }

/-- A delay begun and run down is the delay as a whole (R13, R218). -/
theorem settle_startDelay (c : Config) (n : Nat) (e : Engine) : settle (startDelay c n e) = delay c n e := rfl

theorem settle_of_timer {e : Engine} (h : e.tr.timer = 0) : settle e = e := by
  obtain ⟨drv, crit, now, log, wire, samples, stalls, delays, tr⟩ := e
  obtain ⟨⟩ := tr
  cases h
  rfl

theorem settle_tick {e : Engine} (h : 0 < e.tr.timer) : settle (tick e) = settle e := by
  have hnow : e.now + 1 + (e.tr.timer - 1) = e.now + e.tr.timer := by omega
  simp only [settle, tick, hnow]

/-! What a slot leaves of the transient registers, whether or not time is kept. -/

@[simp] theorem writeSlot_tr (c : Config) (bit : Bool) (e : Engine) : (writeSlot c bit e).tr = { e.tr with timer := 0 } := by
  simp [writeSlot]

@[simp] theorem readSlot_tr (c : Config) (e : Engine) :
    (readSlot c e).tr = { e.tr with timer := 0, v := e.answer 0 } := by
  simp only [readSlot, critExit_tr, delay_tr, sample_tr, release_tr, driveLow_tr, critEnter_tr]
  rw [answer_congr (e := e) (by simp) (by simp)]

/-- An event inside a primitive is the event of its phase (R33). -/
theorem Inside.event {s : State} {phase phase' : Phase} {e : Engine} (op : HostOp) (h : Inside s.cfg s.eng phase phase' e) :
    phaseEvent op phase s = .next (goOn op phase' { s with eng := e }) := by
  cases h with
  | reset h => simp only [phaseEvent, h]
  | command h | payload h | answer h => simp only [phaseEvent, writeEvent, h]
  | receive h | pairTrue h | pairComp h => simp only [phaseEvent, readEvent, h]

section

variable {s t : State} {op : HostOp} {phase : Phase} {e : Engine}

/-- An event of a phase of the operation's own, no delay running. -/
theorem reaches_event (hwf : s.cfg.wf = true) (hown : hasPhase op phase = true) (htimer : e.tr.timer = 0)
    (h : phaseEvent op phase (inPhase s op phase e) = .next t) : Reaches (inPhase s op phase e) t := by
  refine .single ⟨nofun, ?_⟩
  have hrun : ¬ 0 < e.tr.timer := by omega
  simp only [sequencerStep, inPhase, goOn, hwf, hown, hrun, Bool.not_true, Bool.false_eq_true, if_false]
  exact h

/-- A running delay runs down tick by tick (R218). -/
theorem reaches_settle (hwf : s.cfg.wf = true) (hown : hasPhase op phase = true) (e : Engine) :
    Reaches (inPhase s op phase e) (inPhase s op phase (settle e)) := by
  induction hn : e.tr.timer generalizing e with
  | zero =>
    rw [settle_of_timer hn]
  | succ n ih =>
    have hrun : 0 < e.tr.timer := by omega
    have htick : Advances (inPhase s op phase e) (inPhase s op phase (tick e)) := by
      refine ⟨nofun, ?_⟩
      simp only [sequencerStep, inPhase, goOn, hwf, hown, hrun, Bool.not_true, Bool.false_eq_true, if_false, if_true]
    rw [← settle_tick hrun]
    exact .head htick (ih (tick e) (by simp [hn]))

/-- An event inside a primitive, and the delay it may have begun. -/
theorem reaches_inside {phase' : Phase} {e' : Engine} (hwf : s.cfg.wf = true) (hown : hasPhase op phase = true)
    (hown' : hasPhase op phase' = true) (htimer : e.tr.timer = 0) (h : Inside s.cfg e phase phase' e') :
    Reaches (inPhase s op phase e) (inPhase s op phase' (settle e')) := by
  refine (reaches_event hwf hown htimer (t := inPhase s op phase' e') ?_).trans (reaches_settle hwf hown' e')
  exact Inside.event (s := inPhase s op phase e) op h

end

/-! A slot. -/

section

variable {s t : State} {op : HostOp}

/-- Phases of an operation that are the points of one write slot: the bit sent is in registers that no event of the slot
changes, and `andThen` follows (R130, R131). -/
structure WriteSlotPhases (op : HostOp) (bit : Transients → Bool) (wrap : WritePoint → Phase)
    (andThen : HostOp → State → Host.Outcome State Fault Refusal) : Prop where
  own : ∀ p, hasPhase op (wrap p) = true
  untimed : ∀ tr, bit { tr with timer := 0 } = bit tr
  inside : ∀ {c p p' e e'}, writePoint c (bit e.tr) p e = (e', some p') → Inside c e (wrap p) (wrap p') e'
  exit : ∀ s, phaseEvent op (wrap .critExit) s = andThen op { s with eng := critExit s.cfg s.eng }

/-- Phases of an operation that are the points of one read slot, and `andThen` follows (R132). -/
structure ReadSlotPhases (op : HostOp) (wrap : ReadPoint → Phase)
    (andThen : HostOp → State → Host.Outcome State Fault Refusal) : Prop where
  own : ∀ p, hasPhase op (wrap p) = true
  inside : ∀ {c p p' e e'}, readPoint c p e = (e', some p') → Inside c e (wrap p) (wrap p') e'
  exit : ∀ s, phaseEvent op (wrap .critExit) s = andThen op { s with eng := critExit s.cfg s.eng }

/-- From its `CritEnter` a write slot runs to its end, as `writeSlot` says. -/
theorem WriteSlotPhases.reaches {bit : Transients → Bool} {wrap : WritePoint → Phase}
    {andThen : HostOp → State → Host.Outcome State Fault Refusal} (h : WriteSlotPhases op bit wrap andThen)
    (hwf : s.cfg.wf = true) {e : Engine} (htimer : e.tr.timer = 0)
    (hthen : andThen op (inPhase s op (wrap .critExit) (writeSlot s.cfg (bit e.tr) e)) = .next t) :
    Reaches (inPhase s op (wrap .critEnter) e) t := by
  have hexit : ∀ x, x.tr.timer = 0 → andThen op (inPhase s op (wrap .critExit) (critExit s.cfg x)) = .next t →
      Reaches (inPhase s op (wrap .critExit) x) t :=
    fun _ hx hx' => reaches_event hwf (h.own .critExit) hx ((h.exit _).trans hx')
  have hpoint : ∀ (p p' : WritePoint) (x x' : Engine), x.tr.timer = 0 →
      writePoint s.cfg (bit x.tr) p x = (x', some p') →
      Reaches (inPhase s op (wrap p) x) (inPhase s op (wrap p') (settle x')) :=
    fun p p' _ _ hx hp => reaches_inside hwf (h.own p) (h.own p') hx (h.inside hp)
  have henter := hpoint .critEnter _ _ _ htimer rfl
  rw [settle_of_timer (by simpa using htimer)] at henter
  have hdrive := hpoint .driveLow _ (critEnter s.cfg e) _ (by simpa using htimer) rfl
  rw [settle_of_timer (by simpa using htimer)] at hdrive
  have hlow := hpoint .lowDelay _ (driveLow (critEnter s.cfg e)) _ (by simpa using htimer) rfl
  rw [settle_startDelay, driveLow_tr, critEnter_tr] at hlow
  have hrelease := hpoint .release _ (delay s.cfg (writeLowTime s.cfg (bit e.tr)) (driveLow (critEnter s.cfg e))) _ rfl rfl
  rw [settle_of_timer rfl] at hrelease
  have htail := hpoint .tailDelay _
    (release (delay s.cfg (writeLowTime s.cfg (bit e.tr)) (driveLow (critEnter s.cfg e)))) _ rfl rfl
  rw [settle_startDelay, release_tr, delay_tr, h.untimed, driveLow_tr, critEnter_tr] at htail
  exact henter.trans (hdrive.trans (hlow.trans (hrelease.trans (htail.trans (hexit _ rfl hthen)))))

/-- From its `CritEnter` a read slot runs to its end, as `readSlot` says. -/
theorem ReadSlotPhases.reaches {wrap : ReadPoint → Phase}
    {andThen : HostOp → State → Host.Outcome State Fault Refusal} (h : ReadSlotPhases op wrap andThen)
    (hwf : s.cfg.wf = true) {e : Engine} (htimer : e.tr.timer = 0)
    (hthen : andThen op (inPhase s op (wrap .critExit) (readSlot s.cfg e)) = .next t) :
    Reaches (inPhase s op (wrap .critEnter) e) t := by
  have hexit : ∀ x, x.tr.timer = 0 → andThen op (inPhase s op (wrap .critExit) (critExit s.cfg x)) = .next t →
      Reaches (inPhase s op (wrap .critExit) x) t :=
    fun _ hx hx' => reaches_event hwf (h.own .critExit) hx ((h.exit _).trans hx')
  have hpoint : ∀ (p p' : ReadPoint) (x x' : Engine), x.tr.timer = 0 → readPoint s.cfg p x = (x', some p') →
      Reaches (inPhase s op (wrap p) x) (inPhase s op (wrap p') (settle x')) :=
    fun p p' _ _ hx hp => reaches_inside hwf (h.own p) (h.own p') hx (h.inside hp)
  have henter := hpoint .critEnter _ _ _ htimer rfl
  rw [settle_of_timer (by simpa using htimer)] at henter
  have hdrive := hpoint .driveLow _ (critEnter s.cfg e) _ (by simpa using htimer) rfl
  rw [settle_of_timer (by simpa using htimer)] at hdrive
  have hlow := hpoint .lowDelay _ (driveLow (critEnter s.cfg e)) _ (by simpa using htimer) rfl
  have hrelease := hpoint .release _ (delay s.cfg s.cfg.tLow1 (driveLow (critEnter s.cfg e))) _ rfl rfl
  rw [settle_of_timer rfl] at hrelease
  have hsettle := hpoint .settleDelay _ (release (delay s.cfg s.cfg.tLow1 (driveLow (critEnter s.cfg e)))) _ rfl rfl
  have hsample := hpoint .sample _ (delay s.cfg (s.cfg.tSample - s.cfg.tLow1)
    (release (delay s.cfg s.cfg.tLow1 (driveLow (critEnter s.cfg e))))) _ rfl rfl
  rw [settle_of_timer rfl] at hsample
  have htail := hpoint .tailDelay _ (sample (delay s.cfg (s.cfg.tSample - s.cfg.tLow1)
    (release (delay s.cfg s.cfg.tLow1 (driveLow (critEnter s.cfg e)))))) _ rfl rfl
  exact henter.trans (hdrive.trans (hlow.trans (hrelease.trans (hsettle.trans (hsample.trans (htail.trans (hexit _ rfl hthen)))))))

end

end Sys2Proof.Machine

/-! From the sequencer's steps to bytes, codes and search positions (R140, R141, R153, R156, R172). -/

namespace Sys2Proof.Machine

section

variable {s t : State} {op : HostOp}

/-! Which phases are whose slots (R84). -/

theorem commandPhases (hown : hasPhase op (.command .critExit) = true) :
    WriteSlotPhases op (·.shift.getLsbD 0) .command afterCommandBit where
  own := fun p => (hasPhase_congr op).2.1 p .critExit ▸ hown
  untimed := fun _ => rfl
  inside := .command
  exit := fun _ => rfl

theorem payloadPhases : WriteSlotPhases .matchRom (·.shift.getLsbD 0) .payload afterPayloadBit where
  own := fun _ => rfl
  untimed := fun _ => rfl
  inside := .payload
  exit := fun _ => rfl

theorem receivePhases (hown : hasPhase op (.receive .critExit) = true) :
    ReadSlotPhases op .receive afterReceivedBit where
  own := fun p => (hasPhase_congr op).2.2.2 p .critExit ▸ hown
  inside := .receive
  exit := fun _ => rfl

theorem pairTruePhases : ReadSlotPhases .searchNext .pairTrue afterTrue where
  own := fun _ => rfl
  inside := .pairTrue
  exit := fun _ => rfl

theorem pairCompPhases : ReadSlotPhases .searchNext .pairComp afterPair where
  own := fun _ => rfl
  inside := .pairComp
  exit := fun _ => rfl

theorem answerPhases : WriteSlotPhases .searchNext (·.chosen) .answer afterAnswer where
  own := fun _ => rfl
  untimed := fun _ => rfl
  inside := .answer
  exit := fun _ => rfl

/-! A byte: after a slot the next one follows the gap, and after the last one `last` does (R136). -/

/-- The bits of a byte that are still to be sent (R140). -/
theorem WriteSlotPhases.reaches_bits {wrap : WritePoint → Phase}
    {andThen : HostOp → State → Host.Outcome State Fault Refusal} {last : State → Host.Outcome State Fault Refusal}
    (h : WriteSlotPhases op (·.shift.getLsbD 0) wrap andThen)
    (hthen : ∀ s, andThen op s = if s.eng.tr.bitcnt + 1 < 8
      then nextPrimitive op (wrap .critEnter) { s with eng := shiftOut s.eng } else last { s with eng := shiftOut s.eng })
    (hwf : s.cfg.wf = true) (n : Nat) {e : Engine} (htimer : e.tr.timer = 0) (hn : e.tr.bitcnt + (n + 1) = 8)
    (hlast : last (inPhase s op (wrap .critExit) (sendBits s.cfg (n + 1) e)) = .next t) :
    Reaches (inPhase s op (wrap .critEnter) (bitGap s.cfg e)) t := by
  induction n generalizing e with
  | zero =>
    refine h.reaches hwf (by simpa using htimer) ((hthen _).trans ((if_neg ?_).trans ?_))
    · simp [inPhase]
      omega
    · rw [bitGap_tr]
      exact hlast
  | succ n ih =>
    generalize hsent : shiftOut (writeSlot s.cfg (e.tr.shift.getLsbD 0) (bitGap s.cfg e)) = x
    have hx : x.tr.timer = 0 ∧ x.tr.bitcnt = e.tr.bitcnt + 1 := by simp [← hsent]
    have hnext := ih hx.1 (by omega) (by rw [← hsent]; exact hlast)
    rw [bitGap_of_ne (by omega)] at hnext
    refine (h.reaches hwf (by simpa using htimer) ((hthen _).trans ((if_pos ?_).trans rfl))).trans ?_
    · simp [inPhase]
      omega
    · rw [← hsent] at hnext
      rw [bitGap_tr]
      exact hnext

/-- A whole byte out (R140). -/
theorem WriteSlotPhases.reaches_byte {wrap : WritePoint → Phase}
    {andThen : HostOp → State → Host.Outcome State Fault Refusal} {last : State → Host.Outcome State Fault Refusal}
    (h : WriteSlotPhases op (·.shift.getLsbD 0) wrap andThen)
    (hthen : ∀ s, andThen op s = if s.eng.tr.bitcnt + 1 < 8
      then nextPrimitive op (wrap .critEnter) { s with eng := shiftOut s.eng } else last { s with eng := shiftOut s.eng })
    (hwf : s.cfg.wf = true) (byte : Byte) {e : Engine} (htimer : e.tr.timer = 0)
    (hlast : last (inPhase s op (wrap .critExit) (sendByteSlots s.cfg byte e)) = .next t) :
    Reaches (inPhase s op (wrap .critEnter) (loadShift byte e)) t := by
  have hbits := h.reaches_bits hthen hwf 7 (e := loadShift byte e) htimer rfl hlast
  rwa [bitGap_of_zero rfl] at hbits

/-- The bits of a byte that are still to be read (R141). -/
theorem reaches_readBits (hown : hasPhase op (.receive .critExit) = true) (hwf : s.cfg.wf = true) (n : Nat) {e : Engine}
    (htimer : e.tr.timer = 0) (hn : e.tr.bitcnt + (n + 1) = 8)
    (hlast : afterReceivedByte op (inPhase s op (.receive .critExit) (readBits s.cfg (n + 1) e)) = .next t) :
    Reaches (inPhase s op (.receive .critEnter) (bitGap s.cfg e)) t := by
  induction n generalizing e with
  | zero =>
    refine (receivePhases hown).reaches hwf (by simpa using htimer) ((if_neg ?_).trans hlast)
    simp [inPhase]
    omega
  | succ n ih =>
    generalize hread : shiftIn (readSlot s.cfg (bitGap s.cfg e)) = x
    have hx : x.tr.timer = 0 ∧ x.tr.bitcnt = e.tr.bitcnt + 1 := by simp [← hread]
    have hnext := ih hx.1 (by omega) (by rw [← hread]; exact hlast)
    rw [bitGap_of_ne (by omega), ← hread] at hnext
    refine ((receivePhases hown).reaches hwf (by simpa using htimer) ((if_pos ?_).trans rfl)).trans hnext
    simp [inPhase]
    omega

/-- A whole byte in (R141). -/
theorem reaches_readByte (hown : hasPhase op (.receive .critExit) = true) (hwf : s.cfg.wf = true) {e : Engine}
    (htimer : e.tr.timer = 0)
    (hlast : afterReceivedByte op (inPhase s op (.receive .critExit) (readByteSlots s.cfg e)) = .next t) :
    Reaches (inPhase s op (.receive .critEnter) (loadShift 0 e)) t := by
  have hbits := reaches_readBits hown hwf 7 (e := loadShift 0 e) htimer rfl hlast
  rwa [bitGap_of_zero rfl] at hbits

/-- A command byte (R142): what comes after it comes from the state that its slots leave. -/
theorem reaches_commandByte (hown : hasPhase op (.command .critExit) = true) (hwf : s.cfg.wf = true) (byte : Byte)
    {e : Engine} (htimer : e.tr.timer = 0)
    (hlast : afterCommandByte op (inPhase s op (.command .critExit) (sendByteSlots s.cfg byte e)) = .next t) :
    Reaches (inPhase s op (.command .critEnter) (loadShift byte e)) t :=
  (commandPhases hown).reaches_byte (fun _ => rfl) hwf byte htimer hlast

end

end Sys2Proof.Machine

/-! From the sequencer's steps to codes, to the bytes of `read_rom` and to the search pass (R153, R156, R172). -/

namespace Sys2Proof.Machine

section

variable {s t : State} {op : HostOp} (c : Config)

/-! What bytes leave of the transient registers, whether or not time is kept. -/

@[simp] theorem sendBits_tr (n : Nat) (e : Engine) : (sendBits c (n + 1) e).tr =
    { e.tr with shift := e.tr.shift >>> (n + 1), bitcnt := e.tr.bitcnt + (n + 1), timer := 0 } := by
  induction n generalizing e with
  | zero => simp [sendBits, shiftRight]
  | succ n ih =>
    rw [sendBits, ih]
    simp [shiftRight, ← BitVec.shiftRight_add, Nat.add_comm, Nat.add_left_comm]

@[simp] theorem sendByteSlots_tr (byte : Byte) (e : Engine) : (sendByteSlots c byte e).tr =
    { e.tr with shift := byte >>> 8, bitcnt := 8, timer := 0 } := by
  simp [sendByteSlots]

theorem readBits_kept (n : Nat) (e : Engine) :
    (readBits c (n + 1) e).tr.timer = 0 ∧ (readBits c (n + 1) e).tr.bytecnt = e.tr.bytecnt := by
  induction n generalizing e with
  | zero => simp [readBits]
  | succ n ih =>
    rw [readBits]
    simpa using ih (shiftIn (readSlot c (bitGap c e)))

@[simp] theorem readByteSlots_timer (e : Engine) : (readByteSlots c e).tr.timer = 0 := (readBits_kept c 7 _).1

@[simp] theorem readByteSlots_bytecnt (e : Engine) : (readByteSlots c e).tr.bytecnt = e.tr.bytecnt :=
  (readBits_kept c 7 _).2

end

section

variable {s t : State} {op : HostOp}

/-! `match_rom` and `read_rom` (R153, R156). -/

/-- What follows the last bit of a code byte (R156). -/
def afterPayloadByte (s : State) : Host.Outcome State Fault Refusal :=
  if s.eng.tr.bytecnt + 1 < 8 then nextPrimitive .matchRom (.payload .critEnter)
    { s with eng := loadShift ((unpack s.eng.tr.argReg).getD (s.eng.tr.bytecnt + 1) 0) (countByte s.eng) }
  else .next (endOperation .ok { s with eng := countByte s.eng })

theorem reaches_payloadByte (hwf : s.cfg.wf = true) (byte : Byte) {e : Engine} (htimer : e.tr.timer = 0)
    (hlast : afterPayloadByte (inPhase s .matchRom (.payload .critExit) (sendByteSlots s.cfg byte e)) = .next t) :
    Reaches (inPhase s .matchRom (.payload .critEnter) (loadShift byte e)) t :=
  payloadPhases.reaches_byte (last := afterPayloadByte) (fun _ => rfl) hwf byte htimer hlast

/-- The code bytes that are still to be sent. -/
theorem reaches_sendCode (hwf : s.cfg.wf = true) (n : Nat) {e : Engine} (htimer : e.tr.timer = 0)
    (hn : e.tr.bytecnt + (n + 1) = 8) :
    Reaches (inPhase s .matchRom (.payload .critEnter)
        (loadShift ((unpack e.tr.argReg).getD e.tr.bytecnt 0) (gap s.cfg e)))
      (endOperation .ok { s with eng := sendCode s.cfg (unpack e.tr.argReg) (n + 1) e }) := by
  induction n generalizing e with
  | zero =>
    refine reaches_payloadByte hwf _ (by simpa using htimer) ((if_neg ?_).trans rfl)
    simp [inPhase]
    omega
  | succ n ih =>
    generalize hsent : countByte (sendByteSlots s.cfg ((unpack e.tr.argReg).getD e.tr.bytecnt 0) (gap s.cfg e)) = x
    have hx : x.tr.timer = 0 ∧ x.tr.bytecnt = e.tr.bytecnt + 1 ∧ x.tr.argReg = e.tr.argReg := by simp [← hsent]
    obtain ⟨htimer', hcount, harg⟩ := hx
    have hnext := ih htimer' (by omega)
    rw [harg, hcount] at hnext
    rw [sendCode, hsent]
    refine (reaches_payloadByte hwf _ (by simpa using htimer) ((if_pos ?_).trans ?_)).trans hnext
    · simp [inPhase]
      omega
    · rw [← hsent]
      simp [inPhase, nextPrimitive]
      rfl

/-- The bytes of `read_rom` that are still to be read. -/
theorem reaches_readRomBytes (hwf : s.cfg.wf = true) (n : Nat) {e : Engine} (htimer : e.tr.timer = 0)
    (hn : e.tr.bytecnt + (n + 1) = 8) :
    Reaches (inPhase s .readRom (.receive .critEnter) (loadShift 0 (gap s.cfg e)))
      (finishReadRom { s with eng := readRomBytes s.cfg (n + 1) e }) := by
  induction n generalizing e with
  | zero =>
    refine reaches_readByte rfl hwf (by simpa using htimer) ((if_neg ?_).trans rfl)
    simp [inPhase]
    omega
  | succ n ih =>
    generalize hread : takeByte (readByteSlots s.cfg (gap s.cfg e)) = x
    have hx : x.tr.timer = 0 ∧ x.tr.bytecnt = e.tr.bytecnt + 1 := by simp [← hread]
    have hnext := ih hx.1 (by omega)
    rw [readRomBytes, hread]
    refine (reaches_readByte (op := .readRom) rfl hwf (by simpa using htimer) ((if_pos ?_).trans ?_)).trans hnext
    · simp [inPhase]
      omega
    · rw [← hread]
      rfl

/-! The search pass (R172 to R177). -/

/-- How `search_next` ends after its pass. -/
def endPass (s : State) : Engine × Bool → State
  | (e, true) => commitPass { s with eng := e }
  | (e, false) => endOperation .noneReturned { s with eng := e }

theorem searchPass_eq_endPass (s : State) (e : Engine) : searchPass s e =
    endPass s (searchLoop s.cfg s.regs.rom s.regs.forkBit 64 (startPass (sendByteSlots s.cfg wireSearchRom e))) := by
  rw [searchPass]
  split <;> rename_i h <;> rw [h] <;> rfl

/-- The two read slots of a position. -/
theorem reaches_readPair (hwf : s.cfg.wf = true) (pos : Nat) {e : Engine} (htimer : e.tr.timer = 0)
    (hpair : afterPair .searchNext (inPhase s .searchNext (.pairComp .critExit)
      (readSlot s.cfg (gap s.cfg (takeTrue (readSlot s.cfg (gap s.cfg (startPosition s.regs.rom pos e))))))) = .next t) :
    Reaches (inPhase s .searchNext (.pairTrue .critEnter) (gap s.cfg (startPosition s.regs.rom pos e))) t := by
  generalize hstart : gap s.cfg (startPosition s.regs.rom pos e) = x at hpair ⊢
  have hx : x.tr.timer = 0 := by simpa [← hstart] using htimer
  have htrue : Reaches (inPhase s .searchNext (.pairTrue .critEnter) x)
      (inPhase s .searchNext (.pairComp .critEnter) (gap s.cfg (takeTrue (readSlot s.cfg x)))) :=
    pairTruePhases.reaches hwf hx rfl
  exact htrue.trans (pairCompPhases.reaches hwf (by simp) hpair)

/-- The write slot of a position. -/
theorem reaches_answer (hwf : s.cfg.wf = true) (d : Bool × Fin 66) {e : Engine} (htimer : e.tr.timer = 0)
    (hanswer : afterAnswer .searchNext (inPhase s .searchNext (.answer .critExit)
      (writeSlot s.cfg d.1 (gap s.cfg (takeDecision d e)))) = .next t) :
    Reaches (inPhase s .searchNext (.answer .critEnter) (gap s.cfg (takeDecision d e))) t :=
  answerPhases.reaches hwf (by simpa using htimer) hanswer

/-- The pair (1,1) ends the pass (R175). -/
theorem reaches_aborted (hwf : s.cfg.wf = true) (pos : Nat) {e : Engine} (htimer : e.tr.timer = 0)
    (hd : decidePosition s.regs.forkBit (readPair s.cfg s.regs.rom pos e) = none) :
    Reaches (inPhase s .searchNext (.pairTrue .critEnter) (gap s.cfg (startPosition s.regs.rom pos e)))
      (endOperation .noneReturned { s with eng := readPair s.cfg s.regs.rom pos e }) := by
  refine reaches_readPair hwf pos htimer ?_
  rw [readPair] at hd
  simp only [afterPair, inPhase, goOn, hd]
  rfl

/-- Any other pair is followed by the write slot of the bit decided (R173, R174). -/
theorem reaches_decided (hwf : s.cfg.wf = true) (pos : Nat) {e : Engine} (htimer : e.tr.timer = 0) {d : Bool × Fin 66}
    (hd : decidePosition s.regs.forkBit (readPair s.cfg s.regs.rom pos e) = some d)
    (hanswer : afterAnswer .searchNext (inPhase s .searchNext (.answer .critExit)
      (writeSlot s.cfg d.1 (gap s.cfg (takeDecision d (readPair s.cfg s.regs.rom pos e))))) = .next t) :
    Reaches (inPhase s .searchNext (.pairTrue .critEnter) (gap s.cfg (startPosition s.regs.rom pos e))) t := by
  refine (reaches_readPair hwf pos htimer ?_).trans (reaches_answer hwf d (by simp [readPair]) hanswer)
  rw [readPair] at hd
  simp only [afterPair, inPhase, goOn, hd]
  rfl

/-- The registers after a position. -/
theorem answerPosition_readPair_tr (c : Config) (rom : RomCode) (pos : Nat) (d : Bool × Fin 66) (e : Engine) :
    (answerPosition c d (readPair c rom pos e)).tr.timer = 0 ∧
      (writeSlot c d.1 (gap c (takeDecision d (readPair c rom pos e)))).tr.pos = pos := by
  simp [answerPosition, readPair]

/-- The positions that are still to be searched. -/
theorem reaches_searchLoop (hwf : s.cfg.wf = true) (n : Nat) {e : Engine} (htimer : e.tr.timer = 0) (hn : n < 64) :
    Reaches (inPhase s .searchNext (.pairTrue .critEnter) (gap s.cfg (startPosition s.regs.rom (64 - n) e)))
      (endPass s (searchLoop s.cfg s.regs.rom s.regs.forkBit (n + 1) e)) := by
  induction n generalizing e with
  | zero =>
    simp only [searchLoop]
    cases hd : decidePosition s.regs.forkBit (readPair s.cfg s.regs.rom (64 - 0) e) with
    | none => exact reaches_aborted hwf 64 htimer hd
    | some d =>
      obtain ⟨-, hpos⟩ := answerPosition_readPair_tr s.cfg s.regs.rom 64 d e
      refine reaches_decided hwf 64 htimer hd ((if_neg ?_).trans rfl)
      rw [inPhase, goOn_eng, storeChosen_tr, hpos]
      decide
  | succ n ih =>
    simp only [searchLoop]
    cases hd : decidePosition s.regs.forkBit (readPair s.cfg s.regs.rom (64 - (n + 1)) e) with
    | none => exact reaches_aborted hwf _ htimer hd
    | some d =>
      obtain ⟨htimer', hpos⟩ := answerPosition_readPair_tr s.cfg s.regs.rom (64 - (n + 1)) d e
      have hnext := ih htimer' (by omega)
      refine (reaches_decided hwf _ htimer hd ((if_pos ?_).trans ?_)).trans hnext
      · rw [inPhase, goOn_eng, storeChosen_tr, hpos]
        omega
      · have hsucc : 64 - (n + 1) + 1 = 64 - n := by omega
        simp only [inPhase, goOn_eng, storeChosen_tr, hpos, hsucc]
        rfl

end

end Sys2Proof.Machine

/-! From the sequencer's steps to the bus reset and to whole operations (R20, R33, R110). -/

namespace Sys2Proof.Machine

section

variable {s t : State} {op : HostOp}

/-! The bus reset (R110 to R116). -/

/-- An event of the bus reset, and the delay it may have begun. -/
theorem reaches_resetPoint (hown : hasPhase op (.reset .critEnter) = true) (hwf : s.cfg.wf = true) {p p' : ResetPoint}
    {e e' : Engine} (htimer : e.tr.timer = 0) (h : resetPoint s.cfg p e = (e', .ok p')) :
    Reaches (inPhase s op (.reset p) e) (inPhase s op (.reset p') (settle e')) :=
  reaches_inside hwf ((hasPhase_congr op).1 _ _ ▸ hown) ((hasPhase_congr op).1 _ _ ▸ hown) htimer (.reset h)

/-- Where the rise poll leads (R113). -/
def afterRise (s : State) (op : HostOp) : Engine × Bool → State
  | (e, true) => inPhase s op (.reset .fallSample) (startFall e)
  | (e, false) => inPhase s op (.reset (.critExit .timeout)) e

/-- Where the presence poll leads (R114). -/
def afterFall (s : State) (op : HostOp) : Engine × Bool → State
  | (e, true) => inPhase s op (.reset .remainder) e
  | (e, false) => inPhase s op (.reset (.critExit .timeout)) e

/-- What follows a bus reset. -/
def resetEnd (s : State) (op : HostOp) (p : Engine × ResetResult) : Host.Outcome State Fault Refusal :=
  afterResetResult op p.2 (inPhase s op (.reset (.critExit p.2)) p.1)

theorem pollRise_timer (c : Config) (n : Nat) {e : Engine} (h : e.tr.timer = 0) : (pollRise c n e).1.tr.timer = 0 := by
  induction n generalizing e with
  | zero => exact h
  | succ n ih =>
    rw [pollRise]
    split
    · exact h
    · exact ih rfl

theorem pollFall_timer (c : Config) (n : Nat) {e : Engine} (h : e.tr.timer = 0) : (pollFall c n e).1.tr.timer = 0 := by
  induction n generalizing e with
  | zero => exact h
  | succ n ih =>
    rw [pollFall]
    split
    · exact ih rfl
    · exact h

/-- A sample of the rise poll (R113). -/
theorem reaches_riseSample (hown : hasPhase op (.reset .critEnter) = true) (hwf : s.cfg.wf = true) {e : Engine}
    (htimer : e.tr.timer = 0) :
    ((sample e).tr.v = true →
      Reaches (inPhase s op (.reset .riseSample) e) (inPhase s op (.reset .fallSample) (startFall (sample e)))) ∧
    ((sample e).tr.v = false → Reaches (inPhase s op (.reset .riseSample) e)
      (inPhase s op (.reset (if s.cfg.tRiseMax ≤ e.tr.rise then .critExit .timeout else .riseDelay)) (sample e))) := by
  refine ⟨fun hv => ?_, fun hv => ?_⟩
  · have h := reaches_resetPoint hown hwf (p := .riseSample) htimer (if_pos hv)
    rwa [settle_of_timer (by simpa using htimer)] at h
  · have h := reaches_resetPoint hown hwf (p := .riseSample) htimer (if_neg (Bool.eq_false_iff.mp hv))
    rwa [settle_of_timer (by simpa using htimer)] at h

/-- A sample of the presence poll (R114). -/
theorem reaches_fallSample (hown : hasPhase op (.reset .critEnter) = true) (hwf : s.cfg.wf = true) {e : Engine}
    (htimer : e.tr.timer = 0) :
    Reaches (inPhase s op (.reset .fallSample) e) (inPhase s op (.reset (if (sample e).tr.v then
      (if s.cfg.tPresMax ≤ e.tr.fall then .critExit .timeout else .fallDelay) else .remainder)) (sample e)) := by
  have h := reaches_resetPoint hown hwf (p := .fallSample) htimer rfl
  rwa [settle_of_timer (by simpa using htimer)] at h

theorem reaches_pollRise (hown : hasPhase op (.reset .critEnter) = true) (hwf : s.cfg.wf = true) (n : Nat) {e : Engine}
    (htimer : e.tr.timer = 0) (hn : e.tr.rise + n = s.cfg.tRiseMax) :
    Reaches (inPhase s op (.reset .riseSample) e) (afterRise s op (pollRise s.cfg n e)) := by
  induction n generalizing e with
  | zero =>
    obtain ⟨hrisen, hlow⟩ := reaches_riseSample hown hwf htimer
    rw [pollRise]
    cases hv : (sample e).tr.v with
    | true => exact hrisen hv
    | false =>
      rw [if_pos (by omega)] at hlow
      exact hlow hv
  | succ n ih =>
    obtain ⟨hrisen, hlow⟩ := reaches_riseSample hown hwf htimer
    rw [pollRise]
    cases hv : (sample e).tr.v with
    | true => exact hrisen hv
    | false =>
      rw [if_neg (by omega)] at hlow
      have hdelay := reaches_resetPoint hown hwf (p := .riseDelay) (e := sample e) htimer rfl
      have hrise : (riseStep s.cfg (sample e)).tr.rise + n = s.cfg.tRiseMax := by
        simp [riseStep]
        omega
      exact (hlow hv).trans (hdelay.trans (ih rfl hrise))

theorem reaches_pollFall (hown : hasPhase op (.reset .critEnter) = true) (hwf : s.cfg.wf = true) (n : Nat) {e : Engine}
    (htimer : e.tr.timer = 0) (hn : e.tr.fall + n = s.cfg.tPresMax) :
    Reaches (inPhase s op (.reset .fallSample) e) (afterFall s op (pollFall s.cfg n e)) := by
  induction n generalizing e with
  | zero =>
    have hsample := reaches_fallSample hown hwf htimer
    rw [if_pos (show s.cfg.tPresMax ≤ e.tr.fall by omega)] at hsample
    rw [pollFall]
    cases hv : (sample e).tr.v with
    | true => rwa [hv] at hsample
    | false => rwa [hv] at hsample
  | succ n ih =>
    have hsample := reaches_fallSample hown hwf htimer
    rw [if_neg (show ¬ s.cfg.tPresMax ≤ e.tr.fall by omega)] at hsample
    rw [pollFall]
    cases hv : (sample e).tr.v with
    | false => rwa [hv] at hsample
    | true =>
      rw [hv] at hsample
      have hdelay := reaches_resetPoint hown hwf (p := .fallDelay) (e := sample e) htimer rfl
      have hfall : (fallStep s.cfg (sample e)).tr.fall + n = s.cfg.tPresMax := by
        simp [fallStep]
        omega
      exact hsample.trans (hdelay.trans (ih rfl hfall))

/-- The way out of the bus reset (R116). -/
theorem reaches_resetExit (hown : hasPhase op (.reset .critEnter) = true) (hwf : s.cfg.wf = true) {r : ResetResult}
    {e : Engine} (htimer : e.tr.timer = 0) (hend : resetEnd s op (critExit s.cfg e, r) = .next t) :
    Reaches (inPhase s op (.reset (.critExit r)) e) t :=
  reaches_event hwf ((hasPhase_congr op).1 _ _ ▸ hown) htimer hend

theorem reaches_presencePart (hown : hasPhase op (.reset .critEnter) = true) (hwf : s.cfg.wf = true) {e : Engine}
    (htimer : e.tr.timer = 0) (hend : resetEnd s op (presencePart s.cfg e) = .next t) :
    Reaches (inPhase s op (.reset .fallSample) (startFall e)) t := by
  have hpoll := reaches_pollFall hown hwf s.cfg.tPresMax (e := startFall e) htimer (Nat.zero_add _)
  have htimer' := pollFall_timer s.cfg s.cfg.tPresMax (e := startFall e) htimer
  rw [presencePart] at hend
  generalize pollFall s.cfg s.cfg.tPresMax (startFall e) = p at hpoll htimer' hend
  obtain ⟨x, fell⟩ := p
  cases fell with
  | false => exact hpoll.trans (reaches_resetExit hown hwf htimer' hend)
  | true =>
    have hrest := reaches_resetPoint hown hwf (p := .remainder) htimer' rfl
    exact hpoll.trans (hrest.trans (reaches_resetExit hown hwf rfl hend))

theorem reaches_pulsePart (hown : hasPhase op (.reset .critEnter) = true) (hwf : s.cfg.wf = true) {e : Engine}
    (htimer : e.tr.timer = 0) (hend : resetEnd s op (pulsePart s.cfg e) = .next t) :
    Reaches (inPhase s op (.reset .driveLow) e) t := by
  have hdrive := reaches_resetPoint hown hwf (p := .driveLow) htimer rfl
  rw [settle_of_timer (by simpa using htimer)] at hdrive
  have hlow := reaches_resetPoint hown hwf (p := .lowDelay) (e := driveLow e) htimer rfl
  have hrelease := reaches_resetPoint hown hwf (p := .release) (e := delay s.cfg s.cfg.tRstl (driveLow e)) rfl rfl
  rw [settle_of_timer rfl] at hrelease
  have hrec := reaches_resetPoint hown hwf (p := .recDelay) (e := release (delay s.cfg s.cfg.tRstl (driveLow e))) rfl rfl
  have hpulse := hdrive.trans (hlow.trans (hrelease.trans hrec))
  have hpoll := reaches_pollRise hown hwf s.cfg.tRiseMax (e := startRise (resetPulse s.cfg e)) rfl (Nat.zero_add _)
  have htimer' := pollRise_timer s.cfg s.cfg.tRiseMax (e := startRise (resetPulse s.cfg e)) rfl
  rw [pulsePart] at hend
  refine Relation.ReflTransGen.trans hpulse (b := inPhase s op (.reset .riseSample) (startRise (resetPulse s.cfg e))) ?_
  generalize pollRise s.cfg s.cfg.tRiseMax (startRise (resetPulse s.cfg e)) = p at hpoll htimer' hend
  obtain ⟨x, rose⟩ := p
  cases rose with
  | false => exact hpoll.trans (reaches_resetExit hown hwf htimer' hend)
  | true => exact hpoll.trans (reaches_presencePart hown hwf htimer' hend)

/-- From its `CritEnter` the bus reset runs to its end, as `resetPrim` says. -/
theorem reaches_resetPrim (hown : hasPhase op (.reset .critEnter) = true) (hwf : s.cfg.wf = true) {e : Engine}
    (htimer : e.tr.timer = 0) (hend : resetEnd s op (resetPrim s.cfg e) = .next t) :
    Reaches (inPhase s op (.reset .critEnter) e) t := by
  have henter := reaches_resetPoint hown hwf (p := .critEnter) htimer rfl
  rw [settle_of_timer (by simpa using htimer)] at henter
  have hsample := reaches_resetPoint hown hwf (p := .idleSample) (e := critEnter s.cfg e) (by simpa using htimer) rfl
  rw [settle_of_timer (by simpa using htimer)] at hsample
  refine henter.trans (hsample.trans ?_)
  rw [resetPrim] at hend
  cases hv : (sample (critEnter s.cfg e)).tr.v with
  | true =>
    rw [if_pos hv] at hend
    exact reaches_pulsePart hown hwf (by simpa using htimer) hend
  | false =>
    rw [if_neg (Bool.eq_false_iff.mp hv)] at hend
    exact reaches_resetExit hown hwf (by simpa using htimer) hend

theorem presencePart_timer (c : Config) {e : Engine} (h : e.tr.timer = 0) : (presencePart c e).1.tr.timer = 0 := by
  have hpoll := pollFall_timer c c.tPresMax (e := startFall e) h
  rw [presencePart]
  generalize pollFall c c.tPresMax (startFall e) = p at hpoll ⊢
  obtain ⟨x, _ | _⟩ := p
  · simpa using hpoll
  · simp

/-- No delay runs after a bus reset. -/
theorem resetPrim_timer (c : Config) {e : Engine} (h : e.tr.timer = 0) : (resetPrim c e).1.tr.timer = 0 := by
  have hpoll := pollRise_timer c c.tRiseMax (e := startRise (resetPulse c (sample (critEnter c e)))) rfl
  rw [resetPrim]
  split
  · rw [pulsePart]
    generalize pollRise c c.tRiseMax (startRise (resetPulse c (sample (critEnter c e)))) = p at hpoll ⊢
    obtain ⟨x, _ | _⟩ := p
    · simpa using hpoll
    · exact presencePart_timer c hpoll
  · simpa using h

/-- The latched argument is the same after a bus reset (R31). -/
theorem resetPrim_argReg (c : Config) (e : Engine) : (resetPrim c e).1.tr.argReg = e.tr.argReg := by
  obtain ⟨-, -, h⟩ := ((latched_lockstep c e.tr.opReg e.tr.argReg).resetPrim ⟨rfl, rfl, rfl⟩).1
  exact h

/-! Whole operations (R33). -/

/-- An operation that begins with a bus reset: on success its command byte follows (R120, R150, R171). -/
theorem reaches_afterReset {byte : Byte} {failed : Status} (hplan : afterResetPlan op = some (byte, failed))
    (hwf : s.cfg.wf = true) (htimer : s.eng.tr.timer = 0) {k : Engine → State}
    (hk : ∀ e, e.tr.timer = 0 → e.tr.argReg = s.eng.tr.argReg →
      Reaches (inPhase s op (.command .critEnter) (loadShift byte e)) (k e)) :
    Reaches (inPhase s op (.reset .critEnter) s.eng) (afterReset failed s k) := by
  have hown : hasPhase op (.reset .critEnter) = true := by
    cases op
    case skipRom | readRom | matchRom | searchNext => rfl
    all_goals cases hplan
  have htimer' := resetPrim_timer s.cfg htimer
  have harg := resetPrim_argReg s.cfg s.eng
  have hprim := fun t => reaches_resetPrim (t := t) hown hwf htimer
  generalize hr : resetPrim s.cfg s.eng = p at htimer' harg hprim
  obtain ⟨e, r⟩ := p
  have hplanned : ∀ x, resetEnd s op (x, r) = afterResetResult.romCommand op r
      (inPhase s op (.reset (.critExit r)) x) byte failed := by
    cases op <;> cases hplan <;> exact fun _ => rfl
  by_cases hok : r = .ok
  · subst hok
    rw [afterReset_ok hr]
    exact (hprim _ (hplanned _)).trans (hk (gap s.cfg e) htimer' harg)
  · rw [afterReset_failed hr hok]
    refine hprim _ ((hplanned _).trans ?_)
    cases r
    · exact absurd rfl hok
    · rfl
    · rfl

/-- The argument an instruction was decoded with is the one latched (R31, R64). -/
def Latched (i : Instr) (arg : BitVec 64) : Prop :=
  match i with
  | .init a => a = arg
  | .matchRom code => code = unpack arg
  | _ => True

theorem latched_decodeHost (w : CmdWord) : Latched (decodeHost w) (hostArg w) := by
  unfold decodeHost
  split
  case h_1 | h_7 => rfl
  all_goals trivial

/-- Where the event `Configure` ends does not depend on the phase it is in (R100). -/
theorem configureLine_goOn (arg : BitVec 64) (op : HostOp) (phase : Phase) (s : State) :
    configureLine arg (goOn op phase s) = configureLine arg s := by
  by_cases h : lineIdOf s.cfg arg ∈ s.cfg.lineValid
  · rw [configureLine_of_mem h, configureLine_of_mem (s := goOn op phase s) h]
    rfl
  · rw [configureLine_of_not_mem h, configureLine_of_not_mem (s := goOn op phase s) h]
    rfl

/-- The first phase of an operation, by the engine it begins with (R33). -/
theorem firstPhase_eq {i : Instr} {s s' : State} (h : firstPhase i s = some s') :
    (∃ a, i = .init a ∧ s' = inPhase s .init .configure s.eng) ∨ (s.regs.initialized = true ∧
      ((i = .reset ∧ s' = inPhase s .reset (.reset .critEnter) s.eng) ∨
      (∃ byte, i = .sendByte byte ∧ s' = inPhase s .sendByte (.command .critEnter) (loadShift byte s.eng)) ∨
      (i = .readByte ∧ s' = inPhase s .readByte (.receive .critEnter) (loadShift 0 s.eng)) ∨
      (i = .skipRom ∧ s' = inPhase s .skipRom (.reset .critEnter) s.eng) ∨
      (i = .readRom ∧ s' = inPhase s .readRom (.reset .critEnter) s.eng) ∨
      (∃ code, i = .matchRom code ∧ s' = inPhase s .matchRom (.reset .critEnter) s.eng) ∨
      (i = .searchNext ∧ s.regs.forkBit ≠ 0 ∧ s' = inPhase s .searchNext (.reset .critEnter) s.eng))) := by
  have hopened : ∀ op phase, firstPhase.opened s op phase = some s' →
      s.regs.initialized = true ∧ s' = inPhase s op phase s.eng := fun op phase ho => by
    rw [firstPhase.opened] at ho
    split at ho <;> cases ho
    exact ⟨‹_›, rfl⟩
  cases i
  case init a =>
    cases h
    exact .inl ⟨a, rfl, rfl⟩
  case sendByte byte =>
    rw [firstPhase] at h
    split at h <;> cases h
    exact .inr ⟨‹_›, .inr (.inl ⟨byte, rfl, rfl⟩)⟩
  case readByte =>
    rw [firstPhase] at h
    split at h <;> cases h
    exact .inr ⟨‹_›, .inr (.inr (.inl ⟨rfl, rfl⟩))⟩
  case reset => obtain ⟨hi, rfl⟩ := hopened _ _ h; exact .inr ⟨hi, by simp⟩
  case skipRom => obtain ⟨hi, rfl⟩ := hopened _ _ h; exact .inr ⟨hi, by simp⟩
  case readRom => obtain ⟨hi, rfl⟩ := hopened _ _ h; exact .inr ⟨hi, by simp⟩
  case matchRom => obtain ⟨hi, rfl⟩ := hopened _ _ h; exact .inr ⟨hi, by simp⟩
  case searchNext =>
    rw [firstPhase] at h
    split at h
    · cases h
    · obtain ⟨hi, rfl⟩ := hopened _ _ h
      exact .inr ⟨hi, by simpa⟩
  all_goals cases h

/-- From its first phase an operation runs to its end, as its meaning says. -/
theorem reaches_exec {i : Instr} (hwf : s.cfg.wf = true) (htimer : s.eng.tr.timer = 0)
    (harg : Latched i s.eng.tr.argReg) {s' : State} (hfirst : firstPhase i s = some s') (hx : exec i s = .next t) :
    Reaches s' t := by
  obtain ⟨a, rfl, rfl⟩ | ⟨hinit, ⟨rfl, rfl⟩ | ⟨byte, rfl, rfl⟩ | ⟨rfl, rfl⟩ | ⟨rfl, rfl⟩ | ⟨rfl, rfl⟩ | ⟨code, rfl, rfl⟩ |
    ⟨rfl, hfork, rfl⟩⟩ := firstPhase_eq hfirst
  · rw [exec_init hwf, ← configureLine_goOn a .init .configure] at hx
    cases harg
    exact reaches_event hwf rfl htimer hx
  · rw [exec_reset hwf hinit rfl] at hx
    exact reaches_resetPrim rfl hwf htimer hx
  · rw [exec_sendByte hwf hinit] at hx
    exact reaches_commandByte rfl hwf byte htimer hx
  · rw [exec_readByte hwf hinit] at hx
    exact reaches_readByte rfl hwf htimer hx
  · rw [exec_skipRom hwf hinit] at hx
    cases hx
    exact reaches_afterReset rfl hwf htimer fun e he _ => reaches_commandByte rfl hwf _ he rfl
  · rw [exec_readRom hwf hinit] at hx
    cases hx
    exact reaches_afterReset rfl hwf htimer fun e he _ => (reaches_commandByte rfl hwf _ he rfl).trans
      (reaches_readRomBytes hwf 7 (e := startReadRom (sendByteSlots s.cfg wireReadRom e)) (by simp) rfl)
  · rw [exec_matchRom hwf hinit] at hx
    cases hx
    cases harg
    refine reaches_afterReset rfl hwf htimer fun e he ha => ?_
    have hsent : (sendByteSlots s.cfg wireMatchRom e).tr.argReg = s.eng.tr.argReg := by simpa using ha
    have hbyte := fun t => reaches_commandByte (s := s) (op := .matchRom) (t := t) rfl hwf wireMatchRom he
    have htimer' : (sendByteSlots s.cfg wireMatchRom e).tr.timer = 0 := by simp
    generalize sendByteSlots s.cfg wireMatchRom e = x at hsent hbyte htimer' ⊢
    rw [← hsent]
    exact (hbyte _ rfl).trans (reaches_sendCode hwf 7 (e := startMatch x) htimer' rfl)
  · rw [exec_searchNext hwf hinit hfork] at hx
    cases hx
    refine reaches_afterReset rfl hwf htimer fun e he _ => ?_
    rw [searchPass_eq_endPass]
    exact (reaches_commandByte rfl hwf wireSearchRom he rfl).trans
      (reaches_searchLoop hwf 63 (e := startPass (sendByteSlots s.cfg wireSearchRom e)) (by simp) (by decide))

end

end Sys2Proof.Machine

/-! The watched view and the one-step view of a command (R20, R33). -/

namespace Sys2Proof.Machine

section

variable {s t : State}

/-- A step of the sequencer ends the operation, or leaves everything outside the operation as it was. -/
theorem sequencerStep_kept (hx : sequencerStep s = .next t) :
    t.seq = .idle ∨ (t.rspValid = s.rspValid ∧ t.host = s.host ∧ t.inner = s.inner ∧ t.cfg = s.cfg ∧ t.regs = s.regs) := by
  obtain ⟨-, rfl⟩ | ⟨op, phase, -, -, hown, ⟨-, rfl⟩ | ⟨-, hevent⟩⟩ := sequencerStep_cases hx
  · exact .inr ⟨rfl, rfl, rfl, rfl, rfl⟩
  · exact .inr ⟨rfl, rfl, rfl, rfl, rfl⟩
  · obtain ⟨t', ht', hmoves⟩ := phaseEvent_moves (s := s) hown
    obtain rfl : t' = t := Host.Outcome.next.inj (ht'.symm.trans hevent)
    obtain ⟨phase', e, rfl⟩ | ⟨st, e, regs, rfl, -⟩ := hmoves.goesOnOrEnds
    · exact .inr ⟨rfl, rfl, rfl, rfl, rfl⟩
    · exact .inl rfl

theorem run_succ_of_step {s' : State} (h : step s = .next s') (n : Nat) :
    Host.Core.run Sys2Proof.core (n + 1) s = Host.Core.run Sys2Proof.core n s' := by
  have hcore : Sys2Proof.core.step s = .next s' := h
  simp only [Host.Core.run, hcore]

/-- With the host silent the steps of the machine are those of the sequencer. -/
theorem step_of_advances (h : Advances s t) (hpulse : s.rspValid = false) (hhost : s.host = []) (hinner : s.inner = none) :
    step s = .next t := by
  obtain ⟨hbusy, hstep⟩ := h
  rw [step_of_busy hbusy hinner hhost, ← hpulse]
  exact hstep

/-- With the host silent the machine gets as far as the sequencer does. -/
theorem Reaches.run (h : Reaches s t) (hpulse : s.rspValid = false) (hhost : s.host = []) (hinner : s.inner = none) :
    ∃ n, Host.Core.run Sys2Proof.core n s = .next t := by
  induction h using Relation.ReflTransGen.head_induction_on with
  | refl => exact ⟨0, rfl⟩
  | @head a b hab hbt ih =>
    have hstep := step_of_advances hab hpulse hhost hinner
    obtain hidle | ⟨hpulse', hhost', hinner', -⟩ := sequencerStep_kept hab.2
    · obtain rfl | ⟨x, ⟨hbusy, -⟩, -⟩ := Relation.ReflTransGen.cases_head hbt
      · exact ⟨1, run_succ_of_step hstep 0⟩
      · exact absurd hidle hbusy
    · obtain ⟨n, hn⟩ := ih (hpulse'.trans hpulse) (hhost'.trans hhost) (hinner'.trans hinner)
      exact ⟨n + 1, (run_succ_of_step hstep n).trans hn⟩

theorem decodeHost_not_mem_innerInstrs (w : CmdWord) : decodeHost w ∉ innerInstrs := by
  unfold decodeHost
  split <;> simp [innerInstrs]

/-- A host command ends with the pulse (R32). -/
theorem exec_decodeHost_pulse {w : CmdWord} (hx : exec (decodeHost w) s = .next t) : t.rspValid = true := by
  obtain ⟨hmem, -⟩ | ⟨-, st, e, regs, rfl, -⟩ := exec_cases hx
  · exact absurd hmem (decodeHost_not_mem_innerInstrs w)
  · rfl

/-- A command begun gets to where its meaning ends, after no further step if it has no event. -/
theorem startCommand_reaches {w : CmdWord} (hwf : s.cfg.wf = true) (htimer : s.eng.tr.timer = 0)
    (harg : s.eng.tr.argReg = hostArg w) (hx : exec (decodeHost w) s = .next t) :
    ∃ s', startCommand (decodeHost w) s = .next s' ∧ Reaches s' t ∧
      (s' = t ∨ (s'.rspValid = s.rspValid ∧ s'.host = s.host ∧ s'.inner = s.inner)) := by
  cases hfirst : firstPhase (decodeHost w) s with
  | none => exact ⟨t, by rw [startCommand, hfirst]; exact hx, .refl, .inl rfl⟩
  | some s' =>
    obtain ⟨-, -, hhost, hinner, hpulse, -⟩ := firstPhase_frame hfirst
    exact ⟨s', startCommand_of_firstPhase hwf hfirst,
      reaches_exec hwf htimer (harg ▸ latched_decodeHost w) hfirst hx, .inr ⟨hpulse, hhost, hinner⟩⟩

end

/-- Settles O56: the step that accepts the command begins it, and the sequencer leads to where its meaning ends. -/
theorem watchedOperationEndsAsItsMeaningSays : Obligations.WatchedOperationEndsAsItsMeaningSays := by
  unfold Obligations.WatchedOperationEndsAsItsMeaningSays
  intro s w hidle hinner hwf
  obtain ⟨t, hx⟩ := everyInstructionEnds (decodeHost w) (accept w { s with host := [], rspValid := false }) hwf
  obtain ⟨s', hstart, hreaches, hquiet⟩ := startCommand_reaches
    (s := accept w { s with host := [], rspValid := false }) hwf rfl rfl hx
  have hstep : step { s with host := [.start w] } = .next s' := 
    (step_of_start (s := { s with host := [.start w] }) hidle hinner rfl).trans hstart
  have hrun : ∃ n, Host.Core.run Sys2Proof.core n s' = .next t := by
    obtain rfl | ⟨hpulse, hhost, hinner'⟩ := hquiet
    · exact ⟨0, rfl⟩
    · exact hreaches.run hpulse hhost (hinner'.trans hinner)
  obtain ⟨n, hn⟩ := hrun
  exact ⟨n + 1, t, (run_succ_of_step hstep n).trans hn, 
    (step_of_command (s := { s with host := [.command w] }) hidle hinner rfl).trans hx,
    exec_idle hx hidle, exec_decodeHost_pulse hx⟩

end Sys2Proof.Machine

/-! The discipline of the line inside an operation (R13, R35, R44, R63): one rule per event. -/

namespace Sys2Proof.Machine

/-- The outputs are as the flags say, the trace explains them, and it is in order of time. -/
structure Disciplined (c : Config) (driven inRegion : Bool) (e : Engine) : Prop where
  drive : e.drv = if driven then .low else .released
  region : e.crit = (c.hasCritical && inRegion)
  pins : pinsAfter c.hasCritical e.log = some (e.drv, e.crit)
  ordered : (e.now :: e.log.map Prod.fst).Pairwise (fun later earlier => earlier ≤ later)

namespace Disciplined

section

variable {c : Config} {driven inRegion : Bool} {e : Engine}

/-- Time passes without an event. -/
theorem ordered_later (h : Disciplined c driven inRegion e) {now : Nat} (hnow : e.now ≤ now) :
    (now :: e.log.map Prod.fst).Pairwise (fun later earlier => earlier ≤ later) := by
  obtain ⟨hnow', hlog⟩ := List.pairwise_cons.mp h.ordered
  exact List.pairwise_cons.mpr ⟨fun t ht => (hnow' t ht).trans hnow, hlog⟩

/-- An event is recorded at the present time, which may pass before the next. -/
theorem ordered_emit (h : Disciplined c driven inRegion e) {now : Nat} (hnow : e.now ≤ now) (ev : Event) :
    (now :: ((e.now, ev) :: e.log).map Prod.fst).Pairwise (fun later earlier => earlier ≤ later) := by
  refine List.pairwise_cons.mpr ⟨fun t ht => ?_, h.ordered⟩
  obtain ⟨hnow', -⟩ := List.pairwise_cons.mp h.ordered
  obtain rfl | ht := List.mem_cons.mp ht
  · exact hnow
  · exact (hnow' t ht).trans hnow

/-- The transient registers are no part of it. -/
theorem withTr (h : Disciplined c driven inRegion e) (tr : Transients) : Disciplined c driven inRegion { e with tr := tr } :=
  ⟨h.drive, h.region, h.pins, h.ordered⟩

theorem gap (h : Disciplined c driven inRegion e) : Disciplined c driven inRegion (gap c e) :=
  ⟨h.drive, h.region, h.pins, h.ordered_later (Nat.le_add_right _ _)⟩

theorem tick (h : Disciplined c driven inRegion e) : Disciplined c driven inRegion (tick e) :=
  ⟨h.drive, h.region, h.pins, h.ordered_later (Nat.le_succ _)⟩

/-- A recorded event that the discipline has leaves the outputs it says (R35). -/
theorem pinsAfter_cons (h : Disciplined c driven inRegion e) (t : Nat) {ev : Event} {pins : Drive × Bool}
    (hstep : pinsStep c.hasCritical (if driven then .low else .released, c.hasCritical && inRegion) ev = some pins) :
    pinsAfter c.hasCritical ((t, ev) :: e.log) = some pins := by
  rw [pinsAfter, h.pins]
  simp only [h.drive, h.region]
  exact hstep

theorem configure (h : Disciplined c false false e) (line : BitVec 64) (ok : Bool) :
    Disciplined c false false (emit (.configure line ok) e) where
  drive := h.drive
  region := h.region
  pins := h.pinsAfter_cons _ (by rw [emit_drv, emit_crit, h.drive, h.region]; cases c.hasCritical <;> rfl)
  ordered := h.ordered_emit le_rfl _

theorem critEnter (h : Disciplined c false false e) : Disciplined c false true (critEnter c e) where
  drive := by simpa using h.drive
  region := by simp [h.region]
  pins := by
    cases hc : c.hasCritical with
    | true =>
      have hp := h.pinsAfter_cons e.now (ev := .critEnter) (pins := (.released, true)) (by rw [hc]; rfl)
      simpa [hc, h.drive] using hp
    | false => simpa [hc] using h.pins
  ordered := by
    rw [critEnter_now, critEnter_log]
    split
    · exact h.ordered_emit le_rfl _
    · exact h.ordered

theorem critExit (h : Disciplined c false true e) : Disciplined c false false (critExit c e) where
  drive := by simpa using h.drive
  region := by simp [h.region]
  pins := by
    cases hc : c.hasCritical with
    | true =>
      have hp := h.pinsAfter_cons e.now (ev := .critExit) (pins := (.released, false)) (by rw [hc]; rfl)
      simpa [hc, h.drive] using hp
    | false => simpa [hc] using h.pins
  ordered := by
    rw [critExit_now, critExit_log]
    split
    · exact h.ordered_emit le_rfl _
    · exact h.ordered

theorem driveLow (h : Disciplined c false true e) : Disciplined c true true (driveLow e) where
  drive := rfl
  region := h.region
  pins := h.pinsAfter_cons _ (by rw [driveLow_drv, driveLow_crit, h.region]; cases c.hasCritical <;> rfl)
  ordered := h.ordered_emit le_rfl _

theorem release (h : Disciplined c true true e) : Disciplined c false true (release e) where
  drive := rfl
  region := h.region
  pins := h.pinsAfter_cons _ (by rw [release_drv, release_crit, h.region]; cases c.hasCritical <;> rfl)
  ordered := h.ordered_emit le_rfl _

theorem sample (h : Disciplined c false true e) : Disciplined c false true (sample e) where
  drive := h.drive
  region := h.region
  pins := h.pinsAfter_cons _ (by rw [sample_drv, sample_crit, h.drive, h.region]; cases c.hasCritical <;> rfl)
  ordered := h.ordered_emit le_rfl _

theorem startDelay (h : Disciplined c driven true e) (n : Nat) : Disciplined c driven true (startDelay c n e) where
  drive := h.drive
  region := h.region
  pins := h.pinsAfter_cons _ (by rw [startDelay_drv, startDelay_crit, h.drive, h.region]; cases c.hasCritical <;> cases driven <;> rfl)
  ordered := h.ordered_emit (Nat.le_add_right _ _) _

end

end Disciplined

/-! The points of a primitive. -/

section

variable {c : Config} {e e' : Engine}

theorem disciplined_writePoint {bit : Bool} {p p' : WritePoint} (h : writePoint c bit p e = (e', some p'))
    (hd : Disciplined c p.driven (decide (p ≠ .critEnter)) e) : Disciplined c p'.driven (decide (p' ≠ .critEnter)) e' := by
  cases p <;> cases h
  case critEnter => exact hd.critEnter
  case driveLow => exact hd.driveLow
  case lowDelay => exact hd.startDelay _
  case release => exact hd.release
  case tailDelay => exact hd.startDelay _

theorem disciplined_readPoint {p p' : ReadPoint} (h : readPoint c p e = (e', some p'))
    (hd : Disciplined c p.driven (decide (p ≠ .critEnter)) e) : Disciplined c p'.driven (decide (p' ≠ .critEnter)) e' := by
  cases p <;> cases h
  case critEnter => exact hd.critEnter
  case driveLow => exact hd.driveLow
  case lowDelay | settleDelay | tailDelay => exact hd.startDelay _
  case release => exact hd.release
  case sample => exact hd.sample

theorem disciplined_resetPoint {p p' : ResetPoint} (h : resetPoint c p e = (e', .ok p'))
    (hd : Disciplined c p.driven (decide (p ≠ .critEnter)) e) : Disciplined c p'.driven (decide (p' ≠ .critEnter)) e' := by
  cases p
  case riseSample =>
    simp only [resetPoint] at h
    split at h
    · cases h
      exact hd.sample.withTr _
    · cases h
      split <;> exact hd.sample
  case fallSample =>
    cases h
    split
    · split <;> exact hd.sample
    · exact hd.sample
  case idleSample =>
    cases h
    split <;> exact hd.sample
  all_goals cases h
  case critEnter => exact hd.critEnter
  case driveLow => exact hd.driveLow
  case lowDelay | remainder => exact hd.startDelay _
  case release => exact hd.release
  case recDelay | riseDelay | fallDelay => exact (hd.startDelay _).withTr _

end

/-- The event inside a region is every one but the entering one. -/
theorem Phase.inRegion_eq :
    (∀ p, (Phase.reset p).inRegion = decide (p ≠ .critEnter)) ∧ (∀ p, (Phase.command p).inRegion = decide (p ≠ .critEnter)) ∧
    (∀ p, (Phase.payload p).inRegion = decide (p ≠ .critEnter)) ∧ (∀ p, (Phase.receive p).inRegion = decide (p ≠ .critEnter)) ∧
    (∀ p, (Phase.pairTrue p).inRegion = decide (p ≠ .critEnter)) ∧ (∀ p, (Phase.pairComp p).inRegion = decide (p ≠ .critEnter)) ∧
    (∀ p, (Phase.answer p).inRegion = decide (p ≠ .critEnter)) := by
  refine ⟨?_, ?_, ?_, ?_, ?_, ?_, ?_⟩ <;> intro p <;> cases p <;> rfl

/-- An event inside a primitive keeps the discipline. -/
theorem Inside.disciplined {c : Config} {e e' : Engine} {phase phase' : Phase} (h : Inside c e phase phase' e')
    (hd : Disciplined c phase.driven phase.inRegion e) : Disciplined c phase'.driven phase'.inRegion e' := by
  obtain ⟨hreset, hcommand, hpayload, hreceive, htrue, hcomp, hanswer⟩ := Phase.inRegion_eq
  cases h with
  | reset h =>
    rw [hreset] at hd ⊢
    exact disciplined_resetPoint h hd
  | command h =>
    rw [hcommand] at hd ⊢
    exact disciplined_writePoint h hd
  | payload h =>
    rw [hpayload] at hd ⊢
    exact disciplined_writePoint h hd
  | answer h =>
    rw [hanswer] at hd ⊢
    exact disciplined_writePoint h hd
  | receive h =>
    rw [hreceive] at hd ⊢
    exact disciplined_readPoint h hd
  | pairTrue h =>
    rw [htrue] at hd ⊢
    exact disciplined_readPoint h hd
  | pairComp h =>
    rw [hcomp] at hd ⊢
    exact disciplined_readPoint h hd

end Sys2Proof.Machine

/-! The invariant in its parts: registers, line, and the operation in progress (R33, R35, R36, R44, R177). -/

namespace Sys2Proof.Machine

/-- What the invariant says of the persistent registers. -/
structure RegsInv (c : Config) (r : Regs) : Prop where
  armedRom : r.forkBit = forkStart → r.rom = zeroRom
  forkZero : 1 ≤ r.forkBit.val → r.forkBit.val ≤ 64 → romBit r.rom r.forkBit.val = false
  freshCursor : r.initialized = false → r.rom = zeroRom ∧ r.forkBit = 0
  handle : r.initialized = true → lineValid c r.lineId = true ∧ r.pullUp = true
  lineWidth : r.lineId.toNat < 2 ^ c.lineIdW.val

/-- The outcome and the data register are no part of it. -/
theorem RegsInv.withResult {c : Config} {r : Regs} (h : RegsInv c r) (st : Status) (data : BitVec 64) :
    RegsInv c { r with status := st, rdata := data } :=
  ⟨h.armedRom, h.forkZero, h.freshCursor, h.handle, h.lineWidth⟩

/-- An uninitialised block has left the line alone (R44). -/
def Quiet (s : State) : Prop := s.regs.initialized = false → ∀ x ∈ s.eng.log, x.2.touchesLine = false

section

variable {s t : State} {op : HostOp} {phase : Phase}

theorem Inv.regs (h : Inv s) : RegsInv s.cfg s.regs :=
  ⟨h.armedRom, h.forkZero, h.freshCursor, h.handle, h.lineWidth⟩

theorem Inv.disciplined_idle (h : Inv s) (hidle : s.seq = .idle) : Disciplined s.cfg false false s.eng where
  drive := (h.idlePins hidle).1
  region := by rw [(h.idlePins hidle).2, Bool.and_false]
  pins := h.pins
  ordered := h.ordered

theorem Inv.disciplined_busy (h : Inv s) (hbusy : s.seq = .busy op phase) :
    Disciplined s.cfg phase.driven phase.inRegion s.eng where
  drive := (h.busy op phase hbusy).drive
  region := (h.busy op phase hbusy).region
  pins := h.pins
  ordered := h.ordered

/-- The invariant of an idle block. -/
theorem inv_of_idle (hidle : s.seq = .idle) (hwf : s.cfg.wf = true) (hinner : s.inner = none) (hregs : RegsInv s.cfg s.regs)
    (hquiet : Quiet s) (hd : Disciplined s.cfg false false s.eng) : Inv s where
  config := hwf
  noInner := hinner
  armedRom := hregs.armedRom
  forkZero := hregs.forkZero
  freshCursor := hregs.freshCursor
  quiet := hquiet
  handle := hregs.handle
  lineWidth := hregs.lineWidth
  pins := hd.pins
  ordered := hd.ordered
  idlePins := fun _ => ⟨hd.drive, by rw [hd.region, Bool.and_false]⟩
  busy := fun _ _ hbusy => absurd (hidle.symm.trans hbusy) nofun

/-- What the invariant says of an operation in progress, the line aside. -/
structure OpInv (op : HostOp) (phase : Phase) (s : State) : Prop where
  own : hasPhase op phase = true
  gateOpen : op ≠ .init → s.regs.initialized = true
  armed : op = .searchNext → s.regs.forkBit ≠ 0
  noPulse : s.rspValid = false
  timed : phase.inRegion = false → s.eng.tr.timer = 0
  counters : phase.countersOk op s

theorem Inv.opInv (h : Inv s) (hbusy : s.seq = .busy op phase) : OpInv op phase s :=
  have hop := h.busy op phase hbusy
  ⟨hop.own, hop.gateOpen, hop.armed, hop.noPulse, hop.timed, hop.counters⟩

/-- The invariant of a busy block. -/
theorem inv_of_busy (hbusy : s.seq = .busy op phase) (hwf : s.cfg.wf = true) (hinner : s.inner = none)
    (hregs : RegsInv s.cfg s.regs) (hquiet : Quiet s) (hd : Disciplined s.cfg phase.driven phase.inRegion s.eng)
    (hop : OpInv op phase s) : Inv s where
  config := hwf
  noInner := hinner
  armedRom := hregs.armedRom
  forkZero := hregs.forkZero
  freshCursor := hregs.freshCursor
  quiet := hquiet
  handle := hregs.handle
  lineWidth := hregs.lineWidth
  pins := hd.pins
  ordered := hd.ordered
  idlePins := fun hidle => absurd (hbusy.symm.trans hidle) nofun
  busy := by
    intro op' phase' hbusy'
    cases hbusy.symm.trans hbusy'
    refine ⟨hop.own, hop.gateOpen, hop.armed, hop.noPulse, hd.drive, ?_, hd.region, hop.timed, hop.counters⟩
    rw [State.lineOe, hd.drive]
    cases phase.driven <;> rfl

/-- An operation but `init` is in an initialised block, so that nothing is asked of its trace (R44, R104). -/
theorem quiet_of_initialized (h : s.regs.initialized = true) : Quiet s := fun h' => absurd (h.symm.trans h') nofun

/-- The host's inputs and, in an idle block, the pulse are no part of the invariant. -/
theorem Inv.withHost (h : Inv s) (host : List HostInput) : Inv { s with rspValid := false, host := host } := by
  cases hseq : s.seq with
  | idle =>
    exact inv_of_idle rfl h.config h.noInner h.regs h.quiet (h.disciplined_idle hseq)
  | busy op phase =>
    have hop := h.opInv hseq
    refine inv_of_busy rfl h.config h.noInner h.regs h.quiet (h.disciplined_busy hseq)
      ⟨hop.own, hop.gateOpen, hop.armed, rfl, hop.timed, ?_⟩
    exact hop.counters

/-! Where an operation is after an event inside a primitive. -/

theorem writePoint_tr {c : Config} {bit : Bool} {p p' : WritePoint} {e e' : Engine}
    (h : writePoint c bit p e = (e', some p')) : ∃ n, e'.tr = { e.tr with timer := n } := by
  cases p <;> cases h
  case critEnter => exact ⟨e.tr.timer, critEnter_tr e c⟩
  all_goals exact ⟨_, rfl⟩

theorem readPoint_tr {c : Config} {p p' : ReadPoint} {e e' : Engine} (h : readPoint c p e = (e', some p')) :
    ∃ n v, e'.tr = { e.tr with timer := n, v := v } := by
  cases p <;> cases h
  case critEnter => exact ⟨e.tr.timer, e.tr.v, critEnter_tr e c⟩
  all_goals exact ⟨_, _, rfl⟩

/-- The poll counters at the points of the bus reset (R113, R114). -/
theorem countersOk_resetPoint {p p' : ResetPoint} {e : Engine} (h : resetPoint s.cfg p s.eng = (e, .ok p'))
    (hcounters : (Phase.reset p).countersOk op s) :
    (Phase.reset p').countersOk op (goOn op phase { s with eng := e }) := by
  cases p
  case riseSample =>
    simp only [resetPoint] at h
    split at h
    · cases h
      exact ⟨hcounters, Nat.zero_le _⟩
    · cases h
      split
      · trivial
      · exact Nat.lt_of_not_le ‹_›
  case fallSample =>
    obtain ⟨hrise, hfall⟩ := hcounters
    cases h
    split
    · split
      · trivial
      · exact ⟨hrise, Nat.lt_of_not_le ‹_›⟩
    · exact ⟨hrise, hfall⟩
  case idleSample =>
    cases h
    split <;> trivial
  case recDelay =>
    cases h
    exact Nat.zero_le _
  all_goals cases h
  case riseDelay => exact Nat.succ_le_of_lt hcounters
  case fallDelay => exact ⟨hcounters.1, Nat.succ_le_of_lt hcounters.2⟩
  all_goals trivial

/-- An event inside a primitive keeps the loop counters in their ranges (R36). -/
theorem Inside.countersOk {phase' : Phase} {e : Engine} (h : Inside s.cfg s.eng phase phase' e)
    (hcounters : phase.countersOk op s) : phase'.countersOk op (goOn op phase' { s with eng := e }) := by
  cases h with
  | reset h => exact countersOk_resetPoint h hcounters
  | command h | payload h | answer h =>
    obtain ⟨n, htr⟩ := writePoint_tr h
    simp only [Phase.countersOk, goOn_eng, htr]
    exact hcounters
  | receive h | pairTrue h | pairComp h =>
    obtain ⟨n, v, htr⟩ := readPoint_tr h
    simp only [Phase.countersOk, Phase.countersOk.searchOk, goOn_eng, htr]
    exact hcounters

theorem Inside.inRegion {c : Config} {e e' : Engine} {phase' : Phase} (h : Inside c e phase phase' e') :
    phase'.inRegion = true := by
  cases h with
  | reset h =>
    rename_i p p'
    cases p
    case riseSample =>
      simp only [resetPoint] at h
      split at h
      · cases h
        rfl
      · cases h
        split <;> rfl
    case fallSample =>
      cases h
      split
      · split <;> rfl
      · rfl
    case idleSample =>
      cases h
      split <;> rfl
    all_goals cases h <;> rfl
  | command h | payload h | answer h =>
    rename_i p p'
    cases p <;> cases h <;> rfl
  | receive h | pairTrue h | pairComp h =>
    rename_i p p'
    cases p <;> cases h <;> rfl

end

end Sys2Proof.Machine

/-! Every step of the sequencer keeps the invariant (R13, R29, R35, R44, R63, R177). -/

namespace Sys2Proof.Machine

section

variable {s t : State} {op : HostOp} {phase : Phase}

/-- The loop counters are transient registers, their limits parameters (R36). -/
theorem countersOk_congr {s' : State} (hcfg : s'.cfg = s.cfg) (htr : s'.eng.tr = s.eng.tr)
    (h : phase.countersOk op s) : phase.countersOk op s' := by
  cases phase <;> simp only [Phase.countersOk, Phase.countersOk.searchOk, hcfg, htr] at h ⊢ <;> exact h

/-! What comes after a primitive. -/

theorem After.frame (h : After s op phase t) : t.cfg = s.cfg ∧ t.inner = s.inner := by
  cases h <;> exact ⟨rfl, rfl⟩

theorem After.timer (h : After s op phase t) : t.eng.tr.timer = s.eng.tr.timer := by
  cases h <;> rfl

/-- No event happens between two primitives. -/
theorem After.eng (h : After s op phase t) :
    ∃ tr, t.eng = { s.eng with tr := tr } ∨ t.eng = gap s.cfg { s.eng with tr := tr } := by
  cases h
  case reset | resetFailed | commandSent | payloadSent | byteRead | romRead | aborted | committed =>
    exact ⟨_, .inl rfl⟩
  all_goals exact ⟨_, .inr rfl⟩

theorem After.ne_init (h : After s op phase t) (hown : hasPhase op phase = true) : op ≠ .init := by
  rintro rfl
  cases h <;> cases hown

theorem After.disciplined (h : After s op phase t) (hd : Disciplined s.cfg false false s.eng) :
    Disciplined t.cfg false false t.eng := by
  rw [h.frame.1]
  obtain ⟨tr, heng | heng⟩ := h.eng
  · exact heng ▸ hd.withTr tr
  · exact heng ▸ (hd.withTr tr).gap

/-- The phase after it is the first of a primitive, outside any region. -/
theorem After.outside (h : After s op phase t) {op' : HostOp} {phase' : Phase} (hbusy : t.seq = .busy op' phase') :
    phase'.driven = false ∧ phase'.inRegion = false := by
  cases h <;> cases hbusy <;> exact ⟨rfl, rfl⟩

/-- The decision at a position records the position itself, where it chose 0, or nothing (R173, R174). -/
theorem decideBit_newFork {fork newFork : Fin 66} {pos : Nat} {prev b nb : Bool} {d : Bool × Fin 66}
    (h : decideBit fork pos prev b nb newFork = some d) (hpos : pos ≤ 64) :
    d.2 = newFork ∨ (d.2.val = pos ∧ d.1 = false) := by
  have hval : (Fin.ofNat 66 pos).val = pos := Nat.mod_eq_of_lt (by omega)
  cases b <;> cases nb <;> simp only [decideBit] at h
  case false.false =>
    split at h
    · cases h
      cases prev
      · exact .inr ⟨hval, rfl⟩
      · exact .inl rfl
    · split at h <;> cases h
      · exact .inl rfl
      · exact .inr ⟨hval, rfl⟩
  case false.true | true.false =>
    cases h
    exact .inl rfl
  case true.true => cases h

/-- The branch of a position stored, the fork point recorded so far is a position where 0 was chosen (R173, R176). -/
theorem romBit_storeChosen (h : (Phase.answer .critExit).countersOk .searchNext s)
    (hfork : 1 ≤ s.eng.tr.newFork.val) : romBit (storeChosen s.eng).tr.newRom s.eng.tr.newFork.val = false := by
  obtain ⟨hpos, hpos', hle, hlast, hearlier⟩ := h
  rw [storeChosen_tr, romBit_setRomBit _ _ hpos hpos' hfork (by omega)]
  split
  · exact hlast ‹_›
  · exact hearlier hfork (by omega)

/-- A committed pass leaves a fork point where its code has a 0 (R177). -/
theorem RegsInv.commit {c : Config} {r : Regs} (h : RegsInv c r) (hinit : r.initialized = true) {rom : RomCode}
    {fork : Fin 66} (hle : fork.val ≤ 64) (hzero : 1 ≤ fork.val → romBit rom fork.val = false) :
    RegsInv c { r with rom := rom, forkBit := fork } where
  armedRom := fun hf => absurd (congrArg Fin.val hf) (by
    rw [forkStart]
    exact Nat.ne_of_lt (Nat.lt_of_le_of_lt hle (by decide)))
  forkZero := fun hf _ => hzero hf
  freshCursor := fun h' => absurd (hinit.symm.trans h') nofun
  handle := h.handle
  lineWidth := h.lineWidth

theorem After.regsInv (h : After s op phase t) (hregs : RegsInv s.cfg s.regs) (hinit : s.regs.initialized = true)
    (hcounters : phase.countersOk op s) : RegsInv s.cfg t.regs := by
  cases h
  case reset | resetFailed | commandSent | payloadSent | byteRead | romRead | aborted => exact hregs.withResult _ _
  case committed hlast =>
    have hzero := romBit_storeChosen hcounters
    obtain ⟨-, hpos', hle, -⟩ := hcounters
    exact (hregs.commit hinit (hle.trans hpos') hzero).withResult _ _
  all_goals exact hregs

/-- What comes after a primitive has its loop counters in range, and the search what it has found so far (R36, R173, R176). -/
theorem After.countersOk (h : After s op phase t) (hcounters : phase.countersOk op s) {phase' : Phase}
    (hbusy : t.seq = .busy op phase') : phase'.countersOk op t := by
  cases h <;> cases hbusy
  case resetOk => exact (by decide : 0 < 8)
  case commandBit hbit _ => exact hbit
  case readRom => exact ⟨(by decide : 0 < 8), fun _ => (by decide : 0 < 8)⟩
  case matchRom => exact ⟨(by decide : 0 < 8), (by decide : 0 < 8)⟩
  case search => exact ⟨le_rfl, (by decide : 1 ≤ 64), (by decide : 0 < 1), fun hfork => absurd hfork (by decide : ¬ 1 ≤ 0)⟩
  case payloadBit hbit => exact ⟨hbit, hcounters.2⟩
  case payloadByte hbyte => exact ⟨(by decide : 0 < 8), hbyte⟩
  case receiveBit hbit _ => exact ⟨hbit, hcounters.2⟩
  case receiveByte hbyte => exact ⟨(by decide : 0 < 8), fun _ => hbyte⟩
  case pairTrue => exact hcounters
  case decided d hd =>
    obtain ⟨hpos, hpos', hlt, hzero⟩ := hcounters
    obtain hnew | ⟨hnew, hchosen⟩ := decideBit_newFork hd hpos'
    · have hnew' : d.2 = s.eng.tr.newFork := hnew
      have hlt' : d.2.val < s.eng.tr.pos := hnew' ▸ hlt
      refine ⟨hpos, hpos', hlt'.le, fun heq => absurd heq hlt'.ne, fun hfork _ => ?_⟩
      have hfork' : 1 ≤ d.2.val := hfork
      change romBit s.eng.tr.newRom d.2.val = false
      rw [hnew'] at hfork' ⊢
      exact hzero hfork'
    · exact ⟨hpos, hpos', hnew.le, fun _ => hchosen, fun _ hlt' => absurd hnew (Nat.ne_of_lt hlt')⟩
  case answered hnext =>
    have hzero := romBit_storeChosen hcounters
    obtain ⟨hpos, hpos', hle, -⟩ := hcounters
    exact ⟨Nat.le_add_left _ _, hnext, Nat.lt_succ_of_le hle, hzero⟩

/-- The operation goes on in a phase of its own, its pulse and registers as they were. -/
theorem After.goesOn (h : After s op phase t) {op' : HostOp} {phase' : Phase} (hbusy : t.seq = .busy op' phase') :
    op' = op ∧ hasPhase op phase' = true ∧ t.regs = s.regs ∧ t.rspValid = s.rspValid := by
  cases h <;> cases hbusy
  case resetOk hplan =>
    cases op <;> cases hplan <;> exact ⟨rfl, rfl, rfl, rfl⟩
  case commandBit _ hown => exact ⟨rfl, (hasPhase_congr op).2.1 _ _ ▸ hown, rfl, rfl⟩
  case receiveBit _ hown => exact ⟨rfl, (hasPhase_congr op).2.2.2 _ _ ▸ hown, rfl, rfl⟩
  all_goals exact ⟨rfl, rfl, rfl, rfl⟩

/-! One step of the sequencer. -/

/-- A line identifier has `LINE_ID_W` bits (R27, R53). -/
theorem lineIdOf_lt (c : Config) (arg : BitVec 64) : (lineIdOf c arg).toNat < 2 ^ c.lineIdW.val := by
  rw [lineIdOf, BitVec.toNat_ofNat]
  exact (Nat.mod_le _ _).trans_lt (Nat.mod_lt _ (Nat.two_pow_pos _))

/-- The `Configure` event (R100, R101). -/
theorem configureLine_inv (h : Inv s) (hbusy : s.seq = .busy .init .configure) (arg : BitVec 64) :
    Inv (configureLine arg s) := by
  have hd : Disciplined s.cfg false false s.eng := h.disciplined_busy hbusy
  by_cases hmem : lineIdOf s.cfg arg ∈ s.cfg.lineValid
  · rw [configureLine_of_mem hmem]
    refine inv_of_idle rfl h.config h.noInner ?_ (quiet_of_initialized rfl) (hd.configure _ _)
    exact ⟨h.armedRom, h.forkZero, nofun, fun _ => ⟨lineValid_eq_true_iff.mpr hmem, rfl⟩, lineIdOf_lt _ _⟩
  · rw [configureLine_of_not_mem hmem]
    refine inv_of_idle rfl h.config h.noInner (h.regs.withResult _ _) (fun hinit => ?_) (hd.configure _ _)
    exact List.forall_mem_cons.mpr ⟨rfl, h.quiet hinit⟩

/-- The end of a primitive. -/
theorem After.inv (hinv : Inv s) (hbusy : s.seq = .busy op phase) (htimer : s.eng.tr.timer = 0)
    (hdriven : phase.driven = false) (hregion : phase.inRegion = true)
    (h : After { s with eng := critExit s.cfg s.eng } op phase t) : Inv t := by
  have hop := hinv.opInv hbusy
  have hinit := hop.gateOpen (h.ne_init hop.own)
  have hd : Disciplined s.cfg false true s.eng := by
    simpa only [hdriven, hregion] using hinv.disciplined_busy hbusy
  have hd' : Disciplined t.cfg false false t.eng := h.disciplined hd.critExit
  have hcounters : phase.countersOk op { s with eng := critExit s.cfg s.eng } :=
    countersOk_congr (s := s) rfl (critExit_tr _ _) hop.counters
  obtain ⟨hcfg, hinner⟩ := h.frame
  have hwf : t.cfg.wf = true := hcfg ▸ hinv.config
  have hregs : RegsInv t.cfg t.regs := hcfg ▸ h.regsInv hinv.regs hinit hcounters
  have hquiet : Quiet t := by
    refine quiet_of_initialized ?_
    obtain ⟨phase', e, rfl⟩ | ⟨st, e, regs, rfl, hkept⟩ := h.goesOnOrEnds
    · exact hinit
    · exact hkept hinit
  cases hseq : t.seq with
  | idle => exact inv_of_idle hseq hwf (hinner.trans hinv.noInner) hregs hquiet hd'
  | busy op' phase' =>
    obtain ⟨rfl, hown, hregs', hpulse⟩ := h.goesOn hseq
    obtain ⟨hdriven', hregion'⟩ := h.outside hseq
    refine inv_of_busy hseq hwf (hinner.trans hinv.noInner) hregs hquiet (by rwa [hdriven', hregion'])
      ⟨hown, fun _ => hregs' ▸ hinit, fun hop' => hregs' ▸ hop.armed hop', hpulse.trans hop.noPulse, fun _ => ?_,
        h.countersOk hcounters hseq⟩
    rw [h.timer]
    simpa using htimer

theorem Inside.ne_init {c : Config} {e e' : Engine} {phase' : Phase} (h : Inside c e phase phase' e')
    (hown : hasPhase op phase = true) : op ≠ .init := by
  rintro rfl
  cases h <;> cases hown

theorem Moves.inv (hinv : Inv s) (hbusy : s.seq = .busy op phase) (htimer : s.eng.tr.timer = 0)
    (h : Moves s op phase t) : Inv t := by
  have hop := hinv.opInv hbusy
  cases h with
  | configure => exact configureLine_inv hinv hbusy _
  | inside hown h =>
    have hinit := hop.gateOpen (h.ne_init hop.own)
    exact inv_of_busy rfl hinv.config hinv.noInner hinv.regs (quiet_of_initialized hinit)
      (h.disciplined (hinv.disciplined_busy hbusy))
      ⟨hown, fun _ => hinit, hop.armed, hop.noPulse, fun hout => absurd (h.inRegion.symm.trans hout) nofun,
        h.countersOk hop.counters⟩
  | after h =>
    have hexit : phase.driven = false ∧ phase.inRegion = true := by cases h <;> exact ⟨rfl, rfl⟩
    exact h.inv hinv hbusy htimer hexit.1 hexit.2

/-- A pulse of the time base (R218). -/
theorem tick_inv (hinv : Inv s) (hbusy : s.seq = .busy op phase) (htimer : 0 < s.eng.tr.timer) :
    Inv { s with eng := tick s.eng } := by
  have hop := hinv.opInv hbusy
  refine inv_of_busy hbusy hinv.config hinv.noInner hinv.regs hinv.quiet (hinv.disciplined_busy hbusy).tick
    ⟨hop.own, hop.gateOpen, hop.armed, hop.noPulse, fun hout => ?_, ?_⟩
  · exact absurd (hop.timed hout) (Nat.ne_of_gt htimer)
  · have hcounters := hop.counters
    cases phase <;> exact hcounters

theorem sequencerStep_inv (hinv : Inv s) (h : sequencerStep s = .next t) : Inv t := by
  obtain ⟨-, rfl⟩ | ⟨op, phase, hbusy, -, hown, ⟨htimer, rfl⟩ | ⟨htimer, hevent⟩⟩ := sequencerStep_cases h
  · exact hinv
  · exact tick_inv hinv hbusy htimer
  · obtain ⟨t', ht', hmoves⟩ := phaseEvent_moves (s := s) hown
    obtain rfl : t' = t := Host.Outcome.next.inj (ht'.symm.trans hevent)
    exact hmoves.inv hinv hbusy htimer

theorem Reaches.inv (h : Reaches s t) (hinv : Inv s) : Inv t := by
  induction h with
  | refl => exact hinv
  | tail _ hstep ih => exact sequencerStep_inv ih hstep.2

end

end Sys2Proof.Machine

/-! Every step of the machine keeps the invariant, and none stops (R23, R33, R44, R214). -/

namespace Sys2Proof.Machine

section

variable {s t : State}

/-! A command begun. -/

/-- What a phase outside any region needs for the invariant to hold when an idle block begins with it. -/
theorem inPhase_inv (hinv : Inv s) (hidle : s.seq = .idle) {op : HostOp} {phase : Phase} {tr : Transients}
    (hdriven : phase.driven = false) (hregion : phase.inRegion = false)
    (hop : OpInv op phase (inPhase s op phase { s.eng with tr := tr })) :
    Inv (inPhase s op phase { s.eng with tr := tr }) := by
  refine inv_of_busy rfl hinv.config hinv.noInner hinv.regs hinv.quiet ?_ hop
  rw [hdriven, hregion]
  exact (hinv.disciplined_idle hidle).withTr tr

theorem firstPhase_inv (hinv : Inv s) (hidle : s.seq = .idle) (hpulse : s.rspValid = false)
    (htimer : s.eng.tr.timer = 0) {i : Instr} (hfirst : firstPhase i s = some t) : Inv t := by
  obtain ⟨a, rfl, rfl⟩ | ⟨hinit, ⟨rfl, rfl⟩ | ⟨byte, rfl, rfl⟩ | ⟨rfl, rfl⟩ | ⟨rfl, rfl⟩ | ⟨rfl, rfl⟩ | ⟨code, rfl, rfl⟩ |
    ⟨rfl, hfork, rfl⟩⟩ := firstPhase_eq hfirst
  case inl => exact inPhase_inv hinv hidle rfl rfl ⟨rfl, fun h => absurd rfl h, nofun, hpulse, fun _ => htimer, trivial⟩
  case inr.inr.inl =>
    exact inPhase_inv hinv hidle rfl rfl ⟨rfl, fun _ => hinit, nofun, hpulse, fun _ => htimer, (by decide : 0 < 8)⟩
  case inr.inr.inr.inl =>
    exact inPhase_inv hinv hidle rfl rfl
      ⟨rfl, fun _ => hinit, nofun, hpulse, fun _ => htimer, (by decide : 0 < 8), nofun⟩
  case inr.inr.inr.inr.inr.inr.inr =>
    exact inPhase_inv hinv hidle rfl rfl ⟨rfl, fun _ => hinit, fun _ => hfork, hpulse, fun _ => htimer, trivial⟩
  all_goals exact inPhase_inv hinv hidle rfl rfl ⟨rfl, fun _ => hinit, nofun, hpulse, fun _ => htimer, trivial⟩

/-- A host command without an event completes at once: only the outcome is written, or the cursor is armed (R68, R104,
R170, R171). -/
theorem exec_of_firstPhase_none {w : CmdWord} (h : firstPhase (decodeHost w) s = none)
    (hx : exec (decodeHost w) s = .next t) : (∃ st, t = endOperation st s) ∨ (s.regs.initialized = true ∧
      t = endOperation .ok { s with regs := { s.regs with rom := zeroRom, forkBit := forkStart } }) := by
  have hwf := config_wf_of_exec hx
  have hnone : hasEvent s.regs (decodeHost w) = false := by rw [← firstPhase_isSome, h]; rfl
  have hhost := decodeHost_not_mem_innerInstrs w
  generalize decodeHost w = i at hx hnone hhost
  have hclosed : ∀ st, stateError i = some st → s.regs.initialized = false → ∃ st, t = endOperation st s :=
    fun st hst hi => ⟨st, Host.Outcome.next.inj (hx.symm.trans (exec_of_uninitialized hwf hi hst))⟩
  cases i
  case init => cases hnone
  case reset | sendByte | readByte | skipRom | readRom | matchRom => exact .inl (hclosed _ rfl hnone)
  case searchInit =>
    cases hi : s.regs.initialized with
    | false => exact .inl (hclosed _ rfl hi)
    | true => exact .inr ⟨rfl, Host.Outcome.next.inj (hx.symm.trans (exec_searchInit hwf hi))⟩
  case searchNext =>
    cases hi : s.regs.initialized with
    | false => exact .inl (hclosed _ rfl hi)
    | true =>
      rw [hasEvent, hi, Bool.true_and] at hnone
      have hf : s.regs.forkBit = 0 := of_not_not (of_decide_eq_false hnone)
      exact .inl ⟨_, Host.Outcome.next.inj (hx.symm.trans (exec_searchNext_of_forkBit_eq_zero hwf hf))⟩
  case illegal9 | illegalA | illegalB | illegalC | illegalD | illegalE | illegalF =>
    exact .inl ⟨_, exec_illegal_eq (by simp [illegalInstrs]) hx⟩
  all_goals exact absurd (by simp [innerInstrs]) hhost

theorem endOperation_inv (hinv : Inv s) (hidle : s.seq = .idle) (st : Status) : Inv (endOperation st s) :=
  inv_of_idle rfl hinv.config hinv.noInner (hinv.regs.withResult _ _) hinv.quiet (hinv.disciplined_idle hidle)

/-- A cursor armed (R170). -/
theorem armed_inv (hinv : Inv s) (hidle : s.seq = .idle) (hinit : s.regs.initialized = true) :
    Inv (endOperation .ok { s with regs := { s.regs with rom := zeroRom, forkBit := forkStart } }) := by
  refine inv_of_idle rfl hinv.config hinv.noInner ⟨fun _ => rfl, fun _ hf => absurd hf (by decide : ¬ 65 ≤ 64), ?_,
    hinv.handle, hinv.lineWidth⟩ (quiet_of_initialized hinit) (hinv.disciplined_idle hidle)
  exact fun hi => absurd (hinit.symm.trans hi) nofun

/-- A command run to completion, as the watched command it is the end of (R33). -/
theorem exec_inv (hinv : Inv s) (hidle : s.seq = .idle) (hpulse : s.rspValid = false) (htimer : s.eng.tr.timer = 0)
    {w : CmdWord} (harg : s.eng.tr.argReg = hostArg w) (hx : exec (decodeHost w) s = .next t) : Inv t := by
  cases hfirst : firstPhase (decodeHost w) s with
  | some s' =>
    exact (reaches_exec hinv.config htimer (harg ▸ latched_decodeHost w) hfirst hx).inv
      (firstPhase_inv hinv hidle hpulse htimer hfirst)
  | none =>
    obtain ⟨st, rfl⟩ | ⟨hinit, rfl⟩ := exec_of_firstPhase_none hfirst hx
    · exact endOperation_inv hinv hidle st
    · exact armed_inv hinv hidle hinit

/-- A command accepted (R31). -/
theorem accept_inv (hinv : Inv s) (hidle : s.seq = .idle) (w : CmdWord) : Inv (accept w s) :=
  inv_of_idle hidle hinv.config hinv.noInner hinv.regs hinv.quiet ((hinv.disciplined_idle hidle).withTr _)

/-- The power-on reset (R48, R230). -/
theorem powerOnReset_inv (hwf : s.cfg.wf = true) (hinner : s.inner = none) : Inv (powerOnReset s) :=
  inv_of_idle rfl hwf hinner
    ⟨fun _ => rfl, fun hf _ => absurd hf (by decide : ¬ 1 ≤ 0), fun _ => ⟨rfl, rfl⟩, nofun, Nat.two_pow_pos _⟩
    (fun _ => List.forall_mem_nil _)
    ⟨rfl, (Bool.and_false _).symm, rfl, List.pairwise_singleton _ _⟩

end

/-- Settles O52: the state is what the power-on reset leaves. -/
theorem invariantHoldsAtReset : Obligations.InvariantHoldsAtReset := by
  unfold Obligations.InvariantHoldsAtReset
  exact powerOnReset_inv (s := State.reset) rfl rfl

/-- Settles O53: by what the host's next input asks for; a command run to completion ends where the watched one does. -/
theorem stepKeepsTheInvariant : Obligations.StepKeepsTheInvariant := by
  unfold Obligations.StepKeepsTheInvariant
  intro s t hinv hstep
  obtain ⟨rest, -, rfl⟩ | ⟨w, rest, -, hidle, hx⟩ | ⟨w, rest, -, hidle, hx⟩ | ⟨rest, -, -, rfl⟩ | ⟨-, -, rfl⟩ |
    ⟨-, -, -, rest, -, -, rfl⟩ | ⟨-, -, rest, -, -, hx⟩ := step_cases hinv.noInner hstep
  · exact powerOnReset_inv hinv.config hinv.noInner
  · exact exec_inv (accept_inv (hinv.withHost rest) hidle w) hidle rfl rfl rfl hx
  · have haccepted := accept_inv (hinv.withHost rest) hidle w
    obtain ⟨-, hfirst⟩ | ⟨-, hx⟩ := startCommand_cases hx
    · exact firstPhase_inv haccepted hidle rfl rfl hfirst
    · exact exec_inv haccepted hidle rfl rfl rfl hx
  · exact hinv.withHost rest
  · exact hinv.withHost s.host
  · exact hinv.withHost rest
  · exact sequencerStep_inv (hinv.withHost rest) hx

/-- Settles O54: an idle block can do whatever the host asks for, and a busy one is in a phase of its operation's own. -/
theorem stepNeverStops : Obligations.StepNeverStops := by
  unfold Obligations.StepNeverStops
  intro s hinv
  have hwf := hinv.config
  obtain ⟨cfg, regs, eng, seq, rspValid, host, inner⟩ := s
  cases hinv.noInner
  cases seq with
  | idle =>
    rcases host with _ | ⟨w | w | _ | _, rest⟩
    case command => exact everyInstructionEnds (decodeHost w) _ hwf
    case start =>
      obtain ⟨t, hx⟩ := everyInstructionEnds (decodeHost w)
        (accept w ⟨cfg, regs, eng, .idle, false, rest, none⟩) hwf
      obtain ⟨s', hs', -⟩ := startCommand_reaches (s := accept w ⟨cfg, regs, eng, .idle, false, rest, none⟩) hwf rfl rfl hx
      exact ⟨s', hs'⟩
    all_goals exact ⟨_, rfl⟩
  | busy op phase =>
    have hown := (hinv.opInv rfl).own
    have hsequencer : ∀ host, ∃ t, sequencerStep ⟨cfg, regs, eng, .busy op phase, false, host, none⟩ = .next t :=
      fun host => by
        obtain ⟨t, ht, -⟩ := sequencerStep_moves (s := ⟨cfg, regs, eng, .busy op phase, false, host, none⟩) rfl hwf hown
        exact ⟨t, ht⟩
    rcases host with _ | ⟨w | w | _ | _, rest⟩
    case nil => exact hsequencer _
    case wait => exact hsequencer _
    all_goals exact ⟨_, rfl⟩

end Sys2Proof.Machine

/-! The loop counters and the timer stay in their ranges (R36). -/

namespace Sys2Proof.Machine

/-- The times of the source (R7). -/
theorem canonical_times {c : Config} (hc : c.Canonical) : c.tRstl = 480 ∧ c.tRec = 1 ∧ c.tRiseMax = 60 ∧
    c.tPresMax = 240 ∧ c.tRsth = 480 ∧ c.tPoll = 1 ∧ c.tSlot = 120 ∧ c.tLow1 = 1 ∧ c.tSample = 15 := by
  rw [hc]
  exact ⟨rfl, rfl, rfl, rfl, rfl, rfl, rfl, rfl, rfl⟩

section

variable {s t : State} {op : HostOp} {phase : Phase} (hc : s.cfg.Canonical)

include hc

theorem writeTimes_le (bit : Bool) : writeLowTime s.cfg bit ≤ 480 ∧ writeTailTime s.cfg bit ≤ 480 := by
  obtain ⟨-, hrec, -, -, -, -, hslot, hlow, -⟩ := canonical_times hc
  cases bit <;> simp only [writeLowTime, writeTailTime, hrec, hslot, hlow] <;> decide

/-- No delay of a slot is longer than the timer's range. -/
theorem writePoint_timer_le {bit : Bool} {p p' : WritePoint} {e e' : Engine}
    (h : writePoint s.cfg bit p e = (e', some p')) (htimer : e.tr.timer ≤ 480) : e'.tr.timer ≤ 480 := by
  obtain ⟨hlow, htail⟩ := writeTimes_le hc bit
  cases p <;> cases h
  case critEnter => rwa [critEnter_tr]
  case driveLow | release => exact htimer
  case lowDelay => exact hlow
  case tailDelay => exact htail

theorem readPoint_timer_le {p p' : ReadPoint} {e e' : Engine} (h : readPoint s.cfg p e = (e', some p'))
    (htimer : e.tr.timer ≤ 480) : e'.tr.timer ≤ 480 := by
  obtain ⟨-, -, -, -, -, -, hslot, hlow, hsample⟩ := canonical_times hc
  cases p <;> cases h
  case critEnter => rwa [critEnter_tr]
  case driveLow | release | sample => exact htimer
  all_goals
    rw [startDelay_tr]
    dsimp only
    omega

theorem resetPoint_inRange {p p' : ResetPoint} {e : Engine} (h : resetPoint s.cfg p s.eng = (e, .ok p'))
    (hcounters : (Phase.reset p).countersOk op s) (hr : CountersInRange s) :
    CountersInRange (goOn op phase { s with eng := e }) := by
  obtain ⟨hrstl, hrec, hriseMax, hpresMax, hrsth, hpoll, -⟩ := canonical_times hc
  obtain ⟨hbit, hbyte, hpos, hfork, hrise, hfall, htimer⟩ := hr
  cases p
  case riseSample =>
    simp only [resetPoint] at h
    split at h <;> cases h
    · exact ⟨hbit, hbyte, hpos, hfork, hrise, Nat.zero_le _, htimer⟩
    · exact ⟨hbit, hbyte, hpos, hfork, hrise, hfall, htimer⟩
  all_goals cases h
  case critEnter =>
    simp only [CountersInRange, goOn_eng, critEnter_tr]
    exact ⟨hbit, hbyte, hpos, hfork, hrise, hfall, htimer⟩
  case idleSample | driveLow | release | fallSample => exact ⟨hbit, hbyte, hpos, hfork, hrise, hfall, htimer⟩
  case lowDelay => exact ⟨hbit, hbyte, hpos, hfork, hrise, hfall, hrstl.le⟩
  case recDelay => exact ⟨hbit, hbyte, hpos, hfork, Nat.zero_le _, hfall, hrec.trans_le (by decide)⟩
  case riseDelay =>
    have hrise' : s.eng.tr.rise < 60 := hriseMax ▸ hcounters
    exact ⟨hbit, hbyte, hpos, hfork, hrise', hfall, hpoll.trans_le (by decide)⟩
  case fallDelay =>
    have hfall' : s.eng.tr.fall < 240 := hpresMax ▸ hcounters.2
    exact ⟨hbit, hbyte, hpos, hfork, hrise, hfall', hpoll.trans_le (by decide)⟩
  case remainder =>
    have hrest : s.cfg.tRsth - s.eng.tr.rise - s.eng.tr.fall ≤ 480 := by omega
    exact ⟨hbit, hbyte, hpos, hfork, hrise, hfall, hrest⟩

theorem Inside.inRange {phase' : Phase} {e : Engine} (h : Inside s.cfg s.eng phase phase' e)
    (hcounters : phase.countersOk op s) (hr : CountersInRange s) :
    CountersInRange (goOn op phase' { s with eng := e }) := by
  cases h with
  | reset h => exact resetPoint_inRange hc h hcounters hr
  | command h | payload h | answer h =>
    obtain ⟨hbit, hbyte, hpos, hfork, hrise, hfall, htimer⟩ := hr
    have htimer' := writePoint_timer_le hc h htimer
    obtain ⟨n, htr⟩ := writePoint_tr h
    rw [htr] at htimer'
    simp only [CountersInRange, goOn_eng, htr]
    exact ⟨hbit, hbyte, hpos, hfork, hrise, hfall, htimer'⟩
  | receive h | pairTrue h | pairComp h =>
    obtain ⟨hbit, hbyte, hpos, hfork, hrise, hfall, htimer⟩ := hr
    have htimer' := readPoint_timer_le hc h htimer
    obtain ⟨n, v, htr⟩ := readPoint_tr h
    rw [htr] at htimer'
    simp only [CountersInRange, goOn_eng, htr]
    exact ⟨hbit, hbyte, hpos, hfork, hrise, hfall, htimer'⟩

omit hc

theorem After.inRange (h : After s op phase t) (hcounters : phase.countersOk op s) (hr : CountersInRange s) :
    CountersInRange t := by
  obtain ⟨hbit, hbyte, hpos, hfork, hrise, hfall, htimer⟩ := hr
  have hzero : 0 ≤ 8 := Nat.zero_le _
  cases h
  case reset | resetFailed => exact ⟨hbit, hbyte, hpos, hfork, hrise, hfall, htimer⟩
  case resetOk => exact ⟨hzero, hbyte, hpos, hfork, hrise, hfall, htimer⟩
  case commandBit | commandSent => exact ⟨hcounters, hbyte, hpos, hfork, hrise, hfall, htimer⟩
  case readRom | matchRom => exact ⟨hzero, hzero, hpos, hfork, hrise, hfall, htimer⟩
  case search => exact ⟨hcounters, hbyte, (by decide : 1 ≤ 64), Nat.zero_le _, hrise, hfall, htimer⟩
  case payloadBit => exact ⟨hcounters.1, hbyte, hpos, hfork, hrise, hfall, htimer⟩
  case payloadByte => exact ⟨hzero, hcounters.2, hpos, hfork, hrise, hfall, htimer⟩
  case payloadSent => exact ⟨hcounters.1, hcounters.2, hpos, hfork, hrise, hfall, htimer⟩
  case receiveBit | byteRead => exact ⟨hcounters.1, hbyte, hpos, hfork, hrise, hfall, htimer⟩
  case receiveByte => exact ⟨hzero, hcounters.2 rfl, hpos, hfork, hrise, hfall, htimer⟩
  case romRead => exact ⟨hcounters.1, hcounters.2 rfl, hpos, hfork, hrise, hfall, htimer⟩
  case pairTrue | aborted | committed => exact ⟨hbit, hbyte, hpos, hfork, hrise, hfall, htimer⟩
  case decided d hd =>
    have hfork' : d.2.val ≤ 64 := by
      obtain ⟨-, hpos', -⟩ := hcounters
      obtain hnew | ⟨hnew, -⟩ := decideBit_newFork hd hpos'
      · exact hnew ▸ hfork
      · exact hnew.trans_le hpos'
    exact ⟨hbit, hbyte, hpos, hfork', hrise, hfall, htimer⟩
  case answered hnext => exact ⟨hbit, hbyte, hnext, hfork, hrise, hfall, htimer⟩

/-- Only transient registers are counters. -/
theorem inRange_congr {s' : State} (htr : s'.eng.tr = s.eng.tr) (hr : CountersInRange s) : CountersInRange s' := by
  rw [CountersInRange, htr]
  exact hr

theorem sequencerStep_inRange (hinv : Inv s) (hc : s.cfg.Canonical) (hr : CountersInRange s)
    (h : sequencerStep s = .next t) : CountersInRange t := by
  obtain ⟨-, rfl⟩ | ⟨op, phase, hbusy, -, hown, ⟨-, rfl⟩ | ⟨-, hevent⟩⟩ := sequencerStep_cases h
  · exact hr
  · obtain ⟨hbit, hbyte, hpos, hfork, hrise, hfall, htimer⟩ := hr
    exact ⟨hbit, hbyte, hpos, hfork, hrise, hfall, (Nat.sub_le _ _).trans htimer⟩
  · obtain ⟨t', ht', hmoves⟩ := phaseEvent_moves (s := s) hown
    obtain rfl : t' = t := Host.Outcome.next.inj (ht'.symm.trans hevent)
    have hcounters := (hinv.opInv hbusy).counters
    cases hmoves with
    | configure => exact configureLine_of (P := CountersInRange) hr hr
    | inside _ hinside => exact hinside.inRange hc hcounters hr
    | after hafter =>
      exact hafter.inRange (countersOk_congr (s := s) rfl (critExit_tr _ _) hcounters) (inRange_congr (critExit_tr _ _) hr)

/-- No step of the sequencer changes the parameters. -/
theorem sequencerStep_cfg (h : sequencerStep s = .next t) : t.cfg = s.cfg := by
  obtain ⟨-, rfl⟩ | ⟨op, phase, -, -, hown, ⟨-, rfl⟩ | ⟨-, hevent⟩⟩ := sequencerStep_cases h
  · rfl
  · rfl
  · obtain ⟨t', ht', hmoves⟩ := phaseEvent_moves (s := s) hown
    obtain rfl : t' = t := Host.Outcome.next.inj (ht'.symm.trans hevent)
    obtain ⟨phase', e, rfl⟩ | ⟨st, e, regs, rfl, -⟩ := hmoves.goesOnOrEnds <;> rfl

theorem Reaches.inRange (h : Reaches s t) (hc : s.cfg.Canonical) (hinv : Inv s) (hr : CountersInRange s) :
    CountersInRange t := by
  induction h using Relation.ReflTransGen.head_induction_on with
  | refl => exact hr
  | head hstep _ ih =>
    refine ih ?_ (sequencerStep_inv hinv hstep.2) (sequencerStep_inRange hinv hc hr hstep.2)
    rwa [sequencerStep_cfg hstep.2]

theorem firstPhase_inRange (hr : CountersInRange s) {i : Instr} (hfirst : firstPhase i s = some t) : CountersInRange t := by
  obtain ⟨hbit, hbyte, hpos, hfork, hrise, hfall, htimer⟩ := id hr
  obtain ⟨a, rfl, rfl⟩ | ⟨hinit, ⟨rfl, rfl⟩ | ⟨byte, rfl, rfl⟩ | ⟨rfl, rfl⟩ | ⟨rfl, rfl⟩ | ⟨rfl, rfl⟩ | ⟨code, rfl, rfl⟩ |
    ⟨rfl, -, rfl⟩⟩ := firstPhase_eq hfirst
  case inr.inr.inl | inr.inr.inr.inl => exact ⟨Nat.zero_le _, hbyte, hpos, hfork, hrise, hfall, htimer⟩
  all_goals exact hr

theorem exec_inRange (hinv : Inv s) (hc : s.cfg.Canonical) (hidle : s.seq = .idle) (hpulse : s.rspValid = false)
    (htimer : s.eng.tr.timer = 0) {w : CmdWord} (harg : s.eng.tr.argReg = hostArg w) (hr : CountersInRange s)
    (hx : exec (decodeHost w) s = .next t) : CountersInRange t := by
  cases hfirst : firstPhase (decodeHost w) s with
  | some s' =>
    obtain ⟨-, hcfg, -⟩ := firstPhase_frame hfirst
    exact (reaches_exec hinv.config htimer (harg ▸ latched_decodeHost w) hfirst hx).inRange (hcfg ▸ hc)
      (firstPhase_inv hinv hidle hpulse htimer hfirst) (firstPhase_inRange hr hfirst)
  | none =>
    obtain ⟨st, rfl⟩ | ⟨-, rfl⟩ := exec_of_firstPhase_none hfirst hx <;> exact hr

theorem accept_inRange (w : CmdWord) (hr : CountersInRange s) : CountersInRange (accept w s) := by
  obtain ⟨hbit, hbyte, hpos, hfork, hrise, hfall, -⟩ := hr
  exact ⟨hbit, hbyte, hpos, hfork, hrise, hfall, Nat.zero_le _⟩

end

/-- Settles O55: by what the host's next input asks for, as for the invariant. -/
theorem stepKeepsCountersInRange : Obligations.StepKeepsCountersInRange := by
  unfold Obligations.StepKeepsCountersInRange
  intro s t hinv hc hr hstep
  obtain ⟨rest, -, rfl⟩ | ⟨w, rest, -, hidle, hx⟩ | ⟨w, rest, -, hidle, hx⟩ | ⟨rest, -, -, rfl⟩ | ⟨-, -, rfl⟩ |
    ⟨-, -, -, rest, -, -, rfl⟩ | ⟨-, -, rest, -, -, hx⟩ := step_cases hinv.noInner hstep
  · exact ⟨Nat.zero_le _, Nat.zero_le _, Nat.zero_le _, Nat.zero_le _, Nat.zero_le _, Nat.zero_le _, Nat.zero_le _⟩
  · have haccepted := accept_inv (hinv.withHost rest) hidle w
    have hr' : CountersInRange (accept w { s with rspValid := false, host := rest }) := accept_inRange w hr
    exact exec_inRange haccepted hc hidle rfl rfl rfl hr' hx
  · have haccepted := accept_inv (hinv.withHost rest) hidle w
    have hr' : CountersInRange (accept w { s with rspValid := false, host := rest }) := accept_inRange w hr
    obtain ⟨-, hfirst⟩ | ⟨-, hx⟩ := startCommand_cases hx
    · exact firstPhase_inRange hr' hfirst
    · exact exec_inRange haccepted hc hidle rfl rfl rfl hr' hx
  · exact hr
  · exact hr
  · exact hr
  · exact sequencerStep_inRange (hinv.withHost rest) hc hr hx

end Sys2Proof.Machine

/-! How many steps an operation has left at most, with the source's times: the events and ticks of its primitives, at the
worst answers of the environment (R23, R218). -/

namespace Sys2Proof.Machine

/-- Released time at the end of a write slot, with the source's times (R130, R131). -/
def writeTail (bit : Bool) : Nat := if bit then 119 else 1

/-- Steps left in a write slot: six events, and at most 121 ticks. -/
def WritePoint.steps (bit : Bool) : WritePoint → Nat
  | .critEnter => 127
  | .driveLow => 126
  | .lowDelay => 125
  | .release => 3 + writeTail bit
  | .tailDelay => 2 + writeTail bit
  | .critExit => 1

/-- Steps left in a read slot: eight events and 120 ticks. -/
def ReadPoint.steps : ReadPoint → Nat
  | .critEnter => 128
  | .driveLow => 127
  | .lowDelay => 126
  | .release => 124
  | .settleDelay => 123
  | .sample => 108
  | .tailDelay => 107
  | .critExit => 1

/-- Steps left in a bus reset: each poll step takes a sample, a delay and a tick; the remainder at most 480 ticks. -/
def ResetPoint.steps (rise fall : Nat) : ResetPoint → Nat
  | .critEnter => 1871
  | .idleSample => 1870
  | .driveLow => 1869
  | .lowDelay => 1868
  | .release => 1387
  | .recDelay => 1386
  | .riseSample => 1204 + 3 * (60 - rise)
  | .riseDelay => 1203 + 3 * (60 - rise)
  | .fallSample => 483 + 3 * (240 - fall)
  | .fallDelay => 482 + 3 * (240 - fall)
  | .remainder => 482
  | .critExit _ => 1

/-- Steps left in an operation: those of the primitive, and those of the primitives that may follow it. The longest that
can follow a bus reset is the command byte of a search and its 64 positions, each two read slots and a write slot. -/
def Phase.steps (tr : Transients) : Phase → Nat
  | .configure => 1
  | .reset p => p.steps tr.rise tr.fall + 8 * 127 + 64 * 383
  | .command p => p.steps (tr.shift.getLsbD 0) + (7 - tr.bitcnt) * 127 + 64 * 383
  | .payload p => p.steps (tr.shift.getLsbD 0) + (7 - tr.bitcnt) * 127 + (7 - tr.bytecnt) * 1016
  | .receive p => p.steps + (7 - tr.bitcnt) * 128 + (7 - tr.bytecnt) * 1024
  | .pairTrue p => p.steps + 255 + (64 - tr.pos) * 383
  | .pairComp p => p.steps + 127 + (64 - tr.pos) * 383
  | .answer p => p.steps tr.chosen + (64 - tr.pos) * 383

/-- Steps left, the ticks of a running delay included. -/
def stepsLeft (phase : Phase) (tr : Transients) : Nat := tr.timer + phase.steps tr

section

variable {c : Config} (hc : c.Canonical) {e e' : Engine}

include hc

theorem writePoint_steps {bit : Bool} {p p' : WritePoint} (h : writePoint c bit p e = (e', some p'))
    (htimer : e.tr.timer = 0) : e'.tr.timer + p'.steps bit < p.steps bit := by
  obtain ⟨-, hrec, -, -, -, -, hslot, hlow, -⟩ := canonical_times hc
  cases p <;> cases h
  all_goals
    cases bit <;> simp [WritePoint.steps, writeTail, writeLowTime, writeTailTime, htimer, hrec, hslot, hlow]

theorem readPoint_steps {p p' : ReadPoint} (h : readPoint c p e = (e', some p')) (htimer : e.tr.timer = 0) :
    e'.tr.timer + p'.steps < p.steps := by
  obtain ⟨-, -, -, -, -, -, hslot, hlow, hsample⟩ := canonical_times hc
  cases p <;> cases h
  all_goals
    simp [ReadPoint.steps, htimer, hslot, hlow, hsample]

theorem resetPoint_steps {p p' : ResetPoint} (h : resetPoint c p e = (e', .ok p')) (htimer : e.tr.timer = 0)
    (hrise : e.tr.rise ≤ 60) (hfall : e.tr.fall ≤ 240) (hriseDelay : p = .riseDelay → e.tr.rise < 60)
    (hfallDelay : p = .fallDelay → e.tr.fall < 240) :
    e'.tr.timer + p'.steps e'.tr.rise e'.tr.fall < p.steps e.tr.rise e.tr.fall := by
  obtain ⟨hrstl, hrec, hriseMax, hpresMax, hrsth, hpoll, -⟩ := canonical_times hc
  cases p
  case riseSample =>
    simp only [resetPoint] at h
    split at h <;> cases h
    · simp [ResetPoint.steps, htimer]
      omega
    · split
      all_goals
        simp only [ResetPoint.steps, sample_tr, htimer]
        omega
  case fallSample =>
    cases h
    split
    · split
      all_goals
        simp only [ResetPoint.steps, sample_tr, htimer]
        omega
    · simp [ResetPoint.steps, htimer]
      omega
  case idleSample =>
    cases h
    split <;> simp [ResetPoint.steps, htimer]
  all_goals cases h
  case riseDelay =>
    have := hriseDelay rfl
    simp [ResetPoint.steps, hpoll]
    omega
  case fallDelay =>
    have := hfallDelay rfl
    simp [ResetPoint.steps, hpoll]
    omega
  all_goals
    simp [ResetPoint.steps, htimer, hrstl, hrec, hrsth]
  case remainder => omega

end

section

variable {s t : State} {op : HostOp} {phase : Phase}

/-- An event inside a primitive, with the ticks of the delay it may begin. -/
theorem Inside.stepsLeft_lt {phase' : Phase} {e : Engine} (hc : s.cfg.Canonical) (h : Inside s.cfg s.eng phase phase' e)
    (htimer : s.eng.tr.timer = 0) (hcounters : phase.countersOk op s) (hr : CountersInRange s) :
    stepsLeft phase' e.tr < stepsLeft phase s.eng.tr := by
  cases h with
  | reset h =>
    obtain ⟨-, -, hriseMax, hpresMax, -⟩ := canonical_times hc
    obtain ⟨-, -, -, -, hrise, hfall, -⟩ := hr
    have hsteps := resetPoint_steps hc h htimer hrise hfall (fun hp => by subst hp; exact hriseMax ▸ hcounters)
      (fun hp => by subst hp; exact hpresMax ▸ hcounters.2)
    simp only [stepsLeft, Phase.steps]
    omega
  | command h | payload h | answer h =>
    have hsteps := writePoint_steps hc h htimer
    obtain ⟨n, htr⟩ := writePoint_tr h
    rw [htr] at hsteps ⊢
    simp only [stepsLeft, Phase.steps] at hsteps ⊢
    omega
  | receive h | pairTrue h | pairComp h =>
    have hsteps := readPoint_steps hc h htimer
    obtain ⟨n, v, htr⟩ := readPoint_tr h
    rw [htr] at hsteps ⊢
    simp only [stepsLeft, Phase.steps] at hsteps ⊢
    omega

/-- The end of a primitive: what comes after it is no longer than was allowed for. -/
theorem After.stepsLeft_lt (h : After s op phase t) (htimer : s.eng.tr.timer = 0) {phase' : Phase}
    (hcounters : phase.countersOk op s) (hbusy : t.seq = .busy op phase') :
    stepsLeft phase' t.eng.tr < stepsLeft phase s.eng.tr := by
  cases h <;> cases hbusy
  all_goals
    simp only [stepsLeft, Phase.steps, ResetPoint.steps, WritePoint.steps, ReadPoint.steps, proceed, goOn_eng, gap_tr,
      loadShift_tr, shiftOut_tr, shiftIn_tr, startReadRom_tr, startMatch_tr, countByte_tr, takeByte_tr, startPass_tr,
      startPosition_tr, takeTrue_tr, takeComp_tr, takeDecision_tr, storeChosen_tr, htimer]
  case payloadBit =>
    have hbyte : s.eng.tr.bytecnt < 8 := hcounters.2
    omega
  all_goals omega

/-! Steps left of a whole state. -/

/-- Steps left until the block is idle. -/
def State.stepsLeft (s : State) : Nat :=
  match s.seq with
  | .idle => 0
  | .busy _ phase => Machine.stepsLeft phase s.eng.tr

theorem stepsLeft_of_idle (h : s.seq = .idle) : s.stepsLeft = 0 := by
  rw [State.stepsLeft, h]

theorem stepsLeft_of_busy (h : s.seq = .busy op phase) : s.stepsLeft = stepsLeft phase s.eng.tr := by
  rw [State.stepsLeft, h]

theorem WritePoint.steps_bounds (bit : Bool) (p : WritePoint) : 0 < p.steps bit ∧ p.steps bit ≤ 127 := by
  cases p <;> cases bit <;> decide

theorem ReadPoint.steps_bounds (p : ReadPoint) : 0 < p.steps ∧ p.steps ≤ 128 := by
  cases p <;> decide

theorem ResetPoint.steps_bounds (rise fall : Nat) (p : ResetPoint) : 0 < p.steps rise fall ∧ p.steps rise fall ≤ 1871 := by
  cases p <;> simp only [ResetPoint.steps] <;> omega

/-- In any phase a step is left, and no more than those of a whole search (R23). -/
theorem Phase.steps_bounds (tr : Transients) (phase : Phase) : 0 < phase.steps tr ∧ phase.steps tr ≤ 27399 := by
  cases phase with
  | configure => exact ⟨Nat.one_pos, (by decide : 1 ≤ 27399)⟩
  | reset p =>
    have := p.steps_bounds tr.rise tr.fall
    simp only [Phase.steps]
    omega
  | command p | payload p =>
    have := p.steps_bounds (tr.shift.getLsbD 0)
    simp only [Phase.steps]
    omega
  | answer p =>
    have := p.steps_bounds tr.chosen
    simp only [Phase.steps]
    omega
  | receive p | pairTrue p | pairComp p =>
    have := p.steps_bounds
    simp only [Phase.steps]
    omega

theorem stepsLeft_pos (hbusy : s.seq ≠ .idle) : 0 < s.stepsLeft := by
  cases hseq : s.seq with
  | idle => exact absurd hseq hbusy
  | busy op phase =>
    rw [stepsLeft_of_busy hseq, stepsLeft]
    exact Nat.add_pos_right _ (phase.steps_bounds s.eng.tr).1

theorem stepsLeft_le (hr : CountersInRange s) : s.stepsLeft ≤ 30000 := by
  cases hseq : s.seq with
  | idle => simp [stepsLeft_of_idle hseq]
  | busy op phase =>
    obtain ⟨-, -, -, -, -, -, htimer⟩ := hr
    have hsteps := (phase.steps_bounds s.eng.tr).2
    rw [stepsLeft_of_busy hseq, stepsLeft]
    omega

/-- A step of the sequencer is one of those left. -/
theorem sequencerStep_stepsLeft (hinv : Inv s) (hc : s.cfg.Canonical) (hr : CountersInRange s) (hbusy : s.seq ≠ .idle)
    (h : sequencerStep s = .next t) : t.stepsLeft < s.stepsLeft := by
  obtain ⟨hidle, -⟩ | ⟨op, phase, hseq, -, hown, ⟨htimer, rfl⟩ | ⟨htimer, hevent⟩⟩ := sequencerStep_cases h
  · exact absurd hidle hbusy
  · rw [stepsLeft_of_busy hseq, stepsLeft_of_busy (s := { s with eng := tick s.eng }) hseq, stepsLeft, stepsLeft]
    have hsame : phase.steps (tick s.eng).tr = phase.steps s.eng.tr := by cases phase <;> rfl
    rw [hsame, tick_tr]
    dsimp only
    omega
  · obtain ⟨t', ht', hmoves⟩ := phaseEvent_moves (s := s) hown
    obtain rfl : t' = t := Host.Outcome.next.inj (ht'.symm.trans hevent)
    have hcounters := (hinv.opInv hseq).counters
    have hpos := stepsLeft_pos hbusy
    cases hmoves with
    | configure => rwa [stepsLeft_of_idle (configureLine_seq _ _)]
    | inside _ hinside =>
      rw [stepsLeft_of_busy hseq, stepsLeft_of_busy rfl]
      exact hinside.stepsLeft_lt hc htimer hcounters hr
    | after hafter =>
      cases hseq' : t'.seq with
      | idle => rwa [stepsLeft_of_idle hseq']
      | busy op' phase' =>
        obtain ⟨rfl, -⟩ := hafter.goesOn hseq'
        rw [stepsLeft_of_busy hseq, stepsLeft_of_busy hseq']
        have hlt := hafter.stepsLeft_lt (by simpa using htimer)
          (countersOk_congr (s := s) rfl (critExit_tr _ _) hcounters) hseq'
        simpa using hlt

/-- With the host silent a block becomes idle within the steps left. -/
theorem run_to_idle (n : Nat) (hinv : Inv s) (hc : s.cfg.Canonical) (hr : CountersInRange s) (hhost : s.host = [])
    (hn : s.stepsLeft ≤ n) :
    ∃ (m : Nat) (t : State), m ≤ n ∧ Host.Core.run Sys2Proof.core m s = .next t ∧ t.seq = .idle := by
  induction n generalizing s with
  | zero =>
    have hidle : s.seq = .idle := by
      by_contra hbusy
      exact absurd (stepsLeft_pos hbusy) (Nat.not_lt.mpr hn)
    exact ⟨0, s, le_rfl, rfl, hidle⟩
  | succ n ih =>
    by_cases hidle : s.seq = .idle
    · exact ⟨0, s, Nat.zero_le _, rfl, hidle⟩
    · obtain ⟨t, hstep⟩ := stepNeverStops s hinv
      have hx : sequencerStep { s with rspValid := false } = .next t :=
        (step_of_busy hidle hinv.noInner hhost).symm.trans hstep
      have hlt := sequencerStep_stepsLeft (s := { s with rspValid := false }) (hinv.withHost s.host) hc hr hidle hx
      obtain hidle' | ⟨-, hhost', -, hcfg, -⟩ := sequencerStep_kept hx
      · exact ⟨1, t, Nat.le_add_left _ _, run_succ_of_step hstep 0, hidle'⟩
      · have hinv' := stepKeepsTheInvariant s t hinv hstep
        have hr' := stepKeepsCountersInRange s t hinv hc hr hstep
        obtain ⟨m, t', hm, hrun, hidle'⟩ := ih hinv' (hcfg ▸ hc) hr' (hhost'.trans hhost)
          (Nat.le_of_lt_succ (hlt.trans_le hn))
        exact ⟨m + 1, t', Nat.succ_le_succ hm, (run_succ_of_step hstep m).trans hrun, hidle'⟩

end

/-- Settles O57: the steps left are at most 30000, and each step is one of them. -/
theorem busyBlockBecomesIdle : Obligations.BusyBlockBecomesIdle := by
  unfold Obligations.BusyBlockBecomesIdle
  intro s hinv hc hr hhost
  exact run_to_idle 30000 hinv hc hr hhost (stepsLeft_le hr)

end Sys2Proof.Machine
